-- ==== Sys2Proof/Word.lean ====
section
/-! DEFINITION. The word types of the block: a byte on the wire or on the host interface, and a time stamp. -/

namespace Sys2Proof

/-- A byte, an unsigned 8-bit value (00_scope.md R11); also an Address (10_state.md R23). -/
abbrev Byte := BitVec 8

/-- A time in milliseconds. `TIME_WIDTH` is 32 (00_scope.md R9, R17; 92 D25; log 2). -/
abbrev Time := BitVec 32

end Sys2Proof
end

