-- ==== Sys2Proof/Config.lean ====
section
/-! DEFINITION. The configuration of the block: every parameter of 00_scope.md R9, as plain data. The configuration is
a field of the machine's state that no operation writes (10_state.md R50; log 1), so that a statement about
every state is a statement about every configuration. -/

namespace Sys2Proof

/-- Mode (10_state.md R29). -/
inductive Mode where
  | voice | data | undefined
deriving DecidableEq, Repr

/-- RX filter selection (10_state.md R30). -/
inductive RxFilter where
  | fil1 | fil2 | fil3 | undefined
deriving DecidableEq, Repr

/-- A value that `MOD_TABLE` can name. The table's contents are open (92 D37); `other` is any name that is not one of the
reference table's. -/
inductive ModName where
  | lsb | usb | am | cw | rtty | fm | wfm | cwR | rttyR
  | other (n : Nat)
deriving DecidableEq, Repr

/-- `NUMERIC_MODE` (40_receive.md R120). -/
inductive NumericMode where
  | exact | wrap32
deriving DecidableEq, Repr

/-- A command the block can send: a command body and its data field (30_encoding.md R98). -/
structure Command where
  cmd  : List Byte
  data : List Byte
deriving DecidableEq, Repr

/-- What the configuration holds for one member of `MODELS` (00_scope.md R9, 42_controller.md R152). -/
structure ModelConfig where
  /-- `ID_QUERY(model)`, a command body. -/
  idQuery    : List Byte
  /-- `Seq(model, Voice)`. -/
  seqVoice   : List Command
  /-- `Seq(model, Data)`. -/
  seqData    : List Command
  /-- `BOOT_WINDOW_MS(model)`. -/
  bootWindow : Nat
  /-- `MOD_TABLE(model)`, from the modulation byte to the modulation mode. -/
  modTable   : List (Byte × ModName)
  /-- `DV_REMAP(model)`. -/
  dvRemap    : Bool
deriving DecidableEq, Repr

/-- The catalog names that are the same for every model (30_encoding.md R98, 42_controller.md R152). -/
structure Catalog where
  freqQuery  : List Byte
  modeQuery  : List Byte
  freqReport : List Byte
  modeReport : List Byte
  pwrOn      : Command
  pwrOff     : Command
  dtUtc      : List Byte
  dtTime     : List Byte
  dtDate     : List Byte
deriving DecidableEq, Repr

/-- The parameters of 00_scope.md R9 that are not fixed by the document (those stand in Machine/Wire.lean). -/
structure Config where
  /-- `ADDR_ALL`, the broadcast address. -/
  addrAll         : Byte
  /-- `ADDR_MASTER`, this block's own bus address. -/
  addrMaster      : Byte
  /-- `ADDR_NONE`, the sentinel that names no party. -/
  addrNone        : Byte
  /-- `COMPOUND_OPCODES`. -/
  compound        : List Byte
  readPollLimit   : Nat
  echoPollLimit   : Nat
  /-- `POLL_TICK`: left open, and no rule reads it (60_exceptions.md R217; log 19). -/
  pollTick        : Option Nat
  wakePreambleLen : Nat
  pendingCap      : Nat
  registryCap     : Nat
  maxControllers  : Nat
  idIntervalMs    : Nat
  idWaitMs        : Nat
  verifyDelayMs   : Nat
  /-- `ACK_TIMEOUT_MS`, or `none`. -/
  ackTimeoutMs    : Option Nat
  numericMode     : NumericMode
  /-- `MODELS`, in the order of the model index `md` (log 3). -/
  models          : List ModelConfig
  catalog         : Catalog
  /-- `FILTER_TABLE`, from the filter byte to the selection. -/
  filterTable     : List (Byte × RxFilter)
  dtLenUtc        : Nat
  dtLenTime       : Nat
  dtLenDate       : Nat
deriving DecidableEq, Repr

end Sys2Proof
end

