-- ==== Sys2Proof/Machine/RefConfig.lean ====
section
/-! DEFINITION. The reference configuration REFCFG (00_scope.md R9; 92 D3, D4, D37, D38, D39). The spec takes its addresses,
compound set, catalog, modulation table and date/time lengths from general knowledge (93 G1 to G5; log 17). -/

namespace Sys2Proof.Machine

/-- REFCFG's one member of `MODELS` (92 D37, D39). -/
def refModel : ModelConfig where
  idQuery := [0x19, 0x00]
  seqVoice := [⟨[0x06], [0x17, 0x01]⟩]
  seqData := [⟨[0x06], [0x01, 0x01]⟩, ⟨[0x1A, 0x06], [0x01, 0x01]⟩]
  bootWindow := 5000
  modTable := [(0x00, .lsb), (0x01, .usb), (0x02, .am), (0x03, .cw), (0x04, .rtty), (0x05, .fm), (0x06, .wfm),
    (0x07, .cwR), (0x08, .rttyR)]
  dvRemap := true

/-- REFCFG's catalog (92 D39). -/
def refCatalog : Catalog where
  freqQuery := [0x03]
  modeQuery := [0x04]
  freqReport := [0x00]
  modeReport := [0x01]
  pwrOn := ⟨[0x18, 0x01], []⟩
  pwrOff := ⟨[0x18, 0x00], []⟩
  dtUtc := [0x1A, 0x05, 0x01, 0x70]
  dtTime := [0x1A, 0x05, 0x01, 0x66]
  dtDate := [0x1A, 0x05, 0x01, 0x65]

/-- REFCFG (00_scope.md R9). -/
def refConfig : Config where
  addrAll := 0x00
  addrMaster := 0xE0
  addrNone := 0xFF
  compound := [0x14, 0x15, 0x16, 0x18, 0x19, 0x1A, 0x1C]
  readPollLimit := 40
  echoPollLimit := 40
  pollTick := none
  wakePreambleLen := 40
  pendingCap := 4
  registryCap := 4
  maxControllers := 4
  idIntervalMs := 1800
  idWaitMs := 100
  verifyDelayMs := 200
  ackTimeoutMs := none
  numericMode := .exact
  models := [refModel]
  catalog := refCatalog
  filterTable := [(0x01, .fil1), (0x02, .fil2), (0x03, .fil3)]
  dtLenUtc := 3
  dtLenTime := 2
  dtLenDate := 4

end Sys2Proof.Machine
end

