-- ==== Sys2Proof/Machine/State.lean ====
section
/-! DEFINITION. The state of the machine as plain data (10_state.md), the reasons a step can stop, and the state after
block reset. -/

namespace Sys2Proof.Machine

/-- The status of an ExchangeResult (10_state.md R24, 60_exceptions.md R201). -/
inductive Status where
  | ok | okWithData | notOk | noMessage | busBusy | busConflict | hardwareFault
deriving DecidableEq, Repr

/-- ExchangeResult (10_state.md R24). -/
structure ExchangeResult where
  status : Status
  src    : Byte
  cmd    : List Byte
  data   : List Byte
  /-- numericValue, a natural number (40_receive.md R120: below 2^34). -/
  nv     : Nat
deriving DecidableEq, Repr

/-- PowerState (10_state.md R27). -/
inductive PowerState where
  | off | offTransitioning | on | onTransitioning | unknown
deriving DecidableEq, Repr

/-- PowerRequest (10_state.md R28). -/
inductive PowerRequest where
  | on | off | toggle
deriving DecidableEq, Repr

/-- Modulation (10_state.md R30): a value of `MOD_TABLE` with its own wire byte, by which it is coded (30_encoding.md R97;
log 4), digital voice, or undefined. -/
inductive Modulation where
  | linear (key : Byte) (name : ModName)
  | dv
  | undefined
deriving DecidableEq, Repr

/-- The state of one device controller (10_state.md R37 to R48). -/
structure Controller where
  live          : Bool
  addr          : Byte
  /-- The index in `MODELS` (log 3). -/
  model         : Nat
  power         : PowerState
  mode          : Mode
  target        : Mode
  freq          : Nat
  modulation    : Modulation
  filter        : RxFilter
  idInFlight    : Bool
  idSentAt      : Time
  polled        : Bool
  lastPollAt    : Time
  /-- `none` is UNSET (10_state.md R31, R44). -/
  lastPowerOnAt : Option Time
  seqActive     : Bool
  seq           : List Command
  seqIdx        : Nat
  nak           : BitVec 8
  ackPending    : Bool
  ackSentAt     : Time
  verifyPending : Bool
  verifyFrom    : Time
  dtUtc         : List Byte
  dtTime        : List Byte
  dtDate        : List Byte
  dtSent        : Bool
deriving DecidableEq, Repr

/-- One entry of the transmit log: a byte passed to TxPush, or a call of TxFlush (10_state.md R52). -/
inductive TxEvent where
  | byte (b : Byte)
  | flush
deriving DecidableEq, Repr

/-- The state of the block, its transport, and the model's record of the two other agents (INVENTORY.md, State). -/
structure State where
  /-- The configuration, which no operation writes (10_state.md R50; log 1). -/
  cfg       : Config
  /-- The registry `E.reg` (10_state.md R34). -/
  reg       : List Byte
  /-- The pending buffer `E.pend`, oldest first (10_state.md R35). -/
  pend      : List ExchangeResult
  /-- The controller slots `C[k]` (10_state.md R37 to R48). -/
  ctrl      : List Controller
  /-- The receive FIFO `RX`, oldest byte first (10_state.md R51). -/
  rx        : List Byte
  /-- The transmit log `TX`, oldest first (10_state.md R52). -/
  tx        : List TxEvent
  /-- The MODEL's own: what the bus environment appends to `RX` at the coming primitive boundaries (00_scope.md R8; log 5). -/
  arrivals  : List (List Byte)
  /-- The MODEL's own: the line echoes each pushed byte at once (20_memory.md R64; log 6). -/
  loopback  : Bool
  /-- The MODEL's own: how many poll ticks have passed (00_scope.md R15; log 14). -/
  polls     : Nat
  /-- The MODEL's own: for each poll tick so far, how many bytes were still to arrive when it began (00_scope.md R21; log 24). -/
  waits     : List Nat
  /-- The MODEL's own: the host's requests not yet taken, oldest first (00_scope.md R7; log 10). -/
  requests  : List (List Byte)
  /-- The MODEL's own: the responses given, oldest first (00_scope.md R20; log 10). -/
  responses : List (List Byte)
deriving DecidableEq, Repr

/-- Internal errors: the spec's rules reach neither (log 15). -/
inductive Fault where
  /-- `RxPop` with `RX` empty, which 60_exceptions.md R219 says never happens and 93 I28 lets a model treat as an internal
  error. Raised by `rxPop`. Safe: the model stops where it has no byte to give. -/
  | rxPopEmpty
  /-- The recursion bound of a raw read or an echo readback is spent before the wait ends, which 00_scope.md R21 rules out for a
  bus that brings finitely many bytes. Raised by `readRawLoop` and `echoLoop`. Safe: the model stops. -/
  | waitUnbounded
deriving DecidableEq, Repr

/-- Why a step has no meaning. -/
inductive Refusal where
  /-- The instruction has no meaning in the model yet. Raised by an arm of `exec`. Safe. -/
  | notModelled (mnemonic : String)
  /-- The configuration fails 00_scope.md R10 or the key rule of 30_encoding.md R97: "a model refuses a configuration that fails
  any of them". Raised by `step`. Safe (log 16). -/
  | illFormedConfig
deriving DecidableEq, Repr

/-- The creation values of a controller slot (10_state.md R55, 70_reset_and_hazards.md R225), with `live`, `addr` and `model`
as they stand before a creation: not live, and 0 (log 9). -/
def Controller.blank : Controller where
  live := false
  addr := 0
  model := 0
  power := .unknown
  mode := .undefined
  target := .undefined
  freq := 0
  modulation := .undefined
  filter := .undefined
  idInFlight := false
  idSentAt := 0
  polled := false
  lastPollAt := 0
  lastPowerOnAt := none
  seqActive := false
  seq := []
  seqIdx := 0
  nak := 0
  ackPending := false
  ackSentAt := 0
  verifyPending := false
  verifyFrom := 0
  dtUtc := []
  dtTime := []
  dtDate := []
  dtSent := false

/-- Block reset with a given configuration and given bytes waiting in `RX` (10_state.md R55, 70_reset_and_hazards.md R223, R224). -/
def State.resetWith (cfg : Config) (rx : List Byte) : State where
  cfg := cfg
  reg := List.replicate cfg.registryCap cfg.addrNone
  pend := []
  ctrl := List.replicate cfg.maxControllers Controller.blank
  rx := rx
  tx := []
  arrivals := []
  loopback := false
  polls := 0
  waits := []
  requests := []
  responses := []

/-- The machine right after block reset, in the reference configuration and with an empty `RX` (log 1, log 8, log 17). -/
def State.reset : State := State.resetWith refConfig []

end Sys2Proof.Machine
end

