-- ==== Sys2Proof/Syntax.lean ====
section
/-! DEFINITION. The host operations, one constructor per row of spec/opcode_table.json (30_encoding.md R88), with the operands as
the request carries them: codes that may be out of range stay bytes, because 30_encoding.md R101 orders their refusals after the
checks of the slot index. -/

namespace Sys2Proof

/-- A host operation with its operands (30_encoding.md R88, R89). -/
inductive Instr where
  /-- READ_RAW (40_receive.md R105). -/
  | readRaw
  /-- READ_ADDR a (41_bus_ops.md R126). -/
  | readAddr (a : Byte)
  /-- WRITE_FAST a, cmd, data (41_bus_ops.md R138). -/
  | writeFast (a : Byte) (cmd data : List Byte)
  /-- WRITE_CHECKED a, cmd, data (41_bus_ops.md R139). -/
  | writeChecked (a : Byte) (cmd data : List Byte)
  /-- WRITE_POWERON a, cmd, data (41_bus_ops.md R140). -/
  | writePowerOn (a : Byte) (cmd data : List Byte)
  /-- REG_ADDR a (41_bus_ops.md R143). -/
  | regAddr (a : Byte)
  /-- UNREG_ADDR a (41_bus_ops.md R145). -/
  | unregAddr (a : Byte)
  /-- IS_KNOWN a (41_bus_ops.md R148). -/
  | isKnown (a : Byte)
  /-- CTRL_CREATE k, a, md (42_controller.md R153). -/
  | ctrlCreate (k a md : Byte)
  /-- CTRL_DESTROY k (42_controller.md R154). -/
  | ctrlDestroy (k : Byte)
  /-- TICK k, now (42_controller.md R156). -/
  | tick (k : Byte) (now : Time)
  /-- GET_POWER k (42_controller.md R168). -/
  | getPower (k : Byte)
  /-- SET_POWER k, q, now (42_controller.md R169). -/
  | setPower (k q : Byte) (now : Time)
  /-- GET_MODE k (42_controller.md R174). -/
  | getMode (k : Byte)
  /-- SET_MODE k, m (42_controller.md R175). -/
  | setMode (k m : Byte)
  /-- GET_FREQ k (42_controller.md R177). -/
  | getFreq (k : Byte)
  /-- GET_MODULATION k (42_controller.md R178). -/
  | getModulation (k : Byte)
  /-- GET_RXFILTER k (42_controller.md R179). -/
  | getRxFilter (k : Byte)
  /-- SET_ADDRESS k, a (42_controller.md R180). -/
  | setAddress (k a : Byte)
  /-- GET_ADDRESS k (42_controller.md R181). -/
  | getAddress (k : Byte)
  /-- PUSH_DATETIME k, time, date, utc (42_controller.md R182). -/
  | pushDateTime (k : Byte) (time date utc : List Byte)
deriving DecidableEq, Repr

/-- The refusal reasons (30_encoding.md R101), in the order of their numbers. -/
inductive Reason where
  /-- 0x01: reserved opcode. -/
  | reservedOpcode
  /-- 0x02: the request's length does not match its opcode and length bytes. -/
  | wrongLength
  /-- 0x03: controller index out of range. -/
  | indexRange
  /-- 0x04: controller slot not live (or live, for CTRL_CREATE). -/
  | slotLive
  /-- 0x05: enumeration operand out of range. -/
  | enumRange
  /-- 0x06: command length wrong. -/
  | commandLength
  /-- 0x07: data field or date/time group length wrong. -/
  | dataLength
  /-- 0x08: a framing byte in an operand, or a marker as the first command byte. -/
  | framingByte
  /-- 0x09: a reserved address where none is allowed. -/
  | reservedAddress
deriving DecidableEq, Repr

/-- The opcodes of 30_encoding.md R88. -/
inductive Opcode where
  | readRaw | readAddr | writeFast | writeChecked | writePowerOn | regAddr | unregAddr | isKnown
  | ctrlCreate | ctrlDestroy | tick | getPower | setPower | getMode | setMode | getFreq | getModulation | getRxFilter
  | setAddress | getAddress | pushDateTime
deriving DecidableEq, Repr

end Sys2Proof
end

