-- ==== Sys2Proof/Machine/Flags.lean ====
section
/-! DEFINITION. The codes of the enumerations, the classes of a status, the comparison of times, and the saturating NAK count:
what decides the one-bit fields of 10_state.md R49 (the block has no condition codes). -/

namespace Sys2Proof.Machine

/-- The status codes (30_encoding.md R95). -/
def Status.code : Status → Byte
  | .ok => 0x00
  | .okWithData => 0x01
  | .notOk => 0x02
  | .noMessage => 0x03
  | .busBusy => 0x04
  | .busConflict => 0x05
  | .hardwareFault => 0x06

/-- The PowerState codes (30_encoding.md R96). -/
def PowerState.code : PowerState → Byte
  | .off => 0
  | .offTransitioning => 1
  | .on => 2
  | .onTransitioning => 3
  | .unknown => 4

/-- The PowerRequest that a code stands for (30_encoding.md R96). -/
def powerRequestOf (q : Byte) : Option PowerRequest :=
  if q == 0#8 then some .on else if q == 1#8 then some .off else if q == 2#8 then some .toggle else none

/-- The Mode codes (30_encoding.md R97). -/
def modeCode : Mode → Byte
  | .voice => 0
  | .data => 1
  | .undefined => 2

/-- The Mode that a SET_MODE operand stands for: only 0 and 1 are accepted (30_encoding.md R97). -/
def modeOf (m : Byte) : Option Mode :=
  if m == 0#8 then some .voice else if m == 1#8 then some .data else none

/-- The Modulation codes (30_encoding.md R97). -/
def Modulation.code : Modulation → Byte
  | .linear key _ => key
  | .dv => 0x17
  | .undefined => 0xFF

/-- The RxFilter codes (30_encoding.md R97). -/
def filterCode : RxFilter → Byte
  | .fil1 => 1
  | .fil2 => 2
  | .fil3 => 3
  | .undefined => 0xFF

/-- The numbers of the refusal reasons (30_encoding.md R101). -/
def reasonCode : Reason → Byte
  | .reservedOpcode => 0x01
  | .wrongLength => 0x02
  | .indexRange => 0x03
  | .slotLive => 0x04
  | .enumRange => 0x05
  | .commandLength => 0x06
  | .dataLength => 0x07
  | .framingByte => 0x08
  | .reservedAddress => 0x09

/-- Ok-class: OK or OK_WITH_DATA (00_scope.md R19). -/
def Status.okClass (st : Status) : Bool := st == .ok || st == .okWithData

/-- Data-class: OK_WITH_DATA (00_scope.md R19). -/
def Status.dataClass (st : Status) : Bool := st == .okWithData

/-- The statuses that end an ack wait: OK and NOT_OK (42_controller.md R159). -/
def Status.endsAckWait (st : Status) : Bool := st == .ok || st == .notOk

/-- `elapsed(now, t) = (now - t) mod 2^TIME_WIDTH` (00_scope.md R17). -/
def elapsed (now t : Time) : Nat := (now - t).toNat

/-- "At least d has passed since t" (00_scope.md R17). -/
def atLeast (now t : Time) (d : Nat) : Bool := decide (d ≤ elapsed now t)

/-- "Still within d of t" (00_scope.md R17). -/
def stillWithin (now t : Time) (d : Nat) : Bool := decide (elapsed now t < d)

/-- `min(255, n + 1)` (10_state.md R45, 42_controller.md R160). -/
def saturatingInc (n : BitVec 8) : BitVec 8 := if n == 255#8 then 255#8 else n + 1#8

end Sys2Proof.Machine
end

