-- ==== Sys2Proof/Machine/Wire.lean ====
section
/-! DEFINITION. The wire encoding: the fixed bytes, the frame and the command-length resolution (30_encoding.md sections 1 to 4). -/

namespace Sys2Proof.Machine

/-- START, 0xFE (30_encoding.md R81). -/
def startByte : Byte := 0xFE#8

/-- STOP, 0xFD (30_encoding.md R81). -/
def stopByte : Byte := 0xFD#8

/-- The OK marker, 0xFB (30_encoding.md R81). -/
def okMarker : Byte := 0xFB#8

/-- The NOK marker, 0xFA (30_encoding.md R81). -/
def nokMarker : Byte := 0xFA#8

/-- `MAX_DATA`, the longest data field (00_scope.md R9). -/
abbrev maxData : Nat := 9

/-- `MAX_FRAME`, the longest frame in bytes (00_scope.md R9, 92 D10). -/
abbrev maxFrame : Nat := 18

/-- START or STOP, the bytes that cannot stand inside a frame (30_encoding.md R86). -/
def isFraming (b : Byte) : Bool := b == startByte || b == stopByte

/-- OKM or NOKM (30_encoding.md R86). -/
def isMarker (b : Byte) : Bool := b == okMarker || b == nokMarker

/-- `CmdLen` of the body bytes (30_encoding.md R82): the 4-byte test comes before the compound test. -/
def cmdLen (compound : List Byte) (body : List Byte) : Nat :=
  match body with
  | [] => 1
  | b0 :: rest =>
    if b0 == 0x1A#8 && rest.head? == some 0x05#8 then 4
    else if compound.contains b0 then 2
    else 1

/-- A command body's length is 1, 2 or 4 (10_state.md R24). -/
def isCommandLength (n : Nat) : Bool := n == 1 || n == 2 || n == 4

/-- The first byte of a command is not a marker (30_encoding.md R84). -/
def startsWithMarker (cmd : List Byte) : Bool :=
  match cmd with
  | [] => false
  | b :: _ => isMarker b

/-- A pair (cmd, data) is wire-valid (30_encoding.md R84). -/
def wireValid (compound : List Byte) (cmd data : List Byte) : Bool :=
  isCommandLength cmd.length && cmdLen compound (cmd ++ data) == cmd.length && !startsWithMarker cmd
    && decide (data.length ≤ maxData) && !cmd.any isFraming && !data.any isFraming

/-- A frame with any destination and source (30_encoding.md R77). -/
def rawFrame (dst src : Byte) (cmd data : List Byte) : List Byte :=
  [startByte, startByte, dst, src] ++ cmd ++ data ++ [stopByte]

/-- `Frame(a, cmd, data)`, the frame this block transmits (30_encoding.md R79). -/
def frame (cfg : Config) (a : Byte) (cmd data : List Byte) : List Byte :=
  rawFrame a cfg.addrMaster cmd data

/-- The wake preamble of a PowerOn write (30_encoding.md R80). -/
def wakePreamble (cfg : Config) : List Byte := List.replicate cfg.wakePreambleLen startByte

end Sys2Proof.Machine
end

