-- ==== Sys2Proof/Machine/Receive.lean ====
section
/-! DEFINITION. The receive path's functions: packed decimal, the byte-level state machine and the classification of a frame
(40_receive.md sections 2 to 4). -/

namespace Sys2Proof.Machine

/-- `b[3:0]`, the low nibble (00_scope.md R11). -/
def lowNibble (b : Byte) : Nat := b.toNat % 16

/-- `b[7:4]`, the high nibble (00_scope.md R11). -/
def highNibble (b : Byte) : Nat := b.toNat / 16

/-- The value of a byte's two packed digits (40_receive.md R118, R119, R121: a nibble above 9 counts with its value). -/
def bcdByte (b : Byte) : Nat := lowNibble b + 10 * highNibble b

/-- `BcdMsbFirst` of two bytes (40_receive.md R118). -/
def bcdMsbFirst (d0 d1 : Byte) : Nat := bcdByte d1 + 100 * bcdByte d0

/-- `BcdLsbFirst` of five bytes (40_receive.md R119). -/
def bcdLsbFirst (d0 d1 d2 d3 d4 : Byte) : Nat :=
  bcdByte d0 + 10 ^ 2 * bcdByte d1 + 10 ^ 4 * bcdByte d2 + 10 ^ 6 * bcdByte d3 + 10 ^ 8 * bcdByte d4

/-- The byte that holds v's decimal digits at places 10^i (low nibble) and 10^(i+1) (40_receive.md R122). -/
def bcdDigits (v i : Nat) : Byte := BitVec.ofNat 8 (v / 10 ^ i % 10 + 16 * (v / 10 ^ (i + 1) % 10))

/-- `BcdEncode2` (40_receive.md R122); the block itself never encodes. -/
def bcdEncode2 (v : Nat) : List Byte := [bcdDigits v 2, bcdDigits v 0]

/-- `BcdEncode5` (40_receive.md R122); the block itself never encodes. -/
def bcdEncode5 (v : Nat) : List Byte := [bcdDigits v 0, bcdDigits v 2, bcdDigits v 4, bcdDigits v 6, bcdDigits v 8]

/-- `Fit` (40_receive.md R120). -/
def fit (mode : NumericMode) (v : Nat) : Nat :=
  match mode with
  | .exact => v
  | .wrap32 => v % 2 ^ 32

/-- `NumVal` (40_receive.md R117). -/
def numVal (mode : NumericMode) (d : List Byte) : Nat :=
  fit mode <|
    match d with
    | [b] => b.toNat
    | [d0, d1] => bcdMsbFirst d0 d1
    | [d0, d1, d2, d3, d4] => bcdLsbFirst d0 d1 d2 d3 d4
    | _ => 0

/-- The states of the receive state machine (40_receive.md R106). -/
inductive RxPhase where
  | idle | sync | collect | stop
deriving DecidableEq, Repr

/-- `Step(st, buf, b)` (40_receive.md R107 to R110). `Stop` is terminal: `readRaw` returns before a byte meets it (R106). -/
def rxStep (cfg : Config) (st : RxPhase) (buf : List Byte) (b : Byte) : RxPhase × List Byte :=
  match st with
  | .idle => if b == startByte then (.sync, [b]) else (.idle, [])
  | .sync => if b == startByte then (.collect, buf ++ [b]) else (.idle, [])
  | .collect =>
    if b == startByte then (.idle, [])
    else if buf.length == 2 && b != cfg.addrAll && b != cfg.addrMaster then (.idle, [])
    else if b == stopByte then (.stop, buf ++ [b])
    else if buf.length == maxFrame - 1 then (.idle, [])
    else (.collect, buf ++ [b])
  | .stop => (.stop, buf)

/-- `NOMSG` (10_state.md R26). -/
def noMessage (cfg : Config) : ExchangeResult := ⟨.noMessage, cfg.addrNone, [], [], 0⟩

/-- The classification of a frame's body, the bytes between the source address and STOP (40_receive.md R112 to R116). -/
def classifyBody (cfg : Config) (src : Byte) (body : List Byte) : ExchangeResult :=
  match body with
  | [] => noMessage cfg
  | b0 :: _ =>
    if b0 == nokMarker then ⟨.notOk, src, [], [], 0⟩
    else if b0 == okMarker then ⟨.ok, src, [], [], 0⟩
    else
      let c := cmdLen cfg.compound body
      if body.length < c then noMessage cfg
      else
        let cmd := body.take c
        let data := body.drop c
        if maxData < data.length then noMessage cfg
        else if data.isEmpty then ⟨.ok, src, cmd, [], 0⟩
        else ⟨.okWithData, src, cmd, data, numVal cfg.numericMode data⟩

/-- `Classify(buf)` (40_receive.md R111): a frame shorter than 6 bytes is dropped; otherwise the source is byte 3 and the body
is bytes 4 to n-2. -/
def classify (cfg : Config) (buf : List Byte) : ExchangeResult :=
  if buf.length < 6 then noMessage cfg
  else classifyBody cfg (buf.getD 3 0) (buf.drop 4).dropLast

end Sys2Proof.Machine
end

