-- ==== Sys2Proof/Machine/Ops.lean ====
section
/-! DEFINITION. The shared operations over the state: the transport primitives with the bus environment's act at each primitive boundary, the registry, the pending buffer, the raw read, the address-directed read, the
write with arbitration and echo verification, the controller slots, and the answer to the host. The block takes no exception and returns from none
(60_exceptions.md R211, R212): its one shared answer to an illegal request is `refuse`. -/

namespace Sys2Proof.Machine

/-! ### The transport primitives (00_scope.md R15) -/

/-- The bus environment's act at a primitive boundary: the next chunk of `arrivals` reaches `RX` (00_scope.md R8; log 5). -/
def busAct (s : State) : State :=
  match s.arrivals with
  | [] => s
  | chunk :: rest => { s with rx := s.rx ++ chunk, arrivals := rest }

/-- `RxCount()`: the number of bytes waiting (00_scope.md R15, 20_memory.md R64). -/
def rxCount (s : State) : Nat × State :=
  let s := busAct s
  (s.rx.length, s)

/-- `RxPop()`: the oldest byte waiting, consumed (00_scope.md R15, 20_memory.md R64). -/
def rxPop (s : State) : Except Fault (Byte × State) :=
  let s := busAct s
  match s.rx with
  | [] => .error .rxPopEmpty
  | b :: rest => .ok (b, { s with rx := rest })

/-- `TxPush(b)`: the byte goes on the line, and comes back at once where the line echoes at once (00_scope.md R15,
20_memory.md R64; log 6). -/
def txPush (b : Byte) (s : State) : State :=
  let s := busAct s
  { s with tx := s.tx ++ [.byte b], rx := if s.loopback then s.rx ++ [b] else s.rx }

/-- `TxFlush()` (00_scope.md R15, 20_memory.md R73). -/
def txFlush (s : State) : State :=
  let s := busAct s
  { s with tx := s.tx ++ [.flush] }

/-- How many bytes the bus is still to bring, an echo at once (`loopback`) not counted (log 25). -/
def toArrive (s : State) : Nat := s.arrivals.flatten.length

/-- `PollWait()`: one poll tick passes, and the bytes still to arrive are noted (00_scope.md R15, R21; log 14, log 19, log 24). -/
def pollWait (s : State) : State :=
  let s := busAct s
  { s with polls := s.polls + 1, waits := s.waits ++ [toArrive s] }

/-- How many bytes wait in `RX` or are still to arrive. -/
def bytesToCome (s : State) : Nat := s.rx.length + toArrive s

/-! ### The registry (20_memory.md R58) -/

/-- `RegKnown(a)` (20_memory.md R58). -/
def regKnown (a : Byte) (s : State) : Bool := a != s.cfg.addrNone && s.reg.contains a

/-- `RegFree()`: the lowest free slot (20_memory.md R58). -/
def regFree (s : State) : Option Nat := s.reg.findIdx? (· == s.cfg.addrNone)

/-- The body of registerAddress (41_bus_ops.md R143). -/
def registerAddress (a : Byte) (s : State) : State :=
  if a == s.cfg.addrNone then s
  else if regKnown a s then s
  else
    match regFree s with
    | none => s
    | some i => { s with reg := s.reg.set i a }

/-- The body of unregisterAddress (41_bus_ops.md R145). -/
def unregisterAddress (a : Byte) (s : State) : State :=
  if a == s.cfg.addrNone then s
  else { s with reg := s.reg.map fun x => if x == a then s.cfg.addrNone else x }

/-! ### The pending buffer (20_memory.md R57) -/

/-- `PendFind(a)`: the oldest entry with source a (20_memory.md R57). -/
def pendFind (a : Byte) (s : State) : Option Nat := s.pend.findIdx? (·.src == a)

/-- `PendTake(i)`: the entry, and the buffer without it (20_memory.md R57). -/
def pendTake (i : Nat) (s : State) : ExchangeResult × State :=
  (s.pend.getD i (noMessage s.cfg), { s with pend := s.pend.eraseIdx i })

/-- `PendRoom()` (20_memory.md R57). -/
def pendRoom (s : State) : Bool := decide (s.pend.length < s.cfg.pendingCap)

/-- `PendAppend(r)` (20_memory.md R57). -/
def pendAppend (r : ExchangeResult) (s : State) : State := { s with pend := s.pend ++ [r] }

/-! ### Reads -/

/-- The loop of `readRaw` (40_receive.md R105): waiting bytes are consumed without a poll tick, and a poll tick passes only
with `RX` empty. `fuel` bounds the recursion (log 15). -/
def readRawLoop (fuel : Nat) (st : RxPhase) (buf : List Byte) (ticks : Nat) (s : State) :
    Except Fault (ExchangeResult × State) :=
  match fuel with
  | 0 => .error .waitUnbounded
  | fuel + 1 =>
    let (waiting, s) := rxCount s
    if 0 < waiting then
      match rxPop s with
      | .error f => .error f
      | .ok (b, s) =>
        let (st, buf) := rxStep s.cfg st buf b
        if st = .stop then .ok (classify s.cfg buf, s)
        else readRawLoop fuel st buf ticks s
    else if ticks = s.cfg.readPollLimit then .ok (noMessage s.cfg, s)
    else readRawLoop fuel st buf (ticks + 1) (pollWait s)

/-- `readRaw()` (40_receive.md R105): the state machine, its buffer and its tick count start afresh (10_state.md R36). -/
def readRaw (s : State) : Except Fault (ExchangeResult × State) :=
  readRawLoop (bytesToCome s + s.cfg.readPollLimit + 1) .idle [] 0 s

/-- What `ReadFor(a)` does with the raw result r (41_bus_ops.md R127, R128): returned, buffered or dropped. A frame whose own source
byte is `ADDR_NONE` is returned to a reader of `ADDR_NONE`, whatever its status, by R127's pseudocode and R128's first row; that this
and not the corner case of R126 decides is the model's choice (DESIGN CHOICE; log 23). -/
def sortResult (a : Byte) (r : ExchangeResult) (s : State) : ExchangeResult × State :=
  if r.src == a then (r, s)
  else if !r.status.okClass then (r, s)
  else if r.status.dataClass && regKnown r.src s then (noMessage s.cfg, pendAppend r s)
  else (noMessage s.cfg, s)

/-- `ReadFor(a)` (41_bus_ops.md R127): a buffered entry first, then backpressure (R129), then one raw read. -/
def readFor (a : Byte) (s : State) : Except Fault (ExchangeResult × State) :=
  match pendFind a s with
  | some i => .ok (pendTake i s)
  | none =>
    if pendRoom s then
      match readRaw s with
      | .error f => .error f
      | .ok (r, s) => .ok (sortResult a r s)
    else .ok (noMessage s.cfg, s)

/-! ### Writes -/

/-- The write modes (00_scope.md R2, 30_encoding.md R91). -/
inductive WriteMode where
  | fast | checked | powerOn
deriving DecidableEq, Repr

/-- The pre-write drain (41_bus_ops.md R133). -/
def drain (s : State) : Except Fault State :=
  let (waiting, s) := rxCount s
  if decide (0 < waiting) && pendRoom s then
    match readRaw s with
    | .error f => .error f
    | .ok (r, s) => .ok (if r.status.dataClass && regKnown r.src s then pendAppend r s else s)
  else .ok s

/-- The bytes a write transmits (41_bus_ops.md R135). -/
def txBytes (cfg : Config) (mode : WriteMode) (a : Byte) (cmd data : List Byte) : List Byte :=
  match mode with
  | .powerOn => wakePreamble cfg ++ frame cfg a cmd data
  | .fast => frame cfg a cmd data
  | .checked => frame cfg a cmd data

/-- `for each b in tx, in order: TxPush(b)` (41_bus_ops.md R135). -/
def pushAll (tx : List Byte) (s : State) : State :=
  match tx with
  | [] => s
  | b :: rest => pushAll rest (txPush b s)

/-- Transmission (41_bus_ops.md R135). -/
def transmit (tx : List Byte) (s : State) : State := txFlush (pushAll tx s)

/-- The loop of `EchoVerify` (41_bus_ops.md R136). `fuel` bounds the recursion (log 15). -/
def echoLoop (fuel : Nat) (tx got : List Byte) (ticks : Nat) (s : State) : Except Fault (Status × State) :=
  match fuel with
  | 0 => .error .waitUnbounded
  | fuel + 1 =>
    let (waiting, s) := rxCount s
    if decide (0 < waiting) && decide (got.length < tx.length) then
      match rxPop s with
      | .error f => .error f
      | .ok (b, s) => echoLoop fuel tx (got ++ [b]) ticks s
    else if got.length = tx.length then .ok (if got = tx then .ok else .busConflict, s)
    else if ticks = s.cfg.echoPollLimit then .ok (.hardwareFault, s)
    else echoLoop fuel tx got (ticks + 1) (pollWait s)

/-- `EchoVerify(tx)` (41_bus_ops.md R136): it reads back as many bytes as were sent, then compares. -/
def echoVerify (tx : List Byte) (s : State) : Except Fault (Status × State) :=
  echoLoop (tx.length + s.cfg.echoPollLimit + 1) tx [] 0 s

/-- The result of a write (41_bus_ops.md R137). -/
def writeResult (cfg : Config) (status : Status) (cmd : List Byte) : ExchangeResult := ⟨status, cfg.addrNone, cmd, [], 0⟩

/-- A write after its operand checks: drain, arbitration, transmission, echo verification, result (41_bus_ops.md R133 to R137). It is
also the controller's `Wr` (42_controller.md R155). -/
def busWrite (mode : WriteMode) (a : Byte) (cmd data : List Byte) (s : State) : Except Fault (ExchangeResult × State) :=
  match drain s with
  | .error f => .error f
  | .ok s =>
    let (waiting, s) := rxCount s
    if 0 < waiting then .ok (writeResult s.cfg .busBusy cmd, s)
    else
      let tx := txBytes s.cfg mode a cmd data
      let s := transmit tx s
      match mode with
      | .fast => .ok (writeResult s.cfg .ok cmd, s)
      | .checked | .powerOn =>
        match echoVerify tx s with
        | .error f => .error f
        | .ok (status, s) => .ok (writeResult s.cfg status cmd, s)

/-- A write whose result the caller ignores (42_controller.md R155). -/
def busWrite' (mode : WriteMode) (a : Byte) (cmd data : List Byte) (s : State) : Except Fault State :=
  match busWrite mode a cmd data s with
  | .error f => .error f
  | .ok (_, s) => .ok s

/-! ### The controller slots -/

/-- `C[k]`; a slot beyond the list, which no run reaches, reads as a blank one (log 22). -/
def State.ctl (s : State) (k : Nat) : Controller := s.ctrl.getD k Controller.blank

/-- `C[k] <- c` (00_scope.md R13). -/
def State.setCtl (s : State) (k : Nat) (c : Controller) : State := { s with ctrl := s.ctrl.set k c }

/-- Apply a change of one controller's fields to slot k. -/
def State.modCtl (s : State) (k : Nat) (f : Controller → Controller) : State := s.setCtl k (f (s.ctl k))

/-- The configuration of a controller's model (42_controller.md R152); a model outside `MODELS`, which no run reaches, has none of
anything (log 22). -/
def modelOf (cfg : Config) (c : Controller) : ModelConfig := cfg.models.getD c.model ⟨[], [], [], 0, [], false⟩

/-! ### The answer to the host -/

/-- The block answers the host (00_scope.md R16, R20). -/
def State.respond (s : State) (response : List Byte) : State := { s with responses := s.responses ++ [response] }

/-- The refusal: `[0x7F, reason]`, and nothing else changes (00_scope.md R16, 30_encoding.md R94, R101, 60_exceptions.md R204; log 12). -/
def refuse (reason : Reason) (s : State) : Host.Outcome State Fault Refusal :=
  .next (s.respond [0x7F, reasonCode reason])

/-- `le8(v)`: the 8 little-endian bytes of v (30_encoding.md R93). -/
def le8 (v : Nat) : List Byte := (List.range 8).map fun j => BitVec.ofNat 8 (v / 256 ^ j)

/-- XR, the encoding of an ExchangeResult (30_encoding.md R93). -/
def encodeResult (r : ExchangeResult) : List Byte :=
  [r.status.code, r.src, BitVec.ofNat 8 r.cmd.length] ++ r.cmd ++ [BitVec.ofNat 8 r.data.length] ++ r.data ++ le8 r.nv

/-- The operation answers the ExchangeResult it computed (30_encoding.md R88, R93). -/
def answerResult (res : Except Fault (ExchangeResult × State)) : Host.Outcome State Fault Refusal :=
  match res with
  | .error f => .fault f
  | .ok (r, s) => .next (s.respond (encodeResult r))

/-- The operation answers `[0x00]` (30_encoding.md R88). -/
def answerDone (s : State) : Host.Outcome State Fault Refusal := .next (s.respond [0x00])

/-- The operation answers one byte (30_encoding.md R88). -/
def answerByte (b : Byte) (s : State) : Host.Outcome State Fault Refusal := .next (s.respond [b])

end Sys2Proof.Machine
end

