-- ==== Sys2Proof/Machine/Operands.lean ====
section
/-! DEFINITION. The operand checks: for each family of operations, the refusal reason that applies, the lowest number first
(30_encoding.md R90, R101; 41_bus_ops.md R132; 42_controller.md R151, R153, R180, R182). -/

namespace Sys2Proof.Machine

/-- The first reason whose condition holds; the lists below are in the order of the reasons' numbers, so it is the lowest
(30_encoding.md R101). -/
def firstReason : List (Bool × Reason) → Option Reason
  | [] => none
  | (applies, reason) :: rest => if applies then some reason else firstReason rest

/-- `k >= MAX_CONTROLLERS` (30_encoding.md R90 (a)). -/
def indexOutOfRange (k : Byte) (s : State) : Bool := decide (s.cfg.maxControllers ≤ k.toNat)

/-- The checks of every controller operation but CTRL_CREATE (30_encoding.md R90, 42_controller.md R151). -/
def slotChecks (k : Byte) (s : State) : List (Bool × Reason) :=
  [(indexOutOfRange k s, .indexRange), (!(s.ctl k.toNat).live, .slotLive)]

/-- An address that no controller may have: ADDR_ALL, ADDR_MASTER or ADDR_NONE (42_controller.md R153, R180). -/
def isReservedAddress (cfg : Config) (a : Byte) : Bool := a == cfg.addrAll || a == cfg.addrMaster || a == cfg.addrNone

/-- The checks of an address given as a controller's (42_controller.md R153, R180). -/
def controllerAddressChecks (cfg : Config) (a : Byte) : List (Bool × Reason) :=
  [(isFraming a, .framingByte), (isReservedAddress cfg a, .reservedAddress)]

/-- The refusal of a controller operation with no further operand. -/
def slotRefusal (k : Byte) (s : State) : Option Reason := firstReason (slotChecks k s)

/-- The refusal of CTRL_CREATE (42_controller.md R153). -/
def createRefusal (k a md : Byte) (s : State) : Option Reason :=
  firstReason ([(indexOutOfRange k s, .indexRange), ((s.ctl k.toNat).live, .slotLive),
    (decide (s.cfg.models.length ≤ md.toNat), .enumRange)] ++ controllerAddressChecks s.cfg a)

/-- The refusal of SET_POWER (42_controller.md R169, 30_encoding.md R90 (c)). -/
def setPowerRefusal (k q : Byte) (s : State) : Option Reason :=
  firstReason (slotChecks k s ++ [((powerRequestOf q).isNone, .enumRange)])

/-- The refusal of SET_MODE (42_controller.md R175, 30_encoding.md R90 (c)). -/
def setModeRefusal (k m : Byte) (s : State) : Option Reason :=
  firstReason (slotChecks k s ++ [((modeOf m).isNone, .enumRange)])

/-- The refusal of SET_ADDRESS (42_controller.md R180). -/
def setAddressRefusal (k a : Byte) (s : State) : Option Reason :=
  firstReason (slotChecks k s ++ controllerAddressChecks s.cfg a)

/-- The refusal of a WRITE (41_bus_ops.md R132). -/
def writeRefusal (cfg : Config) (a : Byte) (cmd data : List Byte) : Option Reason :=
  firstReason
    [(!isCommandLength cmd.length || cmdLen cfg.compound (cmd ++ data) != cmd.length, .commandLength),
     (decide (maxData < data.length), .dataLength),
     (isFraming a || cmd.any isFraming || data.any isFraming || startsWithMarker cmd, .framingByte),
     (a == cfg.addrNone, .reservedAddress)]

/-- A date/time group g that the body would not keep apart: `CmdLen(body ++ g)` is not the body's length (30_encoding.md R101,
reason 0x06). -/
def groupMislength (cfg : Config) (body g : List Byte) : Bool := cmdLen cfg.compound (body ++ g) != body.length

/-- The refusal of PUSH_DATETIME (42_controller.md R182), the lowest reason first (30_encoding.md R101; log 13). -/
def dateTimeRefusal (k : Byte) (time date utc : List Byte) (s : State) : Option Reason :=
  firstReason (slotChecks k s ++
    [(groupMislength s.cfg s.cfg.catalog.dtUtc utc || groupMislength s.cfg s.cfg.catalog.dtTime time
        || groupMislength s.cfg s.cfg.catalog.dtDate date, .commandLength),
     (time.length != s.cfg.dtLenTime || date.length != s.cfg.dtLenDate || utc.length != s.cfg.dtLenUtc, .dataLength),
     (time.any isFraming || date.any isFraming || utc.any isFraming, .framingByte)])

/-- Carry out an operation unless its operands are refused (00_scope.md R16). -/
def unlessRefused (refusal : Option Reason) (s : State) (run : Host.Outcome State Fault Refusal) :
    Host.Outcome State Fault Refusal :=
  match refusal with
  | some reason => refuse reason s
  | none => run

end Sys2Proof.Machine
end

