-- ==== Sys2Proof/Machine/DateTime.lean ====
section
/-! DEFINITION. PUSH_DATETIME (42_controller.md R182, R183). -/

namespace Sys2Proof.Machine

/-- The three groups stored, and "sent" re-armed (42_controller.md R182). -/
def storeGroups (time date utc : List Byte) (c : Controller) : Controller :=
  { c with dtTime := time, dtDate := date, dtUtc := utc, dtSent := false }

/-- The three Checked writes, UTC offset, time, date, then "sent" (42_controller.md R182). -/
def sendGroups (k : Nat) (time date utc : List Byte) (s : State) : Except Fault State :=
  match busWrite' .checked (s.ctl k).addr s.cfg.catalog.dtUtc utc s with
  | .error f => .error f
  | .ok s =>
    match busWrite' .checked (s.ctl k).addr s.cfg.catalog.dtTime time s with
    | .error f => .error f
    | .ok s =>
      match busWrite' .checked (s.ctl k).addr s.cfg.catalog.dtDate date s with
      | .error f => .error f
      | .ok s => .ok (s.modCtl k fun c => { c with dtSent := true })

/-- PUSH_DATETIME after its checks (42_controller.md R182): it sends only where the power state is On. -/
def pushGroups (k : Nat) (time date utc : List Byte) (s : State) : Except Fault State :=
  let s := s.modCtl k (storeGroups time date utc)
  if (s.ctl k).power = .on ∧ (s.ctl k).dtSent = false then sendGroups k time date utc s else .ok s

/-- PUSH_DATETIME k, time, date, utc (42_controller.md R182). -/
def execPushDateTime (k : Byte) (time date utc : List Byte) (s : State) : Host.Outcome State Fault Refusal :=
  unlessRefused (dateTimeRefusal k time date utc s) s <|
    match pushGroups k.toNat time date utc s with
    | .error f => .fault f
    | .ok s => answerDone s

end Sys2Proof.Machine
end

