-- ==== Sys2Proof/Machine/Lifecycle.lean ====
section
/-! DEFINITION. CTRL_CREATE, CTRL_DESTROY, SET_ADDRESS and GET_ADDRESS (42_controller.md R153, R154, R180, R181). -/

namespace Sys2Proof.Machine

/-- The controller that CTRL_CREATE puts into a slot (10_state.md R55, 42_controller.md R153). -/
def createdController (a : Byte) (model : Nat) : Controller :=
  { Controller.blank with live := true, addr := a, model := model }

/-- CTRL_CREATE k, a, md (42_controller.md R153). -/
def execCtrlCreate (k a md : Byte) (s : State) : Host.Outcome State Fault Refusal :=
  unlessRefused (createRefusal k a md s) s <|
    answerDone (registerAddress a (s.setCtl k.toNat (createdController a md.toNat)))

/-- CTRL_DESTROY k (42_controller.md R154). -/
def execCtrlDestroy (k : Byte) (s : State) : Host.Outcome State Fault Refusal :=
  unlessRefused (slotRefusal k s) s <|
    answerDone ((unregisterAddress (s.ctl k.toNat).addr s).modCtl k.toNat fun c => { c with live := false })

/-- SET_ADDRESS k, a (42_controller.md R180). -/
def execSetAddress (k a : Byte) (s : State) : Host.Outcome State Fault Refusal :=
  unlessRefused (setAddressRefusal k a s) s <|
    answerDone (registerAddress a
      ((unregisterAddress (s.ctl k.toNat).addr s).modCtl k.toNat fun c => { c with addr := a }))

/-- GET_ADDRESS k (42_controller.md R181). -/
def execGetAddress (k : Byte) (s : State) : Host.Outcome State Fault Refusal :=
  unlessRefused (slotRefusal k s) s (answerByte (s.ctl k.toNat).addr s)

end Sys2Proof.Machine
end

