-- ==== Sys2Proof/Machine/ModeSelect.lean ====
section
/-! DEFINITION. GET_MODE and SET_MODE (42_controller.md R174, R175). -/

namespace Sys2Proof.Machine

/-- GET_MODE k (42_controller.md R174). -/
def execGetMode (k : Byte) (s : State) : Host.Outcome State Fault Refusal :=
  unlessRefused (slotRefusal k s) s (answerByte (modeCode (s.ctl k.toNat).mode) s)

/-- `Seq(model, mode)` (42_controller.md R152); SET_MODE asks for Voice or Data only. -/
def modeSequence (m : ModelConfig) (mode : Mode) : List Command :=
  match mode with
  | .voice => m.seqVoice
  | .data => m.seqData
  | .undefined => []

/-- What SET_MODE writes in its slot (42_controller.md R175). -/
def startSequence (cfg : Config) (mode : Mode) (c : Controller) : Controller :=
  { c with target := mode, mode := .undefined, seq := modeSequence (modelOf cfg c) mode, seqIdx := 0, nak := 0,
           ackPending := false, seqActive := true }

/-- SET_MODE k, m (42_controller.md R175). -/
def execSetMode (k m : Byte) (s : State) : Host.Outcome State Fault Refusal :=
  unlessRefused (setModeRefusal k m s) s <|
    answerDone (s.modCtl k.toNat (startSequence s.cfg ((modeOf m).getD .undefined)))

end Sys2Proof.Machine
end

