-- ==== Sys2Proof/Machine/Power.lean ====
section
/-! DEFINITION. GET_POWER and SET_POWER (42_controller.md R168 to R172). -/

namespace Sys2Proof.Machine

/-- GET_POWER k (42_controller.md R168). -/
def execGetPower (k : Byte) (s : State) : Host.Outcome State Fault Refusal :=
  unlessRefused (slotRefusal k s) s (answerByte (s.ctl k.toNat).power.code s)

/-- `Resolve(q)`: whether the request asks for On (42_controller.md R170). -/
def resolvesToOn (q : PowerRequest) (power : PowerState) : Bool :=
  match q with
  | .on => true
  | .off => false
  | .toggle => power != .on

/-- `PowerOnAct(now)` (42_controller.md R171). -/
def powerOnAct (k : Nat) (now : Time) (s : State) : Except Fault State :=
  match busWrite' .powerOn (s.ctl k).addr s.cfg.catalog.pwrOn.cmd s.cfg.catalog.pwrOn.data s with
  | .error f => .error f
  | .ok s => .ok (s.modCtl k fun c => { c with power := .offTransitioning, lastPowerOnAt := some now })

/-- `PowerOffAct()` (42_controller.md R172). -/
def powerOffAct (k : Nat) (s : State) : Except Fault State :=
  match busWrite' .checked (s.ctl k).addr s.cfg.catalog.pwrOff.cmd s.cfg.catalog.pwrOff.data s with
  | .error f => .error f
  | .ok s => .ok (s.modCtl k fun c => { c with power := .onTransitioning })

/-- What a power request does (42_controller.md R169): nothing where the state is already the one asked for. -/
def requestPower (k : Nat) (q : PowerRequest) (now : Time) (s : State) : Except Fault State :=
  if resolvesToOn q (s.ctl k).power then
    if (s.ctl k).power = .on then .ok s else powerOnAct k now s
  else
    if (s.ctl k).power = .off then .ok s else powerOffAct k s

/-- SET_POWER k, q, now (42_controller.md R169): it answers the new power state. -/
def execSetPower (k q : Byte) (now : Time) (s : State) : Host.Outcome State Fault Refusal :=
  unlessRefused (setPowerRefusal k q s) s <|
    match requestPower k.toNat ((powerRequestOf q).getD .off) now s with
    | .error f => .fault f
    | .ok s => answerByte (s.ctl k.toNat).power.code s

end Sys2Proof.Machine
end

