-- ==== Sys2Proof/Machine/Reads.lean ====
section
/-! DEFINITION. READ_RAW and READ_ADDR (40_receive.md R105, 41_bus_ops.md R126). -/

namespace Sys2Proof.Machine

/-- READ_RAW (40_receive.md R105, R125). -/
def execReadRaw (s : State) : Host.Outcome State Fault Refusal := answerResult (readRaw s)

/-- READ_ADDR a (41_bus_ops.md R126). -/
def execReadAddr (a : Byte) (s : State) : Host.Outcome State Fault Refusal := answerResult (readFor a s)

end Sys2Proof.Machine
end

