-- ==== Sys2Proof/Machine/Registry.lean ====
section
/-! DEFINITION. REG_ADDR, UNREG_ADDR and IS_KNOWN (41_bus_ops.md R143, R145, R148). -/

namespace Sys2Proof.Machine

/-- REG_ADDR a (41_bus_ops.md R143). -/
def execRegAddr (a : Byte) (s : State) : Host.Outcome State Fault Refusal := answerDone (registerAddress a s)

/-- UNREG_ADDR a (41_bus_ops.md R145). -/
def execUnregAddr (a : Byte) (s : State) : Host.Outcome State Fault Refusal := answerDone (unregisterAddress a s)

/-- IS_KNOWN a (41_bus_ops.md R148). -/
def execIsKnown (a : Byte) (s : State) : Host.Outcome State Fault Refusal :=
  answerByte (if regKnown a s then 0x01 else 0x00) s

end Sys2Proof.Machine
end

