-- ==== Sys2Proof/Machine/Telemetry.lean ====
section
/-! DEFINITION. GET_FREQ, GET_MODULATION and GET_RXFILTER (42_controller.md R177 to R179). -/

namespace Sys2Proof.Machine

/-- GET_FREQ k (42_controller.md R177): 8 bytes, little-endian (30_encoding.md R89). -/
def execGetFreq (k : Byte) (s : State) : Host.Outcome State Fault Refusal :=
  unlessRefused (slotRefusal k s) s (.next (s.respond (le8 (s.ctl k.toNat).freq)))

/-- GET_MODULATION k (42_controller.md R178). -/
def execGetModulation (k : Byte) (s : State) : Host.Outcome State Fault Refusal :=
  unlessRefused (slotRefusal k s) s (answerByte (s.ctl k.toNat).modulation.code s)

/-- GET_RXFILTER k (42_controller.md R179). -/
def execGetRxFilter (k : Byte) (s : State) : Host.Outcome State Fault Refusal :=
  unlessRefused (slotRefusal k s) s (answerByte (filterCode (s.ctl k.toNat).filter) s)

end Sys2Proof.Machine
end

