-- ==== Sys2Proof/Machine/Tick.lean ====
section
/-! DEFINITION. TICK (42_controller.md R156 to R167, R185): each step of the tick is a definition of its own, called in
the order of R156. -/

namespace Sys2Proof.Machine

/-- FirstTick (42_controller.md R157). -/
def firstTick (now : Time) (c : Controller) : Controller :=
  match c.lastPowerOnAt with
  | none => { c with lastPowerOnAt := some now }
  | some _ => c

/-- The entry of a table, as a list of key and value pairs, for a byte; the first entry of a key counts (log 26). -/
def tableLookup {α : Type} (table : List (Byte × α)) (b : Byte) : Option α := (table.find? fun e => e.1 == b).map Prod.snd

/-- `ModDecode(b)` (42_controller.md R162). -/
def modDecode (m : ModelConfig) (b : Byte) : Modulation :=
  if b == 0x17#8 && m.dvRemap then .dv
  else
    match tableLookup m.modTable b with
    | some name => .linear b name
    | none => .undefined

/-- `FilDecode(b)` (42_controller.md R162). -/
def filDecode (cfg : Config) (b : Byte) : RxFilter := (tableLookup cfg.filterTable b).getD .undefined

/-- The frequency part of Telemetry (42_controller.md R162). -/
def freqTelemetry (cfg : Config) (r : ExchangeResult) (c : Controller) : Controller :=
  if r.cmd == cfg.catalog.freqReport || r.cmd == cfg.catalog.freqQuery then { c with freq := r.nv } else c

/-- The modulation and filter part of Telemetry (42_controller.md R162). -/
def modeTelemetry (cfg : Config) (r : ExchangeResult) (c : Controller) : Controller :=
  if r.cmd == cfg.catalog.modeReport || r.cmd == cfg.catalog.modeQuery then
    match r.data with
    | [] => c
    | [b0] => { c with modulation := modDecode (modelOf cfg c) b0 }
    | b0 :: b1 :: _ => { c with modulation := modDecode (modelOf cfg c) b0, filter := filDecode cfg b1 }
  else c

/-- Telemetry (42_controller.md R162). -/
def telemetry (cfg : Config) (r : ExchangeResult) (c : Controller) : Controller :=
  if r.status.dataClass then modeTelemetry cfg r (freqTelemetry cfg r c) else c

/-- Ack (42_controller.md R159). -/
def ackStep (r : ExchangeResult) (c : Controller) : Controller :=
  if c.ackPending && r.status.endsAckWait then { c with ackPending := false } else c

/-- NAK count (42_controller.md R160). -/
def nakStep (r : ExchangeResult) (c : Controller) : Controller :=
  if c.seqActive && r.status == .notOk then { c with nak := saturatingInc c.nak } else c

/-- `ACK_TIMEOUT_MS` is set and has passed since the command was sent (42_controller.md R185). -/
def ackTimedOut (cfg : Config) (now : Time) (c : Controller) : Bool :=
  match cfg.ackTimeoutMs with
  | none => false
  | some d => atLeast now c.ackSentAt d

/-- Ack timeout (42_controller.md R185). -/
def ackTimeoutStep (cfg : Config) (now : Time) (c : Controller) : Controller :=
  if c.seqActive && c.ackPending && ackTimedOut cfg now c then
    { c with ackPending := false, nak := saturatingInc c.nak }
  else c

/-- AckAndNak: R159, R160, then R185 (42_controller.md R156). -/
def ackAndNak (cfg : Config) (now : Time) (r : ExchangeResult) (c : Controller) : Controller :=
  ackTimeoutStep cfg now (nakStep r (ackStep r c))

/-- The read is an identity reply (42_controller.md R161). -/
def isIdentityReply (cfg : Config) (r : ExchangeResult) (c : Controller) : Bool :=
  r.status.dataClass && r.cmd == (modelOf cfg c).idQuery

/-- Still within the boot-time window since the last power-on command (42_controller.md R164). FirstTick has set
`lastPowerOnAt` before this is asked (R157). -/
def inBootWindow (cfg : Config) (now : Time) (c : Controller) : Bool :=
  match c.lastPowerOnAt with
  | none => false
  | some t => stillWithin now t (modelOf cfg c).bootWindow

/-- Identity: the reply (42_controller.md R161), else the NAK (R163), else the timeout (R164). -/
def identityStep (cfg : Config) (now : Time) (r : ExchangeResult) (c : Controller) : Controller :=
  if isIdentityReply cfg r c then { c with idInFlight := false, power := .on }
  else if c.idInFlight && r.status == .notOk then { c with idInFlight := false, power := .off }
  else if c.idInFlight && atLeast now c.idSentAt cfg.idWaitMs then
    { c with idInFlight := false, power := if inBootWindow cfg now c then .offTransitioning else .off }
  else c

/-- Whether the identity reply asks for the follow-up read: it changes the power state to On (42_controller.md R161). -/
def wantsFollowUp (cfg : Config) (r : ExchangeResult) (c : Controller) : Bool :=
  isIdentityReply cfg r c && c.power != .on

/-- SequenceStep (42_controller.md R165). -/
def sequenceStep (k : Nat) (now : Time) (s : State) : Except Fault State :=
  let c := s.ctl k
  if c.seqActive then
    if c.nak != 0#8 then
      .ok (s.modCtl k fun c => { c with seqActive := false, mode := .undefined, ackPending := false })
    else if c.ackPending then .ok s
    else
      match c.seq[c.seqIdx]? with
      | some command =>
        match busWrite' .fast c.addr command.cmd command.data s with
        | .error f => .error f
        | .ok s => .ok (s.modCtl k fun c => { c with seqIdx := c.seqIdx + 1, ackPending := true, ackSentAt := now })
      | none =>
        .ok (s.modCtl k fun c =>
          { c with seqActive := false, mode := c.target, verifyPending := true, verifyFrom := now })
  else .ok s

/-- The follow-up read of frequency and modulation mode (42_controller.md R166). -/
def followUpQueries (k : Nat) (followUp : Bool) (s : State) : Except Fault State :=
  if followUp then
    match busWrite' .fast (s.ctl k).addr s.cfg.catalog.freqQuery [] s with
    | .error f => .error f
    | .ok s => busWrite' .fast (s.ctl k).addr s.cfg.catalog.modeQuery [] s
  else .ok s

/-- The verification re-query (42_controller.md R166). -/
def verifyQuery (k : Nat) (now : Time) (s : State) : Except Fault State :=
  let c := s.ctl k
  if c.verifyPending && atLeast now c.verifyFrom s.cfg.verifyDelayMs then
    match busWrite' .fast c.addr s.cfg.catalog.modeQuery [] s with
    | .error f => .error f
    | .ok s => .ok (s.modCtl k fun c => { c with verifyPending := false })
  else .ok s

/-- Whether an identity query is due (42_controller.md R167). -/
def pollDue (cfg : Config) (now : Time) (c : Controller) : Bool :=
  !c.seqActive && !c.idInFlight && (!c.polled || atLeast now c.lastPollAt cfg.idIntervalMs)

/-- IdentityPoll (42_controller.md R167). -/
def identityPoll (k : Nat) (now : Time) (s : State) : Except Fault State :=
  let c := s.ctl k
  if pollDue s.cfg now c then
    match busWrite' .fast c.addr (modelOf s.cfg c).idQuery [] s with
    | .error f => .error f
    | .ok s =>
      .ok (s.modCtl k fun c => { c with idInFlight := true, idSentAt := now, polled := true, lastPollAt := now })
  else .ok s

/-- What the tick does with the result of its one read, before it writes: Telemetry, AckAndNak, Identity (42_controller.md R156). -/
def digest (cfg : Config) (now : Time) (r : ExchangeResult) (c : Controller) : Controller :=
  identityStep cfg now r (ackAndNak cfg now r (telemetry cfg r c))

/-- Whether this tick sends the follow-up queries: the power state that Identity finds decides it, and neither Telemetry nor
AckAndNak writes it (42_controller.md R156, R161). -/
def digestFollowUp (cfg : Config) (now : Time) (r : ExchangeResult) (c : Controller) : Bool :=
  wantsFollowUp cfg r (ackAndNak cfg now r (telemetry cfg r c))

/-- The writes of a tick, in the order of R156: SequenceStep, FollowUps, IdentityPoll. -/
def tickWrites (k : Nat) (now : Time) (followUp : Bool) (s : State) : Except Fault State :=
  match sequenceStep k now s with
  | .error f => .error f
  | .ok s =>
    match followUpQueries k followUp s with
    | .error f => .error f
    | .ok s =>
      match verifyQuery k now s with
      | .error f => .error f
      | .ok s => identityPoll k now s

/-- `tick(k, now)` (42_controller.md R156): it answers the read's result. -/
def tickSlot (k : Nat) (now : Time) (s : State) : Except Fault (ExchangeResult × State) :=
  let s := s.modCtl k (firstTick now)
  match readFor (s.ctl k).addr s with
  | .error f => .error f
  | .ok (r, s) =>
    match tickWrites k now (digestFollowUp s.cfg now r (s.ctl k)) (s.modCtl k (digest s.cfg now r)) with
    | .error f => .error f
    | .ok s => .ok (r, s)

/-- TICK k, now (42_controller.md R156). -/
def execTick (k : Byte) (now : Time) (s : State) : Host.Outcome State Fault Refusal :=
  unlessRefused (slotRefusal k s) s (answerResult (tickSlot k.toNat now s))

end Sys2Proof.Machine
end

