-- ==== Sys2Proof/Machine/Writes.lean ====
section
/-! DEFINITION. WRITE_FAST, WRITE_CHECKED and WRITE_POWERON (41_bus_ops.md R138 to R140). -/

namespace Sys2Proof.Machine

/-- A host write: the operand checks, then the write in the given mode (41_bus_ops.md R132 to R137, R141). -/
def hostWrite (mode : WriteMode) (a : Byte) (cmd data : List Byte) (s : State) : Host.Outcome State Fault Refusal :=
  unlessRefused (writeRefusal s.cfg a cmd data) s (answerResult (busWrite mode a cmd data s))

/-- WRITE_FAST (41_bus_ops.md R138). -/
def execWriteFast (a : Byte) (cmd data : List Byte) (s : State) : Host.Outcome State Fault Refusal :=
  hostWrite .fast a cmd data s

/-- WRITE_CHECKED (41_bus_ops.md R139). -/
def execWriteChecked (a : Byte) (cmd data : List Byte) (s : State) : Host.Outcome State Fault Refusal :=
  hostWrite .checked a cmd data s

/-- WRITE_POWERON (41_bus_ops.md R140). -/
def execWritePowerOn (a : Byte) (cmd data : List Byte) (s : State) : Host.Outcome State Fault Refusal :=
  hostWrite .powerOn a cmd data s

end Sys2Proof.Machine
end

