-- ==== Sys2Proof/Machine/Dispatch.lean ====
section
/-! DEFINITION. The dispatch of a host operation to its meaning, one arm per constructor of Instr. -/

namespace Sys2Proof.Machine

def exec (i : Instr) (s : State) : Host.Outcome State Fault Refusal :=
  match i with
  | .readRaw => Sys2Proof.Machine.execReadRaw s
  | .readAddr a => Sys2Proof.Machine.execReadAddr a s
  | .writeFast a cmd data => Sys2Proof.Machine.execWriteFast a cmd data s
  | .writeChecked a cmd data => Sys2Proof.Machine.execWriteChecked a cmd data s
  | .writePowerOn a cmd data => Sys2Proof.Machine.execWritePowerOn a cmd data s
  | .regAddr a => Sys2Proof.Machine.execRegAddr a s
  | .unregAddr a => Sys2Proof.Machine.execUnregAddr a s
  | .isKnown a => Sys2Proof.Machine.execIsKnown a s
  | .ctrlCreate k a md => Sys2Proof.Machine.execCtrlCreate k a md s
  | .ctrlDestroy k => Sys2Proof.Machine.execCtrlDestroy k s
  | .tick k now => Sys2Proof.Machine.execTick k now s
  | .getPower k => Sys2Proof.Machine.execGetPower k s
  | .setPower k q now => Sys2Proof.Machine.execSetPower k q now s
  | .getMode k => Sys2Proof.Machine.execGetMode k s
  | .setMode k m => Sys2Proof.Machine.execSetMode k m s
  | .getFreq k => Sys2Proof.Machine.execGetFreq k s
  | .getModulation k => Sys2Proof.Machine.execGetModulation k s
  | .getRxFilter k => Sys2Proof.Machine.execGetRxFilter k s
  | .setAddress k a => Sys2Proof.Machine.execSetAddress k a s
  | .getAddress k => Sys2Proof.Machine.execGetAddress k s
  | .pushDateTime k time date utc => Sys2Proof.Machine.execPushDateTime k time date utc s

end Sys2Proof.Machine
end

