-- ==== Sys2Proof/Machine/ConfigRules.lean ====
section
/-! DEFINITION. The conditions a configuration must meet (00_scope.md R10, 30_encoding.md R97), one check for each clause. -/

namespace Sys2Proof.Machine

/-- 00_scope.md R10 (a): the reserved addresses are distinct and none is START or STOP. -/
def addressesOk (cfg : Config) : Bool :=
  cfg.addrAll != cfg.addrMaster && cfg.addrAll != cfg.addrNone && cfg.addrMaster != cfg.addrNone
    && !isFraming cfg.addrAll && !isFraming cfg.addrMaster && !isFraming cfg.addrNone

/-- Every command body the catalog holds (30_encoding.md R98). -/
def catalogBodies (cfg : Config) : List (List Byte) :=
  [cfg.catalog.freqQuery, cfg.catalog.modeQuery, cfg.catalog.freqReport, cfg.catalog.modeReport,
   cfg.catalog.pwrOn.cmd, cfg.catalog.pwrOff.cmd, cfg.catalog.dtUtc, cfg.catalog.dtTime, cfg.catalog.dtDate]
  ++ cfg.models.flatMap fun m => m.idQuery :: (m.seqVoice ++ m.seqData).map Command.cmd

/-- Every data field the catalog holds (30_encoding.md R98). -/
def catalogData (cfg : Config) : List (List Byte) :=
  [cfg.catalog.pwrOn.data, cfg.catalog.pwrOff.data]
  ++ cfg.models.flatMap fun m => (m.seqVoice ++ m.seqData).map Command.data

/-- 00_scope.md R10 (b), for one command body. -/
def bodyOk (compound : List Byte) (body : List Byte) : Bool :=
  isCommandLength body.length && !body.any isFraming && !startsWithMarker body && cmdLen compound body == body.length

/-- 00_scope.md R10 (c), for one data field. -/
def dataOk (data : List Byte) : Bool := decide (data.length ≤ maxData) && !data.any isFraming

/-- 00_scope.md R10 (d): capacities and limits are at least 1. -/
def capacitiesOk (cfg : Config) : Bool :=
  decide (1 ≤ cfg.pendingCap) && decide (1 ≤ cfg.registryCap) && decide (1 ≤ cfg.maxControllers)
    && decide (1 ≤ cfg.readPollLimit) && decide (1 ≤ cfg.echoPollLimit)

/-- 00_scope.md R10 (e): the date/time lengths are at most 9. -/
def dateTimeLengthsOk (cfg : Config) : Bool :=
  decide (cfg.dtLenUtc ≤ maxData) && decide (cfg.dtLenTime ≤ maxData) && decide (cfg.dtLenDate ≤ maxData)

/-- 30_encoding.md R97: 0x17 and 0xFF lie outside the key set of every model's modulation table. -/
def modKeysOk (cfg : Config) : Bool :=
  cfg.models.all fun m => m.modTable.all fun e => e.1 != 0x17#8 && e.1 != 0xFF#8

/-- The configuration is well formed (00_scope.md R10 with the addition of 30_encoding.md R97). -/
def configOk (cfg : Config) : Bool :=
  addressesOk cfg && (catalogBodies cfg).all (bodyOk cfg.compound) && (catalogData cfg).all dataOk
    && capacitiesOk cfg && dateTimeLengthsOk cfg && modKeysOk cfg

end Sys2Proof.Machine
end

