-- ==== Sys2Proof/WellFormed.lean ====
section
/-! DEFINITION. Which instructions the host encoding can carry, and which configurations the model accepts. The checks that
the block makes on operands are no part of it: they answer a refusal (30_encoding.md R101; Machine/Operands.lean). -/

namespace Sys2Proof

/-- A byte list that follows its own one-byte length (30_encoding.md R87). -/
def fitsLengthByte (l : List Byte) : Bool := decide (l.length < 256)

/-- The instruction has an encoding: every length-prefixed list fits its length byte (30_encoding.md R87, R88). -/
def Instr.wellFormed : Instr → Bool
  | .writeFast _ cmd data => fitsLengthByte cmd && fitsLengthByte data
  | .writeChecked _ cmd data => fitsLengthByte cmd && fitsLengthByte data
  | .writePowerOn _ cmd data => fitsLengthByte cmd && fitsLengthByte data
  | .pushDateTime _ time date utc => fitsLengthByte time && fitsLengthByte date && fitsLengthByte utc
  | .readRaw => true
  | .readAddr _ => true
  | .regAddr _ => true
  | .unregAddr _ => true
  | .isKnown _ => true
  | .ctrlCreate _ _ _ => true
  | .ctrlDestroy _ => true
  | .tick _ _ => true
  | .getPower _ => true
  | .setPower _ _ _ => true
  | .getMode _ => true
  | .setMode _ _ => true
  | .getFreq _ => true
  | .getModulation _ => true
  | .getRxFilter _ => true
  | .setAddress _ _ => true
  | .getAddress _ => true

/-- The configuration meets 00_scope.md R10 and 30_encoding.md R97. -/
def Config.wellFormed (cfg : Config) : Bool := Machine.configOk cfg

end Sys2Proof
end

