-- ==== Sys2Proof/Decode.lean ====
section
/-! DEFINITION. The host request encoding (30_encoding.md sections 5 and 6): a decoder, total on any bytes, that rejects by
the reason of 30_encoding.md R101, and after it the encoder. -/

namespace Sys2Proof

/-- The host opcode map (30_encoding.md R88), one row per opcode. -/
def opcodeTable : List (Byte × Opcode) :=
  [(0x01, .readRaw), (0x02, .readAddr), (0x10, .writeFast), (0x11, .writeChecked), (0x12, .writePowerOn),
   (0x20, .regAddr), (0x21, .unregAddr), (0x22, .isKnown),
   (0x40, .ctrlCreate), (0x41, .ctrlDestroy), (0x42, .tick), (0x43, .getPower), (0x44, .setPower), (0x45, .getMode),
   (0x46, .setMode), (0x47, .getFreq), (0x48, .getModulation), (0x49, .getRxFilter), (0x4A, .setAddress),
   (0x4B, .getAddress), (0x4C, .pushDateTime)]

/-- The opcode a byte stands for; `none` for a reserved byte (30_encoding.md R88, R91). -/
def Opcode.ofByte (b : Byte) : Option Opcode := (opcodeTable.find? fun e => e.1 == b).map Prod.snd

/-- The byte of an opcode (30_encoding.md R88). -/
def Opcode.toByte : Opcode → Byte
  | .readRaw => 0x01
  | .readAddr => 0x02
  | .writeFast => 0x10
  | .writeChecked => 0x11
  | .writePowerOn => 0x12
  | .regAddr => 0x20
  | .unregAddr => 0x21
  | .isKnown => 0x22
  | .ctrlCreate => 0x40
  | .ctrlDestroy => 0x41
  | .tick => 0x42
  | .getPower => 0x43
  | .setPower => 0x44
  | .getMode => 0x45
  | .setMode => 0x46
  | .getFreq => 0x47
  | .getModulation => 0x48
  | .getRxFilter => 0x49
  | .setAddress => 0x4A
  | .getAddress => 0x4B
  | .pushDateTime => 0x4C

/-- The opcode of an instruction. -/
def Instr.opcode : Instr → Opcode
  | .readRaw => .readRaw
  | .readAddr _ => .readAddr
  | .writeFast _ _ _ => .writeFast
  | .writeChecked _ _ _ => .writeChecked
  | .writePowerOn _ _ _ => .writePowerOn
  | .regAddr _ => .regAddr
  | .unregAddr _ => .unregAddr
  | .isKnown _ => .isKnown
  | .ctrlCreate _ _ _ => .ctrlCreate
  | .ctrlDestroy _ => .ctrlDestroy
  | .tick _ _ => .tick
  | .getPower _ => .getPower
  | .setPower _ _ _ => .setPower
  | .getMode _ => .getMode
  | .setMode _ _ => .setMode
  | .getFreq _ => .getFreq
  | .getModulation _ => .getModulation
  | .getRxFilter _ => .getRxFilter
  | .setAddress _ _ => .setAddress
  | .getAddress _ => .getAddress
  | .pushDateTime _ _ _ _ => .pushDateTime

/-- `now` from its four bytes, the first byte holding bits 7:0 (30_encoding.md R89). -/
def timeOfBytes (b0 b1 b2 b3 : Byte) : Time :=
  BitVec.ofNat 32 (b0.toNat + 256 * b1.toNat + 65536 * b2.toNat + 16777216 * b3.toNat)

/-- The four bytes of `now`, little-endian (30_encoding.md R89). -/
def timeToBytes (t : Time) : List Byte :=
  [BitVec.ofNat 8 t.toNat, BitVec.ofNat 8 (t.toNat / 256), BitVec.ofNat 8 (t.toNat / 65536),
   BitVec.ofNat 8 (t.toNat / 16777216)]

/-- A length byte, that many bytes, and the rest; `none` where the bytes run out (30_encoding.md R87). -/
def takeField : List Byte → Option (List Byte × List Byte)
  | [] => none
  | n :: rest => if n.toNat ≤ rest.length then some (rest.take n.toNat, rest.drop n.toNat) else none

/-- The operands of a WRITE: a, cl, cmd, dl, data, and nothing after them (30_encoding.md R88). -/
def writeOperands (bs : List Byte) : Option (Byte × List Byte × List Byte) :=
  match bs with
  | [] => none
  | a :: rest =>
    match takeField rest with
    | none => none
    | some (cmd, rest) =>
      match takeField rest with
      | some (data, []) => some (a, cmd, data)
      | _ => none

/-- The operands of PUSH_DATETIME: k, tl, time, dl, date, ul, utc, and nothing after them (30_encoding.md R88). -/
def dateTimeOperands (bs : List Byte) : Option (Byte × List Byte × List Byte × List Byte) :=
  match bs with
  | [] => none
  | k :: rest =>
    match takeField rest with
    | none => none
    | some (time, rest) =>
      match takeField rest with
      | none => none
      | some (date, rest) =>
        match takeField rest with
        | some (utc, []) => some (k, time, date, utc)
        | _ => none

/-- The instruction that an opcode and exactly its operand bytes make; `none` where the length is another
(30_encoding.md R87, R88, R92). -/
def decodeOperands (op : Opcode) (bs : List Byte) : Option Instr :=
  match op, bs with
  | .readRaw, [] => some .readRaw
  | .readAddr, [a] => some (.readAddr a)
  | .writeFast, bs => (writeOperands bs).map fun (a, cmd, data) => .writeFast a cmd data
  | .writeChecked, bs => (writeOperands bs).map fun (a, cmd, data) => .writeChecked a cmd data
  | .writePowerOn, bs => (writeOperands bs).map fun (a, cmd, data) => .writePowerOn a cmd data
  | .regAddr, [a] => some (.regAddr a)
  | .unregAddr, [a] => some (.unregAddr a)
  | .isKnown, [a] => some (.isKnown a)
  | .ctrlCreate, [k, a, md] => some (.ctrlCreate k a md)
  | .ctrlDestroy, [k] => some (.ctrlDestroy k)
  | .tick, [k, b0, b1, b2, b3] => some (.tick k (timeOfBytes b0 b1 b2 b3))
  | .getPower, [k] => some (.getPower k)
  | .setPower, [k, q, b0, b1, b2, b3] => some (.setPower k q (timeOfBytes b0 b1 b2 b3))
  | .getMode, [k] => some (.getMode k)
  | .setMode, [k, m] => some (.setMode k m)
  | .getFreq, [k] => some (.getFreq k)
  | .getModulation, [k] => some (.getModulation k)
  | .getRxFilter, [k] => some (.getRxFilter k)
  | .setAddress, [k, a] => some (.setAddress k a)
  | .getAddress, [k] => some (.getAddress k)
  | .pushDateTime, bs => (dateTimeOperands bs).map fun (k, time, date, utc) => .pushDateTime k time date utc
  | _, _ => none

/-- Decode a host request (30_encoding.md R87, R88). A reserved byte 0 is rejected with reason 0x01, any other request
whose length is not the one its opcode and length bytes give with reason 0x02 (R101); so is a request of length 0 (log 11). -/
def decode (bs : List Byte) : Except Reason Instr :=
  match bs with
  | [] => .error .wrongLength
  | b :: rest =>
    match Opcode.ofByte b with
    | none => .error .reservedOpcode
    | some op =>
      match decodeOperands op rest with
      | none => .error .wrongLength
      | some i => .ok i

/-- A list after its length byte (30_encoding.md R87). -/
def lengthPrefixed (l : List Byte) : List Byte := BitVec.ofNat 8 l.length :: l

/-- The operand bytes of an instruction (30_encoding.md R88). -/
def encodeOperands : Instr → List Byte
  | .readRaw => []
  | .readAddr a => [a]
  | .writeFast a cmd data => a :: (lengthPrefixed cmd ++ lengthPrefixed data)
  | .writeChecked a cmd data => a :: (lengthPrefixed cmd ++ lengthPrefixed data)
  | .writePowerOn a cmd data => a :: (lengthPrefixed cmd ++ lengthPrefixed data)
  | .regAddr a => [a]
  | .unregAddr a => [a]
  | .isKnown a => [a]
  | .ctrlCreate k a md => [k, a, md]
  | .ctrlDestroy k => [k]
  | .tick k now => k :: timeToBytes now
  | .getPower k => [k]
  | .setPower k q now => k :: q :: timeToBytes now
  | .getMode k => [k]
  | .setMode k m => [k, m]
  | .getFreq k => [k]
  | .getModulation k => [k]
  | .getRxFilter k => [k]
  | .setAddress k a => [k, a]
  | .getAddress k => [k]
  | .pushDateTime k time date utc => k :: (lengthPrefixed time ++ lengthPrefixed date ++ lengthPrefixed utc)

/-- The request of a well-formed instruction (30_encoding.md R88). -/
def encode (i : Instr) : List Byte := i.opcode.toByte :: encodeOperands i

/-- Byte n of a request whose bytes after the listed ones are 0. -/
def byteAt (bs : List Byte) (n : Nat) : Byte := bs.getD n 0

/-- The length that a request's opcode and length bytes give (30_encoding.md R92), 1 for a reserved opcode. -/
def requestLength (bs : List Byte) : Nat :=
  match Opcode.ofByte (byteAt bs 0) with
  | none => 1
  | some .readRaw => 1
  | some .writeFast | some .writeChecked | some .writePowerOn =>
    let cl := (byteAt bs 2).toNat
    4 + cl + (byteAt bs (3 + cl)).toNat
  | some .setMode | some .setAddress => 3
  | some .ctrlCreate => 4
  | some .tick => 6
  | some .setPower => 7
  | some .pushDateTime =>
    let tl := (byteAt bs 2).toNat
    let dl := (byteAt bs (3 + tl)).toNat
    5 + tl + dl + (byteAt bs (4 + tl + dl)).toNat
  | some .readAddr | some .regAddr | some .unregAddr | some .isKnown | some .ctrlDestroy | some .getPower
  | some .getMode | some .getFreq | some .getModulation | some .getRxFilter | some .getAddress => 2

/-- The request whose bits are w, bit 0 the least significant bit of byte 0, in nbits bits: the bytes above nbits are 0, up to
the length the request's own opcode and length bytes give (log 18). -/
def requestOfWord (nbits w : Nat) : List Byte :=
  let given := (List.range ((nbits + 7) / 8)).map fun j => BitVec.ofNat 8 (w / 2 ^ (8 * j))
  (List.range (max given.length (requestLength given))).map (byteAt given)

/-- The instruction the decoder reads from the request whose bits are w (log 18). -/
def decodeTableWord (nbits w : Nat) : Option Instr :=
  match decode (requestOfWord nbits w) with
  | .ok i => some i
  | .error _ => none

/-- READ_FOR_ADDRESS a, an alias of READ_ADDR a (30_encoding.md R100). -/
abbrev Instr.readForAddress (a : Byte) : Instr := .readAddr a

/-- POWER_ON k, now, an alias of SET_POWER k, ON, now (30_encoding.md R100). -/
abbrev Instr.powerOn (k : Byte) (now : Time) : Instr := .setPower k 0 now

/-- POWER_OFF k, now, an alias of SET_POWER k, OFF, now (30_encoding.md R100). -/
abbrev Instr.powerOff (k : Byte) (now : Time) : Instr := .setPower k 1 now

/-- TOGGLE k, now, an alias of SET_POWER k, TOGGLE, now (30_encoding.md R100). -/
abbrev Instr.toggle (k : Byte) (now : Time) : Instr := .setPower k 2 now

end Sys2Proof
end

