-- ==== Sys2Proof/Machine/HostQueue.lean ====
section
/-! DEFINITION. Taking the host's next request (00_scope.md R7; 30_encoding.md R87; log 10). -/

namespace Sys2Proof.Machine

/-- The host's next request taken off the queue; `none` where the host asks for nothing. -/
def takeRequest (s : State) : Option (List Byte × State) :=
  match s.requests with
  | [] => none
  | request :: rest => some (request, { s with requests := rest })

/-- A request placed so that it is the next one taken. -/
def placeRequest (request : List Byte) (s : State) : State := { s with requests := request :: s.requests }

end Sys2Proof.Machine
end

