-- ==== Sys2Proof/Machine/Step.lean ====
section
/-! DEFINITION. One step of the machine: the block takes the host's next request and answers it. -/

namespace Sys2Proof.Machine

/-- One step. A configuration that fails 00_scope.md R10 is refused (log 16). With no request waiting the block does nothing
(log 10). A request the decoder rejects is answered by the refusal of 30_encoding.md R101; any other is carried out. -/
def step (s : State) : Host.Outcome State Fault Refusal :=
  if s.cfg.wellFormed then
    match takeRequest s with
    | none => .next s
    | some (request, s) =>
      match decode request with
      | .error reason => refuse reason s
      | .ok i => exec i s
  else .refused .illFormedConfig

/-- The state with the request whose bits are w as the host's next request (log 18). -/
def State.withFetchWord (s : State) (nbits w : Nat) : State := placeRequest (requestOfWord nbits w) s

end Sys2Proof.Machine
end

