-- ==== Sys2Proof/Safety.lean ====
section
/-! DEFINITION. The terms in which statements about the machine are made: the bus premises of 92 D43, the bytes the bus brings, the frame of an
operation, the state invariant, and a run of ticks. -/

namespace Sys2Proof.Machine

/-! ### The bus -/

/-- Every byte that waits in `RX` or is still to arrive, in order (10_state.md R53). -/
def stream (s : State) : List Byte := s.rx ++ s.arrivals.flatten

/-- No byte comes from any other party: every chunk still to arrive is empty. -/
abbrev NothingArrives (s : State) : Prop := s.arrivals.flatten = []

/-- `QuietBus` (92 D43): no byte arrives at all, not even an echo. -/
abbrev QuietBus (s : State) : Prop := NothingArrives s ∧ s.loopback = false

/-- The line echoes at once and brings nothing else: every byte transmitted is in `RX` before the next primitive (log 6). -/
abbrev EchoesAtOnce (s : State) : Prop := NothingArrives s ∧ s.loopback = true

/-- The bytes that arrive at the next n primitive boundaries. -/
def arrivingWithin (n : Nat) (s : State) : List Byte := (s.arrivals.take n).flatten

/-- `HealthyEcho` (92 D43) of a write that transmits `sent` and starts with the state s: every byte transmitted is appended to `RX` in
order, and nothing else arrives before all of them are back, which they are within n primitive boundaries. The echo is at once, or it is
as late as the bus likes: of the bytes pushed from the third boundary on, none comes back before it was pushed. What arrives behind the
echo is left open, so the premise is weaker than D43's. -/
def HealthyEcho (sent : List Byte) (n : Nat) (s : State) : Prop :=
  (s.loopback = true ∧ arrivingWithin (sent.length + 3) s = [])
  ∨ (s.loopback = false ∧ arrivingWithin n s = sent ∧ ∀ m ≤ n, (arrivingWithin m s).length ≤ m - 3)

/-- Where the bus stood at the start of an operation from s to t, at each of its PollWait calls, and at its end: how many bytes were
still to arrive (log 24). -/
def arrivalMarks (s t : State) : List Nat := toArrive s :: t.waits.drop s.waits.length ++ [toArrive t]

/-- `BoundedArrival` (00_scope.md R21, 92 D43) of an operation from s to t, with `ARRIVAL_BOUND` = bound: at most that many bytes arrive
before its first PollWait call, between two consecutive ones, and after the last (the last of these: log 7). It counts the bytes of
`arrivals` only: that an echo at once (`loopback`) is none of the bytes the environment adds is the model's choice (DESIGN CHOICE; log 25),
so an operation whose only bytes are such an echo meets it with bound 0. A late echo is part of `arrivals` and counts. -/
abbrev BoundedArrival (bound : Nat) (s t : State) : Prop := (arrivalMarks s t).IsChain fun before after => before ≤ after + bound

/-- The receive state machine fed a byte sequence from a state and a buffer (40_receive.md R105, R106). -/
def fsmFrom (cfg : Config) (start : RxPhase × List Byte) (bytes : List Byte) : RxPhase × List Byte :=
  bytes.foldl (fun sb b => rxStep cfg sb.1 sb.2 b) start

/-- The receive state machine fed a byte sequence from Idle with an empty buffer (40_receive.md R105). -/
def fsmRun (cfg : Config) (bytes : List Byte) : RxPhase × List Byte := fsmFrom cfg (.idle, []) bytes

/-- The bytes of a transmission as they stand in the transmit log: each byte, then the flush (41_bus_ops.md R135, 10_state.md R52). -/
def transmission (bytes : List Byte) : List TxEvent := bytes.map TxEvent.byte ++ [.flush]

/-! ### Frames -/

/-- Nothing but `RX`, the bytes still to arrive and the record of poll ticks differs. -/
structure OnlyBusMoved (s t : State) : Prop where
  cfg : t.cfg = s.cfg
  reg : t.reg = s.reg
  pend : t.pend = s.pend
  ctrl : t.ctrl = s.ctrl
  tx : t.tx = s.tx
  loopback : t.loopback = s.loopback
  requests : t.requests = s.requests
  responses : t.responses = s.responses

/-- The configuration, the registry, the controllers, the echo of the line and the host's requests and responses are the same: what no
read or write of the engine touches. -/
structure OnlyEngineMoved (s t : State) : Prop where
  cfg : t.cfg = s.cfg
  reg : t.reg = s.reg
  ctrl : t.ctrl = s.ctrl
  loopback : t.loopback = s.loopback
  requests : t.requests = s.requests
  responses : t.responses = s.responses

/-- As `OnlyEngineMoved`, but controller slot k may differ: what no operation of slot k other than its lifecycle and address touches
(20_memory.md R72). -/
structure OnlySlotMoved (k : Nat) (s t : State) : Prop where
  cfg : t.cfg = s.cfg
  reg : t.reg = s.reg
  slots : t.ctrl.length = s.ctrl.length
  others : ∀ j, j ≠ k → t.ctl j = s.ctl j
  loopback : t.loopback = s.loopback
  requests : t.requests = s.requests
  responses : t.responses = s.responses

/-- The fields of a controller that no tick writes: live, addr, model and the date/time fields (42_controller.md R156). -/
structure TickKeeps (c d : Controller) : Prop where
  live : d.live = c.live
  addr : d.addr = c.addr
  model : d.model = c.model
  dtUtc : d.dtUtc = c.dtUtc
  dtTime : d.dtTime = c.dtTime
  dtDate : d.dtDate = c.dtDate
  dtSent : d.dtSent = c.dtSent

/-! ### The invariant -/

/-- The invariants of an ExchangeResult that the receive path produces (10_state.md R24, R25; 40_receive.md R120). -/
abbrev ResultOk (cfg : Config) (r : ExchangeResult) : Prop :=
  r.data.length ≤ maxData ∧ r.nv < 2 ^ 34
    ∧ (r.cmd.length = 0 ∨ isCommandLength r.cmd.length = true)
    ∧ (r.status = .okWithData →
        r.data ≠ [] ∧ isCommandLength r.cmd.length = true ∧ cmdLen cfg.compound (r.cmd ++ r.data) = r.cmd.length)
    ∧ (r.status = .notOk ∨ r.status = .noMessage → r.data = [] ∧ r.nv = 0)

/-- The pending buffer (10_state.md R35): within its capacity, every entry a data-class result. -/
abbrev PendOk (s : State) : Prop :=
  s.pend.length ≤ s.cfg.pendingCap ∧ ∀ r ∈ s.pend, r.status = .okWithData ∧ ResultOk s.cfg r

/-- The registry (10_state.md R34): as many slots as `REGISTRY_CAP`, no address other than `ADDR_NONE` in two of them. -/
abbrev RegOk (s : State) : Prop :=
  s.reg.length = s.cfg.registryCap ∧ (s.reg.filter (· != s.cfg.addrNone)).Nodup

/-- A live controller between two operations: its address is one a controller may have (42_controller.md R153, R180), its model is a
member of `MODELS` (10_state.md R38), its cursor lies in the sequence (R45), its frequency fits 34 bits (40_receive.md R120), an ack wait
belongs to a running sequence (R46), a query in flight has been sent and has a boot window to be compared with (R43, R44), and a running
sequence has its mode Undefined, a target, and no NAK (42_controller.md R160, R174, R175). -/
abbrev ControllerOk (cfg : Config) (c : Controller) : Prop :=
  isFraming c.addr = false ∧ isReservedAddress cfg c.addr = false ∧ c.model < cfg.models.length
    ∧ c.seqIdx ≤ c.seq.length ∧ c.freq < 2 ^ 34 ∧ (c.ackPending = true → c.seqActive = true)
    ∧ (c.idInFlight = true → c.polled = true ∧ c.lastPowerOnAt ≠ none)
    ∧ (c.seqActive = true → c.mode = .undefined ∧ c.target ≠ .undefined ∧ c.nak = 0)

/-- The controller slots (10_state.md R37, R38): `MAX_CONTROLLERS` of them, every live one as above. -/
abbrev CtrlOk (s : State) : Prop :=
  s.ctrl.length = s.cfg.maxControllers ∧ ∀ c ∈ s.ctrl, c.live = true → ControllerOk s.cfg c

/-- The invariant of the machine between two host operations. -/
abbrev Inv (s : State) : Prop := RegOk s ∧ PendOk s ∧ CtrlOk s

/-! ### What a tick does to its slot, and what it sends -/

/-- The slot after SequenceStep (42_controller.md R165): abort, wait, next command sent, or commit. -/
def sequenceAfter (now : Time) (c : Controller) : Controller :=
  if c.seqActive = true then
    if c.nak ≠ 0 then { c with seqActive := false, mode := .undefined, ackPending := false }
    else if c.ackPending = true then c
    else if c.seqIdx < c.seq.length then { c with seqIdx := c.seqIdx + 1, ackPending := true, ackSentAt := now }
    else { c with seqActive := false, mode := c.target, verifyPending := true, verifyFrom := now }
  else c

/-- The sequence command that SequenceStep sends, if any (42_controller.md R165). -/
def sequenceCommand (c : Controller) : List Command :=
  if c.seqActive = true ∧ c.nak = 0 ∧ c.ackPending = false then (c.seq[c.seqIdx]?).toList else []

/-- The verification re-query is due (42_controller.md R166). -/
def verifyDue (cfg : Config) (now : Time) (c : Controller) : Bool :=
  c.verifyPending && atLeast now c.verifyFrom cfg.verifyDelayMs

/-- The slot after the verification re-query (42_controller.md R166). -/
def verifyAfter (cfg : Config) (now : Time) (c : Controller) : Controller :=
  if verifyDue cfg now c = true then { c with verifyPending := false } else c

/-- The slot after IdentityPoll (42_controller.md R167). -/
def pollAfter (cfg : Config) (now : Time) (c : Controller) : Controller :=
  if pollDue cfg now c = true then { c with idInFlight := true, idSentAt := now, polled := true, lastPollAt := now } else c

/-- The slot after a tick that reads r (42_controller.md R156). -/
def slotAfterTick (cfg : Config) (now : Time) (r : ExchangeResult) (c : Controller) : Controller :=
  pollAfter cfg now (verifyAfter cfg now (sequenceAfter now (digest cfg now r (firstTick now c))))

/-- A query: a command body with no data (30_encoding.md R98). -/
def query (body : List Byte) : Command := ⟨body, []⟩

/-- The commands a tick that reads r has to send, in the order of 42_controller.md R156: the sequence command, the two follow-up
queries, the verification re-query, the identity query. -/
def tickCommands (cfg : Config) (now : Time) (r : ExchangeResult) (c : Controller) : List Command :=
  let c₁ := digest cfg now r (firstTick now c)
  let c₂ := sequenceAfter now c₁
  sequenceCommand c₁
    ++ (if digestFollowUp cfg now r (firstTick now c) = true then
          [query cfg.catalog.freqQuery, query cfg.catalog.modeQuery] else [])
    ++ (if verifyDue cfg now c₂ = true then [query cfg.catalog.modeQuery] else [])
    ++ (if pollDue cfg now (verifyAfter cfg now c₂) = true then [query (modelOf cfg c).idQuery] else [])

/-- Every pair of a command body and a data field that a controller sends from the catalog (30_encoding.md R98; 42_controller.md R165 to
R167, R171, R172). -/
def catalogPairs (cfg : Config) : List Command :=
  [cfg.catalog.pwrOn, cfg.catalog.pwrOff, query cfg.catalog.freqQuery, query cfg.catalog.modeQuery]
  ++ cfg.models.flatMap fun m => query m.idQuery :: m.seqVoice ++ m.seqData

/-- The transmit log of frames sent one after the other to address a (41_bus_ops.md R135). -/
def sentTo (cfg : Config) (a : Byte) (commands : List Command) : List TxEvent :=
  commands.flatMap fun c => transmission (frame cfg a c.cmd c.data)

/-! ### Operations -/

/-- The controller slot an operation names (30_encoding.md R88). -/
def slotOf : Instr → Option Nat
  | .readRaw => none
  | .readAddr _ => none
  | .writeFast _ _ _ => none
  | .writeChecked _ _ _ => none
  | .writePowerOn _ _ _ => none
  | .regAddr _ => none
  | .unregAddr _ => none
  | .isKnown _ => none
  | .ctrlCreate k _ _ => some k.toNat
  | .ctrlDestroy k => some k.toNat
  | .tick k _ => some k.toNat
  | .getPower k => some k.toNat
  | .setPower k _ _ => some k.toNat
  | .getMode k => some k.toNat
  | .setMode k _ => some k.toNat
  | .getFreq k => some k.toNat
  | .getModulation k => some k.toNat
  | .getRxFilter k => some k.toNat
  | .setAddress k _ => some k.toNat
  | .getAddress k => some k.toNat
  | .pushDateTime k _ _ _ => some k.toNat

/-- The write operation of a mode (30_encoding.md R91). -/
def writeOp (mode : WriteMode) (a : Byte) (cmd data : List Byte) : Instr :=
  match mode with
  | .fast => .writeFast a cmd data
  | .checked => .writeChecked a cmd data
  | .powerOn => .writePowerOn a cmd data

/-- The operands of a write pass its checks: a wire-valid pair, and a destination that is neither a framing byte nor `ADDR_NONE`
(41_bus_ops.md R132). -/
abbrev WriteAccepted (cfg : Config) (a : Byte) (cmd data : List Byte) : Prop :=
  wireValid cfg.compound cmd data = true ∧ isFraming a = false ∧ a ≠ cfg.addrNone

/-- A controller operation's slot is in range and live (30_encoding.md R90). -/
abbrev SlotLive (k : Byte) (s : State) : Prop := k.toNat < s.cfg.maxControllers ∧ (s.ctl k.toNat).live = true

/-- The groups of a date/time push pass its checks (42_controller.md R182). -/
abbrev GroupsAccepted (cfg : Config) (time date utc : List Byte) : Prop :=
  groupMislength cfg cfg.catalog.dtUtc utc = false ∧ groupMislength cfg cfg.catalog.dtTime time = false
    ∧ groupMislength cfg cfg.catalog.dtDate date = false
    ∧ time.length = cfg.dtLenTime ∧ date.length = cfg.dtLenDate ∧ utc.length = cfg.dtLenUtc
    ∧ time.any isFraming = false ∧ date.any isFraming = false ∧ utc.any isFraming = false

/-- The worst-case poll ticks of an operation (70_reset_and_hazards.md R230, R245); a Fast write has no echo readback. -/
def pollBudget (cfg : Config) : Instr → Nat
  | .readRaw => cfg.readPollLimit
  | .readAddr _ => cfg.readPollLimit
  | .writeFast _ _ _ => cfg.readPollLimit
  | .writeChecked _ _ _ => cfg.readPollLimit + cfg.echoPollLimit
  | .writePowerOn _ _ _ => cfg.readPollLimit + cfg.echoPollLimit
  | .setPower _ _ _ => cfg.readPollLimit + cfg.echoPollLimit
  | .pushDateTime _ _ _ _ => 3 * (cfg.readPollLimit + cfg.echoPollLimit)
  | .tick _ _ => cfg.readPollLimit + 5 * cfg.readPollLimit
  | .regAddr _ => 0
  | .unregAddr _ => 0
  | .isKnown _ => 0
  | .ctrlCreate _ _ _ => 0
  | .ctrlDestroy _ => 0
  | .getPower _ => 0
  | .getMode _ => 0
  | .setMode _ _ => 0
  | .getFreq _ => 0
  | .getModulation _ => 0
  | .getRxFilter _ => 0
  | .setAddress _ _ => 0
  | .getAddress _ => 0

/-! ### Runs -/

/-- A run of ticks of slot k at the given times; `none` where one of them does not answer a next state. -/
def tickRun (k : Byte) (times : List Time) (s : State) : Option State :=
  match times with
  | [] => some s
  | now :: rest =>
    match exec (.tick k now) s with
    | .next t => tickRun k rest t
    | .fault _ => none
    | .refused _ => none

end Sys2Proof.Machine
end

