-- ==== Sys2Proof/Certificates/Slice0/Obligations.lean ====
section
/-! DEFINITION. The statements about the machine, each a proposition, in the order of OBLIGATIONS.json. -/

open Sys2Proof Sys2Proof.Machine

/-! ### The host encoding -/

/-- Decoding the encoding of a well-formed instruction gives the instruction back (30_encoding.md R87, R88, R89, R92). -/
def Obligations.DecodeEncodeRoundTrip : Prop :=
  ∀ i : Instr, i.wellFormed = true → decode (encode i) = .ok i

/-- A request the decoder accepts is the encoding of the well-formed instruction it decodes to: each instruction has one encoding
(30_encoding.md R87, R88). -/
def Obligations.EncodeDecodeRoundTrip : Prop :=
  ∀ (bs : List Byte) (i : Instr), decode bs = .ok i → i.wellFormed = true ∧ encode i = bs

/-- A request with an opcode of the map is accepted exactly if its length is the one its opcode and its own length bytes give, and is
rejected with reason 0x02 otherwise (30_encoding.md R87, R92, R101). -/
def Obligations.RequestLengthDecides : Prop :=
  ∀ (b : Byte) (rest : List Byte) (op : Opcode), Opcode.ofByte b = some op →
    ((b :: rest).length = requestLength (b :: rest) → ∃ i, decode (b :: rest) = .ok i ∧ i.opcode = op)
    ∧ ((b :: rest).length ≠ requestLength (b :: rest) → decode (b :: rest) = .error .wrongLength)

/-- The instruction lengths (30_encoding.md R92). -/
def Obligations.InstructionLengths : Prop :=
  ∀ i : Instr, (encode i).length =
    match i with
    | .readRaw => 1
    | .readAddr _ | .regAddr _ | .unregAddr _ | .isKnown _ | .ctrlDestroy _ | .getPower _ | .getMode _ | .getFreq _
    | .getModulation _ | .getRxFilter _ | .getAddress _ => 2
    | .setMode _ _ | .setAddress _ _ => 3
    | .ctrlCreate _ _ _ => 4
    | .tick _ _ => 6
    | .setPower _ _ _ => 7
    | .writeFast _ cmd data | .writeChecked _ cmd data | .writePowerOn _ cmd data => 4 + cmd.length + data.length
    | .pushDateTime _ time date utc => 5 + time.length + date.length + utc.length

/-- The three WRITE opcodes differ only in bits 1:0, which give the mode; 0x13 is reserved and refused (30_encoding.md R91). -/
def Obligations.WriteOpcodes : Prop :=
  (∀ mode a cmd data, (encode (writeOp mode a cmd data)).head?
      = some (match mode with | .fast => 0x10#8 ||| 0#8 | .checked => 0x10#8 ||| 1#8 | .powerOn => 0x10#8 ||| 2#8))
  ∧ ∀ (s : State) (operands : List Byte) (later : List (List Byte)), s.cfg.wellFormed = true →
      s.requests = (0x13#8 :: operands) :: later →
      step s = .next ({ s with requests := later }.respond [0x7F, 0x01])

/-- Requests written out from the map of 30_encoding.md R88 decode to the operations they stand for; the `now` operand is
little-endian (R89). -/
def Obligations.WrittenRequestsDecode : Prop :=
  decode [0x01] = .ok .readRaw
  ∧ decode [0x02, 0x94] = .ok (.readAddr 0x94)
  ∧ decode [0x11, 0x94, 0x02, 0x19, 0x00, 0x00] = .ok (.writeChecked 0x94 [0x19, 0x00] [])
  ∧ decode [0x10, 0x94, 0x01, 0x05, 0x02, 0xAA, 0xBB] = .ok (.writeFast 0x94 [0x05] [0xAA, 0xBB])
  ∧ decode [0x20, 0x94] = .ok (.regAddr 0x94)
  ∧ decode [0x40, 0x00, 0x94, 0x00] = .ok (.ctrlCreate 0x00 0x94 0x00)
  ∧ decode [0x42, 0x03, 0x01, 0x02, 0x00, 0x80] = .ok (.tick 0x03 (BitVec.ofNat 32 (1 + 256 * 2 + 16777216 * 128)))
  ∧ decode [0x44, 0x01, 0x02, 0xE8, 0x03, 0x00, 0x00] = .ok (.setPower 0x01 0x02 1000#32)
  ∧ decode [0x46, 0x01, 0x00] = .ok (.setMode 0x01 0x00)
  ∧ decode [0x4C, 0x00, 0x01, 0x12, 0x00, 0x02, 0x34, 0x56] = .ok (.pushDateTime 0x00 [0x12] [] [0x34, 0x56])

/-! ### The step -/

/-- When the host's next request decodes to an instruction, one step takes the request off the queue and is the instruction's `exec`. The
spec says only that the host issues one operation at a time and the block carries it out (00_scope.md R7): the queue of requests, and that
one step takes one of them, is the model's choice (log 10). -/
def Obligations.StepRunsDecodedRequest : Prop :=
  ∀ (s : State) (request : List Byte) (later : List (List Byte)) (i : Instr), s.cfg.wellFormed = true →
    s.requests = request :: later → decode request = .ok i → step s = exec i { s with requests := later }

/-- A request that does not decode is answered by a refusal with reason 0x01 or 0x02 and nothing else changes but the queue
(30_encoding.md R101, 60_exceptions.md R204). Three points are the model's choice: that a request of no bytes is refused with 0x02
(log 11), that requests wait in a queue, and that a step with no request waiting changes nothing (log 10). -/
def Obligations.StepAnswersUndecodable : Prop :=
  (∀ (s : State) (request : List Byte) (later : List (List Byte)) (reason : Reason), s.cfg.wellFormed = true →
    s.requests = request :: later → decode request = .error reason →
    (reason = .reservedOpcode ∧ step s = .next ({ s with requests := later }.respond [0x7F, 0x01]))
    ∨ (reason = .wrongLength ∧ step s = .next ({ s with requests := later }.respond [0x7F, 0x02])))
  ∧ ∀ s : State, s.cfg.wellFormed = true → s.requests = [] → step s = .next s

/-- A configuration that fails one of the conditions of 00_scope.md R10, or the key rule that 30_encoding.md R97 adds to them, is
refused, and no other is. -/
def Obligations.ConfigurationCheck : Prop :=
  ∀ s : State, step s = .refused .illFormedConfig ↔ ¬ (
    (s.cfg.addrAll ≠ s.cfg.addrMaster ∧ s.cfg.addrAll ≠ s.cfg.addrNone ∧ s.cfg.addrMaster ≠ s.cfg.addrNone
      ∧ ∀ a ∈ [s.cfg.addrAll, s.cfg.addrMaster, s.cfg.addrNone], a ≠ 0xFE#8 ∧ a ≠ 0xFD#8)
    ∧ (∀ body ∈ catalogBodies s.cfg, (body.length = 1 ∨ body.length = 2 ∨ body.length = 4)
        ∧ (∀ b ∈ body, b ≠ 0xFE#8 ∧ b ≠ 0xFD#8) ∧ body.head? ≠ some 0xFB#8 ∧ body.head? ≠ some 0xFA#8
        ∧ body.length = cmdLen s.cfg.compound body)
    ∧ (∀ data ∈ catalogData s.cfg, data.length ≤ 9 ∧ ∀ b ∈ data, b ≠ 0xFE#8 ∧ b ≠ 0xFD#8)
    ∧ (1 ≤ s.cfg.pendingCap ∧ 1 ≤ s.cfg.registryCap ∧ 1 ≤ s.cfg.maxControllers ∧ 1 ≤ s.cfg.readPollLimit
        ∧ 1 ≤ s.cfg.echoPollLimit)
    ∧ (s.cfg.dtLenUtc ≤ 9 ∧ s.cfg.dtLenTime ≤ 9 ∧ s.cfg.dtLenDate ≤ 9)
    ∧ ∀ m ∈ s.cfg.models, ∀ e ∈ m.modTable, e.1 ≠ 0x17#8 ∧ e.1 ≠ 0xFF#8)

/-- The codes of the statuses (30_encoding.md R95), with 6 the largest, of the power states and the power requests (R96). -/
def Obligations.EnumerationCodes : Prop :=
  (Status.code .ok = 0x00 ∧ Status.code .okWithData = 0x01 ∧ Status.code .notOk = 0x02 ∧ Status.code .noMessage = 0x03
    ∧ Status.code .busBusy = 0x04 ∧ Status.code .busConflict = 0x05 ∧ Status.code .hardwareFault = 0x06
    ∧ ∀ status : Status, status.code ≤ 6)
  ∧ (PowerState.code .off = 0 ∧ PowerState.code .offTransitioning = 1 ∧ PowerState.code .on = 2
    ∧ PowerState.code .onTransitioning = 3 ∧ PowerState.code .unknown = 4)
  ∧ (∀ q : Byte, powerRequestOf q = some .on ↔ q = 0) ∧ (∀ q : Byte, powerRequestOf q = some .off ↔ q = 1)
  ∧ ∀ q : Byte, powerRequestOf q = some .toggle ↔ q = 2

/-- The encoding of a result, its length, and the 8 little-endian bytes of a number (30_encoding.md R93). The length is that of the
formula and of the test vectors (95_test_vectors.md: 12 bytes for `NOMSG`); R93's own sentence on it says one less (log 21). -/
def Obligations.ResultEncoding : Prop :=
  (∀ r : ExchangeResult, encodeResult r =
      [r.status.code, r.src, BitVec.ofNat 8 r.cmd.length] ++ r.cmd ++ [BitVec.ofNat 8 r.data.length] ++ r.data ++ le8 r.nv)
  ∧ (∀ r : ExchangeResult, (encodeResult r).length = 12 + r.cmd.length + r.data.length)
  ∧ ∀ v : Nat, v < 2 ^ 64 → (le8 v).length = 8 ∧ (le8 v).foldr (fun b rest => b.toNat + 256 * rest) 0 = v

/-- The length of an encoded result as R93's sentence has it, 11 and the lengths of command and data. This fails: the formula of the same
rule has one byte more (30_encoding.md R93; log 21). -/
def Obligations.ResultLengthAsStated : Prop :=
  ∀ r : ExchangeResult, (encodeResult r).length = 11 + r.cmd.length + r.data.length

/-! ### Receiving -/

/-- The receive state machine's transitions (40_receive.md R107, R108, R109, R110). -/
def Obligations.ReceiveMachine : Prop :=
  ∀ (cfg : Config) (buf : List Byte) (b : Byte),
    rxStep cfg .idle buf b = (if b = 0xFE#8 then (.sync, [b]) else (.idle, []))
    ∧ rxStep cfg .sync buf b = (if b = 0xFE#8 then (.collect, buf ++ [b]) else (.idle, []))
    ∧ rxStep cfg .collect buf b =
      (if b = 0xFE#8 then (.idle, [])
       else if buf.length = 2 ∧ b ≠ cfg.addrAll ∧ b ≠ cfg.addrMaster then (.idle, [])
       else if b = 0xFD#8 then (.stop, buf ++ [b])
       else if buf.length = 17 then (.idle, [])
       else (.collect, buf ++ [b]))

/-- Fed any byte sequence with no START byte, the receive state machine is in Idle with an empty buffer after every byte
(40_receive.md R123). -/
def Obligations.ReceiveStaysIdle : Prop :=
  ∀ (cfg : Config) (bytes soFar : List Byte), 0xFE#8 ∉ bytes → soFar <+: bytes → fsmRun cfg soFar = (.idle, [])

/-- The classification of a frame (40_receive.md R111 to R116): a frame without a source byte or a body gives `NOMSG`; otherwise the
markers first, then the split into command and data, with a truncated command or too long a data field dropped. -/
def Obligations.FrameClassification : Prop :=
  (∀ (cfg : Config) (buf : List Byte), buf.length < 6 → classify cfg buf = ⟨.noMessage, cfg.addrNone, [], [], 0⟩)
  ∧ ∀ (cfg : Config) (dst src b0 : Byte) (rest : List Byte),
    let body := b0 :: rest
    let c := cmdLen cfg.compound body
    classify cfg ([0xFE, 0xFE, dst, src] ++ body ++ [0xFD]) =
      if b0 = 0xFA#8 then ⟨.notOk, src, [], [], 0⟩
      else if b0 = 0xFB#8 then ⟨.ok, src, [], [], 0⟩
      else if body.length < c then ⟨.noMessage, cfg.addrNone, [], [], 0⟩
      else if 9 < body.length - c then ⟨.noMessage, cfg.addrNone, [], [], 0⟩
      else if body.length = c then ⟨.ok, src, body.take c, [], 0⟩
      else ⟨.okWithData, src, body.take c, body.drop c, numVal cfg.numericMode (body.drop c)⟩

/-- The numeric decode of a data field by its length (40_receive.md R117), the two packed-decimal layouts (R118, R119), and the
arithmetic of the two numeric modes with its bound (R120). -/
def Obligations.NumericDecode : Prop :=
  (∀ (mode : NumericMode) (b : Byte), numVal mode [b] = fit mode b.toNat)
  ∧ (∀ (mode : NumericMode) (d0 d1 : Byte), numVal mode [d0, d1] =
      fit mode (d1.toNat % 16 * 10 ^ 0 + d1.toNat / 16 * 10 ^ 1 + d0.toNat % 16 * 10 ^ 2 + d0.toNat / 16 * 10 ^ 3))
  ∧ (∀ (mode : NumericMode) (d0 d1 d2 d3 d4 : Byte), numVal mode [d0, d1, d2, d3, d4] =
      fit mode (d0.toNat % 16 * 10 ^ 0 + d0.toNat / 16 * 10 ^ 1 + d1.toNat % 16 * 10 ^ 2 + d1.toNat / 16 * 10 ^ 3
        + d2.toNat % 16 * 10 ^ 4 + d2.toNat / 16 * 10 ^ 5 + d3.toNat % 16 * 10 ^ 6 + d3.toNat / 16 * 10 ^ 7
        + d4.toNat % 16 * 10 ^ 8 + d4.toNat / 16 * 10 ^ 9))
  ∧ (∀ (mode : NumericMode) (d : List Byte), d.length ≠ 1 → d.length ≠ 2 → d.length ≠ 5 → numVal mode d = fit mode 0)
  ∧ (∀ v : Nat, fit .exact v = v ∧ fit .wrap32 v = v % 2 ^ 32)
  ∧ ∀ (mode : NumericMode) (d : List Byte), numVal mode d < 2 ^ 34

/-- The packed-decimal decode is the inverse of the packed-decimal encode, in both layouts (40_receive.md R122). -/
def Obligations.BcdDecodeInvertsEncode : Prop :=
  (∀ v : Nat, v ≤ 9999 →
    bcdEncode2 v = [BitVec.ofNat 8 (v / 1000 % 10 * 16 + v / 100 % 10), BitVec.ofNat 8 (v / 10 % 10 * 16 + v % 10)]
    ∧ numVal .exact (bcdEncode2 v) = v)
  ∧ ∀ v : Nat, v ≤ 9999999999 →
    bcdEncode5 v = ([0, 2, 4, 6, 8].map fun i => BitVec.ofNat 8 (v / 10 ^ (i + 1) % 10 * 16 + v / 10 ^ i % 10))
    ∧ numVal .exact (bcdEncode5 v) = v

/-- The command length (30_encoding.md R82): the 4-byte test comes first, then the compound test. It depends on the first byte alone,
and on the second where the first is 0x1A; so 0x1A with data that begins with 0x05 is not wire-valid (R85). -/
def Obligations.CommandLength : Prop :=
  (∀ (compound : List Byte) (b0 : Byte) (rest : List Byte),
    cmdLen compound (b0 :: rest) =
      if b0 = 0x1A#8 ∧ rest.head? = some 0x05#8 then 4 else if b0 ∈ compound then 2 else 1)
  ∧ (∀ (compound : List Byte) (b0 : Byte) (rest rest' : List Byte), b0 ≠ 0x1A#8 →
      cmdLen compound (b0 :: rest) = cmdLen compound (b0 :: rest'))
  ∧ (∀ (compound : List Byte) (rest rest' : List Byte), rest.head? = rest'.head? →
      cmdLen compound (0x1A#8 :: rest) = cmdLen compound (0x1A#8 :: rest'))
  ∧ ∀ (compound rest : List Byte), wireValid compound [0x1A] (0x05 :: rest) = false

/-- The wire round trip (30_encoding.md R84): the frame of a wire-valid pair that waits in `RX`, to one of the two accepted
destinations and from any source other than START and STOP, is received by READ_RAW with its source, command and data. READ_RAW takes
no poll tick for it, leaves what stands behind it, and touches nothing but the bus. -/
def Obligations.WireRoundTrip : Prop :=
  ∀ (s : State) (dst src : Byte) (cmd data behind : List Byte), s.cfg.wellFormed = true →
    (cmd.length = 1 ∨ cmd.length = 2 ∨ cmd.length = 4) → cmdLen s.cfg.compound (cmd ++ data) = cmd.length →
    cmd.head? ≠ some 0xFB#8 → cmd.head? ≠ some 0xFA#8 → data.length ≤ 9 → 0xFE#8 ∉ cmd ++ data → 0xFD#8 ∉ cmd ++ data →
    dst = s.cfg.addrAll ∨ dst = s.cfg.addrMaster → src ≠ 0xFE#8 → src ≠ 0xFD#8 →
    s.rx = [0xFE, 0xFE, dst, src] ++ cmd ++ data ++ [0xFD] ++ behind →
    ∃ (r : ExchangeResult) (t : State), exec .readRaw s = .next (t.respond (encodeResult r))
      ∧ r.src = src ∧ r.cmd = cmd ∧ r.data = data
      ∧ r.status = (if data = [] then .ok else .okWithData)
      ∧ r.nv = (if data = [] then 0 else numVal s.cfg.numericMode data)
      ∧ OnlyBusMoved s t ∧ t.polls = s.polls ∧ stream t = behind ++ s.arrivals.flatten

/-- READ_RAW runs the receive state machine from Idle over the bytes that come (40_receive.md R105, R106, R125; 00_scope.md R21). It
consumes a first part p of them. Either p's last byte is the first to reach Stop and the answer is the frame's classification; or no
byte of p reaches Stop, `RX` is empty, exactly `READ_POLL_LIMIT` poll ticks have passed, and the answer is `NOMSG`. It touches nothing
but the bus. That it ends from every state rests on the model's choice that the bus brings finitely many bytes (log 7), where R21 has the
premise `BoundedArrival`. -/
def Obligations.ReadRawRunsTheMachine : Prop :=
  ∀ s : State, ∃ (r : ExchangeResult) (t : State) (p : List Byte), exec .readRaw s = .next (t.respond (encodeResult r))
    ∧ OnlyBusMoved s t ∧ stream s = p ++ stream t ∧ s.polls ≤ t.polls ∧ t.polls ≤ s.polls + s.cfg.readPollLimit
    ∧ ((∃ q b, p = q ++ [b] ∧ (∀ q', q' <+: q → (fsmRun s.cfg q').1 ≠ .stop) ∧ (fsmRun s.cfg p).1 = .stop
          ∧ r = classify s.cfg (fsmRun s.cfg p).2)
      ∨ ((∀ q', q' <+: p → (fsmRun s.cfg q').1 ≠ .stop) ∧ r = ⟨.noMessage, s.cfg.addrNone, [], [], 0⟩
          ∧ t.rx = [] ∧ t.polls = s.polls + s.cfg.readPollLimit))

/-! ### The address-directed read -/

/-- READ_ADDR for an address with a buffered entry answers the oldest such entry without touching the transport, and removes exactly
that entry, the others keeping their order (41_bus_ops.md R130). -/
def Obligations.BufferedRead : Prop :=
  ∀ (s : State) (a : Byte) (before after : List ExchangeResult) (e : ExchangeResult),
    s.pend = before ++ e :: after → (∀ x ∈ before, x.src ≠ a) → e.src = a →
    exec (.readAddr a) s = .next ({ s with pend := before ++ after }.respond (encodeResult e))

/-- Backpressure (41_bus_ops.md R129): with the pending buffer full and no entry of the address in it, READ_ADDR answers `NOMSG` and
touches neither the transport nor anything else. -/
def Obligations.ReadBackpressure : Prop :=
  ∀ (s : State) (a : Byte), s.pend.length = s.cfg.pendingCap → (∀ x ∈ s.pend, x.src ≠ a) →
    exec (.readAddr a) s = .next (s.respond (encodeResult ⟨.noMessage, s.cfg.addrNone, [], [], 0⟩))

/-- What READ_ADDR does with the result of its raw read, case by case (41_bus_ops.md R127, R128). For a reader of `ADDR_NONE` a frame whose
own source byte is `ADDR_NONE` falls under the first case: that R128 decides here, and not the corner case of R126, is the model's choice
(log 23). -/
def Obligations.ReadSortsByAddress : Prop :=
  ∀ (s : State) (a : Byte), s.pend.length < s.cfg.pendingCap → (∀ x ∈ s.pend, x.src ≠ a) →
    ∃ (r : ExchangeResult) (t : State), readRaw s = .ok (r, t) ∧ OnlyBusMoved s t
      ∧ (r.src = a ∨ (r.status ≠ .ok ∧ r.status ≠ .okWithData) →
          exec (.readAddr a) s = .next (t.respond (encodeResult r)))
      ∧ (r.src ≠ a → r.status = .ok →
          exec (.readAddr a) s = .next (t.respond (encodeResult ⟨.noMessage, s.cfg.addrNone, [], [], 0⟩)))
      ∧ (r.src ≠ a → r.status = .okWithData → regKnown r.src s = true →
          exec (.readAddr a) s =
            .next ({ t with pend := s.pend ++ [r] }.respond (encodeResult ⟨.noMessage, s.cfg.addrNone, [], [], 0⟩)))
      ∧ (r.src ≠ a → r.status = .okWithData → regKnown r.src s = false →
          exec (.readAddr a) s = .next (t.respond (encodeResult ⟨.noMessage, s.cfg.addrNone, [], [], 0⟩)))

/-! ### Writes -/

/-- The operand checks of a write, the lowest reason first; a refused write changes nothing (41_bus_ops.md R132). Together they admit
exactly the wire-valid pairs, with a destination that is neither a framing byte nor the sentinel. -/
def Obligations.WriteRefusals : Prop :=
  ∀ (mode : WriteMode) (a : Byte) (cmd data : List Byte) (s : State),
    let lengthBad := ¬ (cmd.length = 1 ∨ cmd.length = 2 ∨ cmd.length = 4) ∨ cmdLen s.cfg.compound (cmd ++ data) ≠ cmd.length
    let dataBad := 9 < data.length
    let framingBad := (∃ b ∈ a :: (cmd ++ data), b = 0xFE#8 ∨ b = 0xFD#8) ∨ cmd.head? = some 0xFB#8 ∨ cmd.head? = some 0xFA#8
    (lengthBad → exec (writeOp mode a cmd data) s = .next (s.respond [0x7F, 0x06]))
    ∧ (¬ lengthBad → dataBad → exec (writeOp mode a cmd data) s = .next (s.respond [0x7F, 0x07]))
    ∧ (¬ lengthBad → ¬ dataBad → framingBad → exec (writeOp mode a cmd data) s = .next (s.respond [0x7F, 0x08]))
    ∧ (¬ lengthBad → ¬ dataBad → ¬ framingBad → a = s.cfg.addrNone →
        exec (writeOp mode a cmd data) s = .next (s.respond [0x7F, 0x09]))
    ∧ (¬ lengthBad ∧ ¬ dataBad ∧ ¬ framingBad ∧ a ≠ s.cfg.addrNone ↔ WriteAccepted s.cfg a cmd data)

/-- Every write that is not refused answers its status, the sentinel, the command and no data (41_bus_ops.md R137). Either the status is
BUS_BUSY and nothing was transmitted, or the bytes of R135 were transmitted, once, and flushed; a Fast write then answers OK, and a
Checked or PowerOn write OK, BUS_CONFLICT or HARDWARE_FAULT. It changes only the bus, the transmit log, and the pending buffer, to which
the drain may append one data-class result from a known address (R133). -/
def Obligations.WriteResults : Prop :=
  ∀ (mode : WriteMode) (a : Byte) (cmd data : List Byte) (s : State), WriteAccepted s.cfg a cmd data →
    ∃ (status : Status) (t : State), exec (writeOp mode a cmd data) s = .next (t.respond (encodeResult ⟨status, s.cfg.addrNone, cmd, [], 0⟩))
      ∧ OnlyEngineMoved s t
      ∧ (t.pend = s.pend ∨ ∃ r, t.pend = s.pend ++ [r] ∧ s.pend.length < s.cfg.pendingCap ∧ r.status = .okWithData
          ∧ regKnown r.src s = true)
      ∧ ((status = .busBusy ∧ t.tx = s.tx)
        ∨ ((status = .ok ∨ (mode ≠ .fast ∧ (status = .busConflict ∨ status = .hardwareFault)))
          ∧ t.tx = s.tx ++ transmission ((if mode = .powerOn then List.replicate s.cfg.wakePreambleLen 0xFE#8 else [])
              ++ ([0xFE, 0xFE, a, s.cfg.addrMaster] ++ cmd ++ data ++ [0xFD]))))

/-- A write that finds unread bytes at the arbitration check answers BUS_BUSY and transmits nothing; so does every write with bytes
waiting while the pending buffer is full, because the drain then does not run (41_bus_ops.md R142). -/
def Obligations.WriteBusBusy : Prop :=
  ∀ (mode : WriteMode) (a : Byte) (cmd data : List Byte) (s : State), WriteAccepted s.cfg a cmd data →
    (∀ d, drain s = .ok d → (busAct d).rx ≠ [] →
      exec (writeOp mode a cmd data) s = .next ((busAct d).respond (encodeResult ⟨.busBusy, s.cfg.addrNone, cmd, [], 0⟩))
      ∧ (busAct d).tx = s.tx)
    ∧ (s.pend.length = s.cfg.pendingCap → s.rx ≠ [] →
      ∃ t : State, exec (writeOp mode a cmd data) s = .next (t.respond (encodeResult ⟨.busBusy, s.cfg.addrNone, cmd, [], 0⟩))
        ∧ OnlyBusMoved s t ∧ stream t = stream s ∧ t.polls = s.polls)

/-- WRITE_FAST on a bus with nothing waiting and nothing to come (41_bus_ops.md R138): the frame goes out, the answer is OK, and the
echo, on a line that echoes, stays in `RX`. -/
def Obligations.FastWriteOnQuietBus : Prop :=
  ∀ (a : Byte) (cmd data : List Byte) (s : State), WriteAccepted s.cfg a cmd data → s.rx = [] → NothingArrives s →
    ∃ t : State, exec (.writeFast a cmd data) s = .next (t.respond (encodeResult ⟨.ok, s.cfg.addrNone, cmd, [], 0⟩))
      ∧ OnlyEngineMoved s t ∧ t.pend = s.pend ∧ t.polls = s.polls
      ∧ t.tx = s.tx ++ transmission ([0xFE, 0xFE, a, s.cfg.addrMaster] ++ cmd ++ data ++ [0xFD])
      ∧ t.rx = (if s.loopback = true then [0xFE, 0xFE, a, s.cfg.addrMaster] ++ cmd ++ data ++ [0xFD] else [])
      ∧ NothingArrives t

/-- WRITE_CHECKED and WRITE_POWERON on a line whose echo is healthy (`HealthyEcho`, 92_eei_decisions.md D43; 41_bus_ops.md R139, R140): the
echo comes back at once or late, whole within the readback's window, and nothing else arrives before it is complete. The frame goes out,
behind the wake preamble in PowerOn mode, exactly the echo is consumed, and the answer is OK. An echo at once costs no poll tick. -/
def Obligations.VerifiedWriteOnEchoingBus : Prop :=
  ∀ (mode : WriteMode) (a : Byte) (cmd data : List Byte) (s : State) (n : Nat), mode ≠ .fast → WriteAccepted s.cfg a cmd data →
    let sent := (if mode = .powerOn then List.replicate s.cfg.wakePreambleLen 0xFE#8 else [])
      ++ ([0xFE, 0xFE, a, s.cfg.addrMaster] ++ cmd ++ data ++ [0xFD])
    s.rx = [] → HealthyEcho sent n s → n ≤ sent.length + 4 + 2 * s.cfg.echoPollLimit →
    ∃ t : State, exec (writeOp mode a cmd data) s = .next (t.respond (encodeResult ⟨.ok, s.cfg.addrNone, cmd, [], 0⟩))
      ∧ OnlyEngineMoved s t ∧ t.pend = s.pend ∧ t.tx = s.tx ++ transmission sent
      ∧ s.polls ≤ t.polls ∧ t.polls ≤ s.polls + s.cfg.echoPollLimit
      ∧ (s.loopback = true → t.polls = s.polls ∧ stream t = stream s) ∧ (s.loopback = false → stream s = sent ++ stream t)
      ∧ (EchoesAtOnce s → t.rx = [] ∧ NothingArrives t)

/-- The verdict of the echo readback (41_bus_ops.md R136), for whatever the bus brings from the transmission on, on a line whose echo is part
of that. The readback takes a first part `got` of it, at most as many bytes as were sent: fewer give HARDWARE_FAULT, with `RX` empty after
exactly `ECHO_POLL_LIMIT` poll ticks, and as many are compared byte for byte. All bytes that come up to the look after the last poll tick
count. In particular, bytes that come all during the k-th poll tick after the flush (at once, for k = 0) are read if k is at most
`ECHO_POLL_LIMIT`, after k ticks, what is beyond the sent length staying in `RX`; and none of them is read if k is greater. -/
def Obligations.EchoVerdict : Prop :=
  ∀ (mode : WriteMode) (a : Byte) (cmd data : List Byte) (s : State), mode ≠ .fast → WriteAccepted s.cfg a cmd data →
    let sent := (if mode = .powerOn then List.replicate s.cfg.wakePreambleLen 0xFE#8 else [])
      ++ ([0xFE, 0xFE, a, s.cfg.addrMaster] ++ cmd ++ data ++ [0xFD])
    let limit := s.cfg.echoPollLimit
    s.rx = [] → s.loopback = false → arrivingWithin 2 s = [] →
    ∃ (status : Status) (got : List Byte) (t : State),
      exec (writeOp mode a cmd data) s = .next (t.respond (encodeResult ⟨status, s.cfg.addrNone, cmd, [], 0⟩))
      ∧ stream s = got ++ stream t ∧ got.length ≤ sent.length
      ∧ status = (if got.length < sent.length then .hardwareFault else if got = sent then .ok else .busConflict)
      ∧ (got.length < sent.length → t.rx = [] ∧ t.polls = s.polls + limit)
      ∧ s.polls ≤ t.polls ∧ t.polls ≤ s.polls + limit
      ∧ OnlyEngineMoved s t ∧ t.pend = s.pend ∧ t.tx = s.tx ++ transmission sent
      ∧ (sent.length ≤ (arrivingWithin (sent.length + 4 + 2 * limit) s).length → got.length = sent.length)
      ∧ ∀ (k : Nat) (bytes : List Byte), s.arrivals = List.replicate (sent.length + 3 + 2 * k) [] ++ [bytes] →
          (k ≤ limit → got = bytes.take sent.length ∧ t.rx = bytes.drop sent.length ∧ NothingArrives t
            ∧ t.polls = s.polls + (if bytes.length < sent.length then limit else k))
          ∧ (limit < k → got = [])

/-- The pre-write drain of every write mode (41_bus_ops.md R133, 70_reset_and_hazards.md R231), where nothing arrives beyond what waits in
`RX`. A whole data-bearing frame is moved to the pending buffer if its source is known, and lost otherwise. A marker reply, a frame with no
data, a frame that classification drops and bytes that complete no frame are lost, the last after a full read window. The write then goes
out: a Fast write answers OK, a verified one OK on a line that echoes at once and HARDWARE_FAULT, after the echo window, on one that does
not. -/
def Obligations.WriteDrainsOneMessage : Prop :=
  ∀ (mode : WriteMode) (a : Byte) (cmd data : List Byte) (s : State) (dst src : Byte), WriteAccepted s.cfg a cmd data →
    s.cfg.wellFormed = true → dst = s.cfg.addrAll ∨ dst = s.cfg.addrMaster → isFraming src = false → NothingArrives s →
    s.pend.length < s.cfg.pendingCap →
    let sent := (if mode = .powerOn then List.replicate s.cfg.wakePreambleLen 0xFE#8 else [])
      ++ ([0xFE, 0xFE, a, s.cfg.addrMaster] ++ cmd ++ data ++ [0xFD])
    let GoesOut (kept : List ExchangeResult) (ticks : Nat) : Prop :=
      ∃ t : State, exec (writeOp mode a cmd data) s = .next (t.respond (encodeResult
          ⟨if mode = .fast ∨ s.loopback = true then .ok else .hardwareFault, s.cfg.addrNone, cmd, [], 0⟩))
        ∧ OnlyEngineMoved s t ∧ t.tx = s.tx ++ transmission sent ∧ t.pend = s.pend ++ kept
        ∧ t.polls = s.polls + ticks + (if mode = .fast ∨ s.loopback = true then 0 else s.cfg.echoPollLimit)
        ∧ t.rx = (if mode = .fast ∧ s.loopback = true then sent else []) ∧ NothingArrives t
    (∀ body group, wireValid s.cfg.compound body group = true → group ≠ [] → s.rx = rawFrame dst src body group →
      GoesOut (if regKnown src s = true then [⟨.okWithData, src, body, group, numVal s.cfg.numericMode group⟩] else []) 0)
    ∧ (∀ marker, marker = 0xFB#8 ∨ marker = 0xFA#8 → s.rx = [0xFE, 0xFE, dst, src, marker, 0xFD] → GoesOut [] 0)
    ∧ (∀ body, (∀ b ∈ body, isFraming b = false) → body.length ≤ 13 → s.rx = [0xFE, 0xFE, dst, src] ++ body ++ [0xFD] →
      (classify s.cfg s.rx).status ≠ .okWithData → GoesOut [] 0)
    ∧ (s.rx = [0xFE, 0xFE, dst, 0xFD] → GoesOut [] 0)
    ∧ (s.rx ≠ [] → (∀ q, q <+: s.rx → (fsmRun s.cfg q).1 ≠ .stop) → GoesOut [] s.cfg.readPollLimit)

/-- The echo of a Fast write on a line that echoes at once (70_reset_and_hazards.md R239). It waits in `RX`. (a) If it names a radio, the
next raw read discards it and answers `NOMSG` after a full window. (b) If it names `ADDR_ALL` or `ADDR_MASTER`, the next raw read delivers
it as a frame from `ADDR_MASTER`. (c) With the pending buffer full, the next write answers BUS_BUSY and leaves it there. -/
def Obligations.FastEchoHazard : Prop :=
  ∀ (a : Byte) (cmd data : List Byte) (s : State), WriteAccepted s.cfg a cmd data → s.cfg.wellFormed = true →
    s.rx = [] → EchoesAtOnce s →
    ∃ t : State, exec (.writeFast a cmd data) s = .next t ∧ t.rx = frame s.cfg a cmd data
      ∧ (a ≠ s.cfg.addrAll → a ≠ s.cfg.addrMaster →
          ∃ u : State, exec .readRaw t = .next (u.respond (encodeResult ⟨.noMessage, s.cfg.addrNone, [], [], 0⟩))
            ∧ u.rx = [] ∧ u.polls = t.polls + s.cfg.readPollLimit)
      ∧ (a = s.cfg.addrAll ∨ a = s.cfg.addrMaster →
          ∃ (r : ExchangeResult) (u : State), exec .readRaw t = .next (u.respond (encodeResult r)) ∧ r.src = s.cfg.addrMaster ∧ r.cmd = cmd
            ∧ r.data = data ∧ u.rx = [] ∧ u.polls = t.polls)
      ∧ (s.pend.length = s.cfg.pendingCap →
          ∀ mode a' cmd' data', WriteAccepted s.cfg a' cmd' data' →
            ∃ u : State, exec (writeOp mode a' cmd' data') t
                = .next (u.respond (encodeResult ⟨.busBusy, s.cfg.addrNone, cmd', [], 0⟩))
              ∧ u.rx = t.rx ∧ u.tx = t.tx)

/-! ### The address registry -/

/-- REG_ADDR (41_bus_ops.md R143): the sentinel, an address already present, and a full registry change nothing; any other address
goes to the lowest free slot. -/
def Obligations.RegisterAddress : Prop :=
  ∀ (s : State) (a : Byte),
    (a = s.cfg.addrNone ∨ a ∈ s.reg ∨ s.cfg.addrNone ∉ s.reg → exec (.regAddr a) s = .next (s.respond [0x00]))
    ∧ ∀ before after, a ≠ s.cfg.addrNone → a ∉ s.reg → s.reg = before ++ s.cfg.addrNone :: after → s.cfg.addrNone ∉ before →
      exec (.regAddr a) s = .next ({ s with reg := before ++ a :: after }.respond [0x00])

/-- Registering the same address twice is idempotent: it stays known, no second slot is taken, and the registry keeps its capacity
(41_bus_ops.md R144). -/
def Obligations.RegisterTwice : Prop :=
  ∀ (s : State) (a : Byte), ∃ t : State, exec (.regAddr a) s = .next t
    ∧ exec (.regAddr a) t = .next (t.respond [0x00])
    ∧ (regKnown a s = true → regKnown a t = true)
    ∧ t.reg.length = s.reg.length ∧ t.reg.count a ≤ max 1 (s.reg.count a)

/-- UNREG_ADDR (41_bus_ops.md R145, R146): every slot that holds the address becomes free, and nothing else changes, the pending buffer
included; the sentinel changes nothing. -/
def Obligations.UnregisterAddress : Prop :=
  ∀ (s : State) (a : Byte),
    (a = s.cfg.addrNone → exec (.unregAddr a) s = .next (s.respond [0x00]))
    ∧ (a ≠ s.cfg.addrNone →
      exec (.unregAddr a) s =
        .next ({ s with reg := s.reg.map fun x => if x = a then s.cfg.addrNone else x }.respond [0x00]))

/-- IS_KNOWN answers whether the address is in the registry, 0 for the sentinel (41_bus_ops.md R148). After REG_ADDR of an address that
is present or finds a free slot it answers 1, after UNREG_ADDR 0, and the other addresses are as known as before. -/
def Obligations.KnownAfterRegistering : Prop :=
  ∀ (s : State) (a : Byte),
    exec (.isKnown a) s = .next (s.respond [if a ≠ s.cfg.addrNone ∧ a ∈ s.reg then 0x01 else 0x00])
    ∧ (a ≠ s.cfg.addrNone → (a ∈ s.reg ∨ s.cfg.addrNone ∈ s.reg) →
        ∃ t : State, exec (.regAddr a) s = .next t ∧ exec (.isKnown a) t = .next (t.respond [0x01])
          ∧ ∀ b, b ≠ a → regKnown b t = regKnown b s)
    ∧ ∃ t : State, exec (.unregAddr a) s = .next t ∧ exec (.isKnown a) t = .next (t.respond [0x00])
        ∧ ∀ b, b ≠ a → regKnown b t = regKnown b s

/-! ### Controllers: lifecycle, address, checks, getters -/

/-- CTRL_CREATE is the reset of one slot (70_reset_and_hazards.md R225, 10_state.md R55, 42_controller.md R153): every field takes its
creation value, the address is registered, and nothing else changes. -/
def Obligations.ControllerCreation : Prop :=
  ∀ (s : State) (k a md : Byte), k.toNat < s.cfg.maxControllers → s.ctrl.length = s.cfg.maxControllers →
    (s.ctl k.toNat).live = false → md.toNat < s.cfg.models.length → isFraming a = false → isReservedAddress s.cfg a = false →
    ∃ t : State, exec (.ctrlCreate k a md) s = .next (t.respond [0x00])
      ∧ t.ctl k.toNat =
        { live := true, addr := a, model := md.toNat, power := .unknown, mode := .undefined, target := .undefined, freq := 0,
          modulation := .undefined, filter := .undefined, idInFlight := false, idSentAt := 0, polled := false, lastPollAt := 0,
          lastPowerOnAt := none, seqActive := false, seq := [], seqIdx := 0, nak := 0, ackPending := false, ackSentAt := 0,
          verifyPending := false, verifyFrom := 0, dtUtc := [], dtTime := [], dtDate := [], dtSent := false }
      ∧ exec (.regAddr a) { s with ctrl := t.ctrl } = .next (t.respond [0x00])
      ∧ (∀ j, j ≠ k.toNat → t.ctl j = s.ctl j) ∧ t.ctrl.length = s.ctrl.length
      ∧ ((a ∈ s.reg ∨ s.cfg.addrNone ∈ s.reg) → regKnown a t = true)

/-- The refusals of CTRL_CREATE, the lowest reason first; nothing changes (42_controller.md R153, 30_encoding.md R90, R101). -/
def Obligations.ControllerCreationRefusals : Prop :=
  ∀ (s : State) (k a md : Byte),
    (s.cfg.maxControllers ≤ k.toNat → exec (.ctrlCreate k a md) s = .next (s.respond [0x7F, 0x03]))
    ∧ (k.toNat < s.cfg.maxControllers → (s.ctl k.toNat).live = true →
        exec (.ctrlCreate k a md) s = .next (s.respond [0x7F, 0x04]))
    ∧ (k.toNat < s.cfg.maxControllers → (s.ctl k.toNat).live = false →
        (s.cfg.models.length ≤ md.toNat → exec (.ctrlCreate k a md) s = .next (s.respond [0x7F, 0x05]))
        ∧ (md.toNat < s.cfg.models.length → a = 0xFE#8 ∨ a = 0xFD#8 →
            exec (.ctrlCreate k a md) s = .next (s.respond [0x7F, 0x08]))
        ∧ (md.toNat < s.cfg.models.length → a ≠ 0xFE#8 ∧ a ≠ 0xFD#8 →
            a = s.cfg.addrAll ∨ a = s.cfg.addrMaster ∨ a = s.cfg.addrNone →
            exec (.ctrlCreate k a md) s = .next (s.respond [0x7F, 0x09])))

/-- CTRL_DESTROY (42_controller.md R154): the slot's address is unregistered and the slot is no longer live; nothing else changes, the
pending buffer included. -/
def Obligations.ControllerDestruction : Prop :=
  ∀ (s : State) (k : Byte), SlotLive k s →
    ∃ t : State, exec (.ctrlDestroy k) s = .next (t.respond [0x00])
      ∧ t = { s with
          reg := if (s.ctl k.toNat).addr = s.cfg.addrNone then s.reg
            else s.reg.map fun x => if x = (s.ctl k.toNat).addr then s.cfg.addrNone else x
          ctrl := s.ctrl.set k.toNat { s.ctl k.toNat with live := false } }
      ∧ regKnown (s.ctl k.toNat).addr t = false ∧ (t.ctl k.toNat).live = false

/-- SET_ADDRESS (42_controller.md R180): the old address is unregistered, the new one registered; of the slot only the address changes,
and nothing else but the registry. The new address is known afterwards if it or the old one was known, or if a slot was free; the old one
is unknown unless it is the new one. -/
def Obligations.SetAddress : Prop :=
  ∀ (s : State) (k a : Byte), SlotLive k s → isFraming a = false → isReservedAddress s.cfg a = false →
    ∃ t : State, exec (.setAddress k a) s = .next (t.respond [0x00])
      ∧ t = { s with reg := t.reg, ctrl := s.ctrl.set k.toNat { s.ctl k.toNat with addr := a } }
      ∧ t.ctl k.toNat = { s.ctl k.toNat with addr := a }
      ∧ t.reg.length = s.reg.length
      ∧ (a ∈ s.reg ∨ s.cfg.addrNone ∈ s.reg ∨ (s.ctl k.toNat).addr ∈ s.reg → regKnown a t = true)
      ∧ ((s.ctl k.toNat).addr ≠ a → regKnown (s.ctl k.toNat).addr t = false)
      ∧ ∀ b, b ≠ a → b ≠ (s.ctl k.toNat).addr → regKnown b t = regKnown b s

/-- Every controller operation but CTRL_CREATE refuses an index out of range and a slot that is not live, and changes nothing
(42_controller.md R151, 30_encoding.md R90, R101). -/
def Obligations.SlotChecks : Prop :=
  ∀ (i : Instr) (s : State) (k : Nat), slotOf i = some k → i.opcode ≠ .ctrlCreate →
    (s.cfg.maxControllers ≤ k → exec i s = .next (s.respond [0x7F, 0x03]))
    ∧ (k < s.cfg.maxControllers → (s.ctl k).live = false → exec i s = .next (s.respond [0x7F, 0x04]))

/-- The refusals of the operands of SET_POWER, SET_MODE, SET_ADDRESS and PUSH_DATETIME on a live slot; nothing changes
(30_encoding.md R90, R101; 42_controller.md R169, R175, R180, R182). That PUSH_DATETIME reports 0x06 before 0x07 is read from
R101 (log 13). -/
def Obligations.ControllerOperandRefusals : Prop :=
  ∀ (s : State) (k : Byte), SlotLive k s →
    (∀ q now, 2 < q.toNat → exec (.setPower k q now) s = .next (s.respond [0x7F, 0x05]))
    ∧ (∀ m : Byte, 1 < m.toNat → exec (.setMode k m) s = .next (s.respond [0x7F, 0x05]))
    ∧ (∀ a : Byte, a = 0xFE#8 ∨ a = 0xFD#8 → exec (.setAddress k a) s = .next (s.respond [0x7F, 0x08]))
    ∧ (∀ a : Byte, a ≠ 0xFE#8 ∧ a ≠ 0xFD#8 → a = s.cfg.addrAll ∨ a = s.cfg.addrMaster ∨ a = s.cfg.addrNone →
        exec (.setAddress k a) s = .next (s.respond [0x7F, 0x09]))
    ∧ ∀ time date utc,
        let kept := cmdLen s.cfg.compound (s.cfg.catalog.dtUtc ++ utc) = s.cfg.catalog.dtUtc.length
          ∧ cmdLen s.cfg.compound (s.cfg.catalog.dtTime ++ time) = s.cfg.catalog.dtTime.length
          ∧ cmdLen s.cfg.compound (s.cfg.catalog.dtDate ++ date) = s.cfg.catalog.dtDate.length
        let lengths := time.length = s.cfg.dtLenTime ∧ date.length = s.cfg.dtLenDate ∧ utc.length = s.cfg.dtLenUtc
        (¬ kept → exec (.pushDateTime k time date utc) s = .next (s.respond [0x7F, 0x06]))
        ∧ (kept → ¬ lengths → exec (.pushDateTime k time date utc) s = .next (s.respond [0x7F, 0x07]))
        ∧ (kept → lengths → (∃ b ∈ time ++ date ++ utc, b = 0xFE#8 ∨ b = 0xFD#8) →
            exec (.pushDateTime k time date utc) s = .next (s.respond [0x7F, 0x08]))

/-- The six getters of a live slot answer its field by its code, and change nothing (42_controller.md R168, R174, R177, R178, R179,
R181; codes 30_encoding.md R96, R97). -/
def Obligations.GettersAnswer : Prop :=
  ∀ (s : State) (k : Byte), SlotLive k s →
    exec (.getPower k) s = .next (s.respond [match (s.ctl k.toNat).power with
        | .off => 0 | .offTransitioning => 1 | .on => 2 | .onTransitioning => 3 | .unknown => 4])
    ∧ exec (.getMode k) s = .next (s.respond [match (s.ctl k.toNat).mode with
        | .voice => 0 | .data => 1 | .undefined => 2])
    ∧ exec (.getFreq k) s = .next (s.respond (le8 (s.ctl k.toNat).freq))
    ∧ exec (.getModulation k) s = .next (s.respond [match (s.ctl k.toNat).modulation with
        | .linear key _ => key | .dv => 0x17 | .undefined => 0xFF])
    ∧ exec (.getRxFilter k) s = .next (s.respond [match (s.ctl k.toNat).filter with
        | .fil1 => 1 | .fil2 => 2 | .fil3 => 3 | .undefined => 0xFF])
    ∧ exec (.getAddress k) s = .next (s.respond [(s.ctl k.toNat).addr])

/-! ### Controllers: mode, power, date and time -/

/-- SET_MODE (42_controller.md R175): the mode becomes Undefined at once, the sequence of the slot's model and the asked mode is loaded
with the cursor and the NAK count at 0, and nothing is sent. -/
def Obligations.SetModeStartsSequence : Prop :=
  ∀ (s : State) (k m : Byte), SlotLive k s → m.toNat ≤ 1 →
    exec (.setMode k m) s = .next ({ s with ctrl := s.ctrl.set k.toNat { s.ctl k.toNat with
      target := if m = 0 then .voice else .data
      mode := .undefined
      seq := if m = 0 then (modelOf s.cfg (s.ctl k.toNat)).seqVoice else (modelOf s.cfg (s.ctl k.toNat)).seqData
      seqIdx := 0
      nak := 0
      ackPending := false
      seqActive := true } }.respond [0x00])

/-- SET_POWER (42_controller.md R169, R170, R171, R172). A request that asks for On while On, or for Off while Off, changes nothing; Toggle
asks for Off when the state is On and for On otherwise. Any other request runs one write, PowerOn with the power-on command or Checked with
the power-off command, whatever its status, and then sets the state; on a bus with nothing waiting and nothing to come the write goes
out. -/
def Obligations.SetPower : Prop :=
  ∀ (s : State) (k q : Byte) (now : Time), SlotLive k s → q.toNat ≤ 2 →
    let c := s.ctl k.toNat
    let asksOn := q = 0 ∨ (q = 2 ∧ c.power ≠ .on)
    (asksOn → c.power = .on → exec (.setPower k q now) s = .next (s.respond [0x02]))
    ∧ (¬ asksOn → c.power = .off → exec (.setPower k q now) s = .next (s.respond [0x00]))
    ∧ (asksOn → c.power ≠ .on →
        ∃ (r : ExchangeResult) (u t : State), busWrite .powerOn c.addr s.cfg.catalog.pwrOn.cmd s.cfg.catalog.pwrOn.data s = .ok (r, u)
          ∧ t = u.setCtl k.toNat { c with power := .offTransitioning, lastPowerOnAt := some now }
          ∧ exec (.setPower k q now) s = .next (t.respond [0x01])
          ∧ t.ctl k.toNat = { c with power := .offTransitioning, lastPowerOnAt := some now } ∧ OnlySlotMoved k.toNat s t
          ∧ (s.rx = [] → NothingArrives s → t.tx = s.tx ++ transmission (List.replicate s.cfg.wakePreambleLen 0xFE#8
              ++ frame s.cfg c.addr s.cfg.catalog.pwrOn.cmd s.cfg.catalog.pwrOn.data)))
    ∧ (¬ asksOn → c.power ≠ .off →
        ∃ (r : ExchangeResult) (u t : State), busWrite .checked c.addr s.cfg.catalog.pwrOff.cmd s.cfg.catalog.pwrOff.data s = .ok (r, u)
          ∧ t = u.setCtl k.toNat { c with power := .onTransitioning }
          ∧ exec (.setPower k q now) s = .next (t.respond [0x03])
          ∧ t.ctl k.toNat = { c with power := .onTransitioning } ∧ OnlySlotMoved k.toNat s t
          ∧ (s.rx = [] → NothingArrives s → t.tx = s.tx ++ transmission
              (frame s.cfg c.addr s.cfg.catalog.pwrOff.cmd s.cfg.catalog.pwrOff.data)))

/-- PUSH_DATETIME (42_controller.md R182). While the power state is not On it stores the three groups and sends nothing. While it is On it
stores them, runs the three Checked writes, UTC offset, time, date, one after the other and whatever their statuses, and marks them sent; on
a bus with nothing waiting and nothing to come all three go out, in that order. -/
def Obligations.PushDateTime : Prop :=
  ∀ (s : State) (k : Byte) (time date utc : List Byte), SlotLive k s → GroupsAccepted s.cfg time date utc →
    let c := s.ctl k.toNat
    let stored := { c with dtTime := time, dtDate := date, dtUtc := utc, dtSent := false }
    (c.power ≠ .on → exec (.pushDateTime k time date utc) s = .next ((s.setCtl k.toNat stored).respond [0x00]))
    ∧ (c.power = .on →
      ∃ (r₁ r₂ r₃ : ExchangeResult) (u₁ u₂ u₃ t : State),
        busWrite .checked c.addr s.cfg.catalog.dtUtc utc (s.setCtl k.toNat stored) = .ok (r₁, u₁)
        ∧ busWrite .checked c.addr s.cfg.catalog.dtTime time u₁ = .ok (r₂, u₂)
        ∧ busWrite .checked c.addr s.cfg.catalog.dtDate date u₂ = .ok (r₃, u₃)
        ∧ t = u₃.setCtl k.toNat { stored with dtSent := true }
        ∧ exec (.pushDateTime k time date utc) s = .next (t.respond [0x00])
        ∧ t.ctl k.toNat = { stored with dtSent := true } ∧ OnlySlotMoved k.toNat s t
        ∧ (s.rx = [] → NothingArrives s → t.pend = s.pend ∧ t.tx = s.tx
            ++ transmission (frame s.cfg c.addr s.cfg.catalog.dtUtc utc)
            ++ transmission (frame s.cfg c.addr s.cfg.catalog.dtTime time)
            ++ transmission (frame s.cfg c.addr s.cfg.catalog.dtDate date)))

/-! ### The controller's tick -/

/-- TICK (42_controller.md R156): it reads once with ReadFor and answers that result; the slot changes as the model's own definitions of
the steps do, one after the other (`slotAfterTick`), never its live flag, address, model or date/time fields; it sends a part, in order, of
the commands those steps have to send (`tickCommands`), at most five, and all of them where nothing waits, nothing is to come and the line
has no echo. Nothing else of the engine changes but the pending buffer. What the steps do to each field is said in the spec's terms by
TickControlFields, TickPowerState and TickTelemetry. -/
def Obligations.TickSlotAndSends : Prop :=
  ∀ (s : State) (k : Byte) (now : Time), SlotLive k s →
    let c := s.ctl k.toNat
    ∃ (r : ExchangeResult) (u t : State), readFor c.addr (s.modCtl k.toNat (firstTick now)) = .ok (r, u)
      ∧ exec (.tick k now) s = .next (t.respond (encodeResult r))
      ∧ OnlySlotMoved k.toNat s t ∧ TickKeeps c (t.ctl k.toNat) ∧ t.ctl k.toNat = slotAfterTick s.cfg now r c
      ∧ (∃ l : List Command, l.Sublist (tickCommands s.cfg now r c) ∧ t.tx = s.tx ++ sentTo s.cfg c.addr l)
      ∧ (tickCommands s.cfg now r c).length ≤ 5
      ∧ (stream u = [] → s.loopback = false →
          t.tx = s.tx ++ sentTo s.cfg c.addr (tickCommands s.cfg now r c) ∧ t.pend = u.pend ∧ t.polls = u.polls)

/-- What a tick that reads r does to the acks, the sequence and the identity query, and what it has to send, in terms of r, `now` and the
slot before (42_controller.md R159, R160, R161, R163 to R167, R185). OK and NOT_OK end an ack wait; NOT_OK and an ack timeout count as a NAK
while a sequence runs, and a NAK aborts it; otherwise, with no ack awaited, the next command goes out or the mode is committed. An
identity query in flight ends with an identity reply, a NOT_OK or the end of its wait, and the next one is due with no sequence running, none
in flight, and the interval over. The two follow-up queries are sent exactly if the reply is an identity reply and the power state was not
On. -/
def Obligations.TickControlFields : Prop :=
  ∀ (s : State) (k : Byte) (now : Time), SlotLive k s →
    let c := s.ctl k.toNat
    let idQuery := (modelOf s.cfg c).idQuery
    ∃ (r : ExchangeResult) (u t : State), readFor c.addr (s.modCtl k.toNat (firstTick now)) = .ok (r, u)
      ∧ exec (.tick k now) s = .next (t.respond (encodeResult r))
      ∧ (let d := t.ctl k.toNat
         let waits := c.ackPending = true ∧ r.status ≠ .ok ∧ r.status ≠ .notOk
         let timedOut := waits ∧ ∃ limit, s.cfg.ackTimeoutMs = some limit ∧ limit ≤ (now - c.ackSentAt).toNat
         let nakked := c.seqActive = true ∧ (r.status = .notOk ∨ timedOut)
         let aborts := c.seqActive = true ∧ (nakked ∨ c.nak ≠ 0)
         let goesOn := c.seqActive = true ∧ ¬ aborts ∧ ¬ waits
         let sends := goesOn ∧ c.seqIdx < c.seq.length
         let commits := goesOn ∧ c.seq.length ≤ c.seqIdx
         let verifies := (commits ∧ s.cfg.verifyDelayMs = 0)
           ∨ (¬ commits ∧ c.verifyPending = true ∧ s.cfg.verifyDelayMs ≤ (now - c.verifyFrom).toNat)
         let reply := r.status = .okWithData ∧ r.cmd = idQuery
         let flies := c.idInFlight = true ∧ ¬ reply ∧ r.status ≠ .notOk ∧ (now - c.idSentAt).toNat < s.cfg.idWaitMs
         let due := (c.seqActive = false ∨ aborts ∨ commits) ∧ ¬ flies
           ∧ (c.polled = false ∨ s.cfg.idIntervalMs ≤ (now - c.lastPollAt).toNat)
         (nakked → d.nak.toNat = min 255 (c.nak.toNat + 1)) ∧ (¬ nakked → d.nak = c.nak)
         ∧ (d.ackPending = true ↔ sends ∨ (waits ∧ ¬ aborts))
         ∧ (sends → d.ackSentAt = now ∧ d.seqIdx = c.seqIdx + 1) ∧ (¬ sends → d.ackSentAt = c.ackSentAt ∧ d.seqIdx = c.seqIdx)
         ∧ (d.seqActive = true ↔ c.seqActive = true ∧ ¬ aborts ∧ ¬ commits) ∧ d.seq = c.seq ∧ d.target = c.target
         ∧ (aborts → d.mode = .undefined) ∧ (commits → d.mode = c.target) ∧ (¬ aborts → ¬ commits → d.mode = c.mode)
         ∧ (d.verifyPending = true ↔ (commits ∨ c.verifyPending = true) ∧ ¬ verifies)
         ∧ (commits → d.verifyFrom = now) ∧ (¬ commits → d.verifyFrom = c.verifyFrom)
         ∧ (d.idInFlight = true ↔ flies ∨ due)
         ∧ (due → d.idSentAt = now ∧ d.polled = true ∧ d.lastPollAt = now)
         ∧ (¬ due → d.idSentAt = c.idSentAt ∧ d.polled = c.polled ∧ d.lastPollAt = c.lastPollAt)
         ∧ ∃ command followUps verification identity sent : List Command,
             (sends → command = (c.seq[c.seqIdx]?).toList) ∧ (¬ sends → command = [])
             ∧ (reply ∧ c.power ≠ .on → followUps = [query s.cfg.catalog.freqQuery, query s.cfg.catalog.modeQuery])
             ∧ (¬ (reply ∧ c.power ≠ .on) → followUps = [])
             ∧ (verifies → verification = [query s.cfg.catalog.modeQuery]) ∧ (¬ verifies → verification = [])
             ∧ (due → identity = [query idQuery]) ∧ (¬ due → identity = [])
             ∧ t.tx = s.tx ++ sentTo s.cfg c.addr sent ∧ sent.Sublist (command ++ followUps ++ verification ++ identity)
             ∧ (stream u = [] → s.loopback = false → sent = command ++ followUps ++ verification ++ identity))

/-- The power state after a tick (42_controller.md R161, R163, R164, R173) and the time that opens the boot window (R157). -/
def Obligations.TickPowerState : Prop :=
  ∀ (s : State) (k : Byte) (now : Time), SlotLive k s →
    let c := s.ctl k.toNat
    ∃ (r : ExchangeResult) (u t : State), readFor c.addr (s.modCtl k.toNat (firstTick now)) = .ok (r, u)
      ∧ exec (.tick k now) s = .next (t.respond (encodeResult r))
      ∧ (t.ctl k.toNat).lastPowerOnAt = some (c.lastPowerOnAt.getD now)
      ∧ (t.ctl k.toNat).power =
        if r.status = .okWithData ∧ r.cmd = (modelOf s.cfg c).idQuery then .on
        else if c.idInFlight = true ∧ r.status = .notOk then .off
        else if c.idInFlight = true ∧ s.cfg.idWaitMs ≤ (now - c.idSentAt).toNat then
          if (now - c.lastPowerOnAt.getD now).toNat < (modelOf s.cfg c).bootWindow then .offTransitioning else .off
        else c.power

/-- Telemetry (42_controller.md R162): what a tick does to the cached frequency, modulation mode and RX filter with the message it
reads. -/
def Obligations.TickTelemetry : Prop :=
  ∀ (s : State) (k : Byte) (now : Time), SlotLive k s →
    let c := s.ctl k.toNat
    let m := modelOf s.cfg c
    ∃ (r : ExchangeResult) (u t : State), readFor c.addr (s.modCtl k.toNat (firstTick now)) = .ok (r, u)
      ∧ exec (.tick k now) s = .next (t.respond (encodeResult r))
      ∧ (let d := t.ctl k.toNat
         let isFreq := r.cmd = s.cfg.catalog.freqReport ∨ r.cmd = s.cfg.catalog.freqQuery
         let isMode := r.cmd = s.cfg.catalog.modeReport ∨ r.cmd = s.cfg.catalog.modeQuery
         d.freq = (if r.status = .okWithData ∧ isFreq then r.nv else c.freq)
         ∧ (¬ (r.status = .okWithData ∧ isMode) → d.modulation = c.modulation ∧ d.filter = c.filter)
         ∧ ∀ b rest, r.status = .okWithData → isMode → r.data = b :: rest →
            d.modulation = (if b = 0x17#8 ∧ m.dvRemap = true then .dv
              else match m.modTable.find? (fun e => e.1 == b) with
                | some e => .linear b e.2
                | none => .undefined)
            ∧ d.filter = match rest with
                | [] => c.filter
                | f :: _ => match s.cfg.filterTable.find? (fun e => e.1 == f) with
                  | some e => e.2
                  | none => .undefined)

/-- A mode-change sequence that receives a NOT_OK reply aborts in that tick, at any step: the mode is left Undefined, the sequence is no
longer active, and the tick sends no command of it, only the queries that are due (42_controller.md R176). -/
def Obligations.NakAbortsSequence : Prop :=
  ∀ (s : State) (k : Byte) (now : Time) (r : ExchangeResult) (u : State), SlotLive k s → (s.ctl k.toNat).seqActive = true →
    readFor (s.ctl k.toNat).addr (s.modCtl k.toNat (firstTick now)) = .ok (r, u) → r.status = .notOk →
    ∃ t : State, exec (.tick k now) s = .next (t.respond (encodeResult r))
      ∧ (t.ctl k.toNat).mode = .undefined ∧ (t.ctl k.toNat).seqActive = false ∧ (t.ctl k.toNat).ackPending = false
      ∧ (t.ctl k.toNat).seqIdx = (s.ctl k.toNat).seqIdx
      ∧ ∃ l : List Command, l.Sublist [query s.cfg.catalog.modeQuery, query (modelOf s.cfg (s.ctl k.toNat)).idQuery]
        ∧ t.tx = s.tx ++ sentTo s.cfg (s.ctl k.toNat).addr l

/-- The boot-time window on a bus from which no byte ever comes (42_controller.md R184). (a) From creation, ticked first at t0 and then
while the window is open, the power state is Unknown or OffTransitioning, never Off. (b) The first identity timeout at a tick outside the
window makes it Off, one inside it OffTransitioning. (c) Ticked outside the window, Off stays Off. (d) From creation, ticked first at t0 and
then again and again with each step below `ID_WAIT_MS`, at the latest an identity interval and two identity waits after the window ends it is
Off; the times are counted from t0 and stay below 2^32. -/
def Obligations.BootWindowOnQuietBus : Prop :=
  ∀ (s : State) (k : Byte), SlotLive k s → QuietBus s → s.rx = [] → (∀ e ∈ s.pend, e.src ≠ (s.ctl k.toNat).addr) →
    let c := s.ctl k.toNat
    let window := (modelOf s.cfg c).bootWindow
    (∀ t0 later, c.power = .unknown → c.lastPowerOnAt = none → c.idInFlight = false →
      (∀ now ∈ later, (now - t0).toNat < window) →
      ∃ t, tickRun k (t0 :: later) s = some t ∧ ((t.ctl k.toNat).power = .unknown ∨ (t.ctl k.toNat).power = .offTransitioning))
    ∧ (∀ t0 now, c.lastPowerOnAt = some t0 → c.idInFlight = true → s.cfg.idWaitMs ≤ (now - c.idSentAt).toNat →
      ∃ t, tickRun k [now] s = some t
        ∧ (t.ctl k.toNat).power = if (now - t0).toNat < window then .offTransitioning else .off)
    ∧ (∀ t0 later, c.lastPowerOnAt = some t0 → c.power = .off → (∀ now ∈ later, window ≤ (now - t0).toNat) →
      ∃ t, tickRun k later s = some t ∧ (t.ctl k.toNat).power = .off)
    ∧ (∀ (t0 : Time) (later : List Nat) (last : Nat), c.power = .unknown → c.lastPowerOnAt = none → c.idInFlight = false →
      c.polled = false → c.seqActive = false →
      (0 :: later ++ [last]).IsChain (fun before after => before ≤ after ∧ after < before + s.cfg.idWaitMs) →
      window + s.cfg.idIntervalMs + 2 * s.cfg.idWaitMs ≤ last → last < 2 ^ 32 →
      ∃ t, tickRun k ((0 :: later ++ [last]).map fun x => t0 + BitVec.ofNat 32 x) s = some t ∧ (t.ctl k.toNat).power = .off)

/-! ### The whole machine -/

/-- Every step keeps the invariant: the registry, the pending buffer and every live controller stay in form (10_state.md R25, R34, R35, R37,
R38, R43 to R46; 40_receive.md R120). -/
def Obligations.StepKeepsInvariant : Prop :=
  ∀ s t : State, Inv s → step s = .next t → Inv t

/-- Block reset (70_reset_and_hazards.md R223, R224; 10_state.md R55), for every configuration and every content of `RX`, meets the
invariant: every registry slot is free, the pending buffer is empty, no controller is live, nothing has been transmitted. The reference
configuration is well formed; that `State.reset` has it, with `RX` empty, is the model's choice (log 1, log 8). -/
def Obligations.ResetState : Prop :=
  (∀ (cfg : Config) (rx : List Byte), Inv (State.resetWith cfg rx)
    ∧ (State.resetWith cfg rx).reg = List.replicate cfg.registryCap cfg.addrNone ∧ (State.resetWith cfg rx).pend = []
    ∧ (State.resetWith cfg rx).ctrl.length = cfg.maxControllers ∧ (∀ k, ((State.resetWith cfg rx).ctl k).live = false)
    ∧ (State.resetWith cfg rx).tx = [] ∧ (State.resetWith cfg rx).rx = rx ∧ (State.resetWith cfg rx).cfg = cfg)
  ∧ State.reset = State.resetWith refConfig [] ∧ State.reset.cfg.wellFormed = true

/-- Every operation completes, from every state, with exactly one response (00_scope.md R7, R21; 60_exceptions.md R211, R219). It never
writes the configuration (10_state.md R50), only adds to the transmit log (R52), and takes at most the poll ticks of
70_reset_and_hazards.md R245. That it completes from every state rests on the model's choice that the bus brings finitely many bytes
(log 7, unsafe for this statement): R21 says it under the premise `BoundedArrival`, which each operation of the model meets for some bound
(BoundedArrivalBoundsBytes). -/
def Obligations.EveryOperationCompletes : Prop :=
  ∀ (i : Instr) (s : State), ∃ t response sent, exec i s = .next t
    ∧ t.responses = s.responses ++ [response] ∧ t.requests = s.requests ∧ t.cfg = s.cfg ∧ t.loopback = s.loopback
    ∧ t.tx = s.tx ++ sent ∧ s.polls ≤ t.polls ∧ t.polls ≤ s.polls + pollBudget s.cfg i

/-- `BoundedArrival` (00_scope.md R21, 92_eei_decisions.md D43). Under it, with `ARRIVAL_BOUND` = bound, an operation that takes n poll ticks
sees at most (n + 1) times bound bytes arrive, and a raw read consumes at most `READ_POLL_LIMIT` + 1 times bound bytes and those that
waited. Every operation of the model meets it for some bound, because the bus brings finitely many bytes, which is the model's choice
(log 7). That the bytes of an echo at once are not among those bounded, in premise and conclusion alike, is the model's choice too
(log 25). -/
def Obligations.BoundedArrivalBoundsBytes : Prop :=
  (∀ (i : Instr) (s t : State) (bound : Nat), exec i s = .next t → BoundedArrival bound s t →
    toArrive s ≤ toArrive t + (t.polls - s.polls + 1) * bound)
  ∧ (∀ (s t : State) (bound : Nat), exec .readRaw s = .next t → BoundedArrival bound s t →
    ∃ p, stream s = p ++ stream t ∧ p.length ≤ s.rx.length + (s.cfg.readPollLimit + 1) * bound)
  ∧ ∀ (i : Instr) (s t : State), exec i s = .next t → BoundedArrival (toArrive s) s t

/-- The transport preserves order (10_state.md R53, 60_exceptions.md R218): on a line that does not echo at once, an operation consumes a
first part of the bytes that wait or are to come, and leaves the rest as it was. -/
def Obligations.BytesLeaveInOrder : Prop :=
  ∀ (i : Instr) (s t : State), s.loopback = false → exec i s = .next t → ∃ p, stream s = p ++ stream t

/-- A controller's slot is its own (20_memory.md R72, 60_exceptions.md R214): an operation that does not name slot j leaves it as it was,
and does the same to everything else whatever slot j holds. -/
def Obligations.SlotIsolation : Prop :=
  ∀ (i : Instr) (s t : State) (j : Nat), slotOf i ≠ some j → exec i s = .next t →
    t.ctl j = s.ctl j ∧ ∀ c : Controller, exec i (s.setCtl j c) = .next (t.setCtl j c)

/-- No operation but PUSH_DATETIME of that slot, and CTRL_CREATE, which makes the slot anew, writes the date/time fields of a slot
(42_controller.md R183, 10_state.md R48). -/
def Obligations.DateTimeOnlyByPush : Prop :=
  ∀ (i : Instr) (s t : State) (j : Nat), exec i s = .next t →
    slotOf i ≠ some j ∨ (i.opcode ≠ .pushDateTime ∧ i.opcode ≠ .ctrlCreate) →
    (t.ctl j).dtUtc = (s.ctl j).dtUtc ∧ (t.ctl j).dtTime = (s.ctl j).dtTime ∧ (t.ctl j).dtDate = (s.ctl j).dtDate
      ∧ (t.ctl j).dtSent = (s.ctl j).dtSent

/-- A refused operation changes nothing (60_exceptions.md R204, 00_scope.md R16): if an operation's response is a refusal, the
state is as before but for the response. -/
def Obligations.RefusalChangesNothing : Prop :=
  ∀ (i : Instr) (s t : State) (reason : Byte), exec i s = .next t → t.responses = s.responses ++ [[0x7F, reason]] →
    t = s.respond [0x7F, reason]

/-- 42_controller.md R155 says that catalog pairs always pass the write checks, by 00_scope.md R10. This fails: R10 tests a body without
its data, and a catalog pair whose body is 0x1A and whose data begins with 0x05 passes R10 and is not wire-valid (30_encoding.md R85;
log 20). -/
def Obligations.CatalogPairsAlwaysAccepted : Prop :=
  ∀ cfg : Config, cfg.wellFormed = true → ∀ p ∈ catalogPairs cfg, wireValid cfg.compound p.cmd p.data = true
end

