-- ==== Sys2Proof/Laws/State.lean ====
section
/-! SUPPORT. One lemma per field per update of the state, true by rfl, so that no later proof unfolds a record update. -/

namespace Sys2Proof.Machine

@[simp] theorem State.respond_cfg (s : State) (r : List Byte) : (s.respond r).cfg = s.cfg := rfl
@[simp] theorem State.respond_reg (s : State) (r : List Byte) : (s.respond r).reg = s.reg := rfl
@[simp] theorem State.respond_pend (s : State) (r : List Byte) : (s.respond r).pend = s.pend := rfl
@[simp] theorem State.respond_ctrl (s : State) (r : List Byte) : (s.respond r).ctrl = s.ctrl := rfl
@[simp] theorem State.respond_rx (s : State) (r : List Byte) : (s.respond r).rx = s.rx := rfl
@[simp] theorem State.respond_tx (s : State) (r : List Byte) : (s.respond r).tx = s.tx := rfl
@[simp] theorem State.respond_arrivals (s : State) (r : List Byte) : (s.respond r).arrivals = s.arrivals := rfl
@[simp] theorem State.respond_loopback (s : State) (r : List Byte) : (s.respond r).loopback = s.loopback := rfl
@[simp] theorem State.respond_polls (s : State) (r : List Byte) : (s.respond r).polls = s.polls := rfl
@[simp] theorem State.respond_waits (s : State) (r : List Byte) : (s.respond r).waits = s.waits := rfl
@[simp] theorem State.respond_requests (s : State) (r : List Byte) : (s.respond r).requests = s.requests := rfl
@[simp] theorem State.respond_responses (s : State) (r : List Byte) : (s.respond r).responses = s.responses ++ [r] := rfl

@[simp] theorem State.setCtl_cfg (s : State) (k : Nat) (c : Controller) : (s.setCtl k c).cfg = s.cfg := rfl
@[simp] theorem State.setCtl_reg (s : State) (k : Nat) (c : Controller) : (s.setCtl k c).reg = s.reg := rfl
@[simp] theorem State.setCtl_pend (s : State) (k : Nat) (c : Controller) : (s.setCtl k c).pend = s.pend := rfl
@[simp] theorem State.setCtl_ctrl (s : State) (k : Nat) (c : Controller) : (s.setCtl k c).ctrl = s.ctrl.set k c := rfl
@[simp] theorem State.setCtl_rx (s : State) (k : Nat) (c : Controller) : (s.setCtl k c).rx = s.rx := rfl
@[simp] theorem State.setCtl_tx (s : State) (k : Nat) (c : Controller) : (s.setCtl k c).tx = s.tx := rfl
@[simp] theorem State.setCtl_arrivals (s : State) (k : Nat) (c : Controller) : (s.setCtl k c).arrivals = s.arrivals := rfl
@[simp] theorem State.setCtl_loopback (s : State) (k : Nat) (c : Controller) : (s.setCtl k c).loopback = s.loopback := rfl
@[simp] theorem State.setCtl_polls (s : State) (k : Nat) (c : Controller) : (s.setCtl k c).polls = s.polls := rfl
@[simp] theorem State.setCtl_waits (s : State) (k : Nat) (c : Controller) : (s.setCtl k c).waits = s.waits := rfl
@[simp] theorem State.setCtl_requests (s : State) (k : Nat) (c : Controller) : (s.setCtl k c).requests = s.requests := rfl
@[simp] theorem State.setCtl_responses (s : State) (k : Nat) (c : Controller) : (s.setCtl k c).responses = s.responses := rfl

@[simp] theorem State.modCtl_cfg (s : State) (k : Nat) (f : Controller → Controller) : (s.modCtl k f).cfg = s.cfg := rfl
@[simp] theorem State.modCtl_reg (s : State) (k : Nat) (f : Controller → Controller) : (s.modCtl k f).reg = s.reg := rfl
@[simp] theorem State.modCtl_pend (s : State) (k : Nat) (f : Controller → Controller) : (s.modCtl k f).pend = s.pend := rfl
@[simp] theorem State.modCtl_ctrl (s : State) (k : Nat) (f : Controller → Controller) : (s.modCtl k f).ctrl = s.ctrl.set k (f (s.ctl k)) := rfl
@[simp] theorem State.modCtl_rx (s : State) (k : Nat) (f : Controller → Controller) : (s.modCtl k f).rx = s.rx := rfl
@[simp] theorem State.modCtl_tx (s : State) (k : Nat) (f : Controller → Controller) : (s.modCtl k f).tx = s.tx := rfl
@[simp] theorem State.modCtl_arrivals (s : State) (k : Nat) (f : Controller → Controller) : (s.modCtl k f).arrivals = s.arrivals := rfl
@[simp] theorem State.modCtl_loopback (s : State) (k : Nat) (f : Controller → Controller) : (s.modCtl k f).loopback = s.loopback := rfl
@[simp] theorem State.modCtl_polls (s : State) (k : Nat) (f : Controller → Controller) : (s.modCtl k f).polls = s.polls := rfl
@[simp] theorem State.modCtl_waits (s : State) (k : Nat) (f : Controller → Controller) : (s.modCtl k f).waits = s.waits := rfl
@[simp] theorem State.modCtl_requests (s : State) (k : Nat) (f : Controller → Controller) : (s.modCtl k f).requests = s.requests := rfl
@[simp] theorem State.modCtl_responses (s : State) (k : Nat) (f : Controller → Controller) : (s.modCtl k f).responses = s.responses := rfl

@[simp] theorem pendAppend_cfg (r : ExchangeResult) (s : State) : (pendAppend r s).cfg = s.cfg := rfl
@[simp] theorem pendAppend_reg (r : ExchangeResult) (s : State) : (pendAppend r s).reg = s.reg := rfl
@[simp] theorem pendAppend_pend (r : ExchangeResult) (s : State) : (pendAppend r s).pend = s.pend ++ [r] := rfl
@[simp] theorem pendAppend_ctrl (r : ExchangeResult) (s : State) : (pendAppend r s).ctrl = s.ctrl := rfl
@[simp] theorem pendAppend_rx (r : ExchangeResult) (s : State) : (pendAppend r s).rx = s.rx := rfl
@[simp] theorem pendAppend_tx (r : ExchangeResult) (s : State) : (pendAppend r s).tx = s.tx := rfl
@[simp] theorem pendAppend_arrivals (r : ExchangeResult) (s : State) : (pendAppend r s).arrivals = s.arrivals := rfl
@[simp] theorem pendAppend_loopback (r : ExchangeResult) (s : State) : (pendAppend r s).loopback = s.loopback := rfl
@[simp] theorem pendAppend_polls (r : ExchangeResult) (s : State) : (pendAppend r s).polls = s.polls := rfl
@[simp] theorem pendAppend_waits (r : ExchangeResult) (s : State) : (pendAppend r s).waits = s.waits := rfl
@[simp] theorem pendAppend_requests (r : ExchangeResult) (s : State) : (pendAppend r s).requests = s.requests := rfl
@[simp] theorem pendAppend_responses (r : ExchangeResult) (s : State) : (pendAppend r s).responses = s.responses := rfl

@[simp] theorem pendTake_cfg (i : Nat) (s : State) : ((pendTake i s).2).cfg = s.cfg := rfl
@[simp] theorem pendTake_reg (i : Nat) (s : State) : ((pendTake i s).2).reg = s.reg := rfl
@[simp] theorem pendTake_pend (i : Nat) (s : State) : ((pendTake i s).2).pend = s.pend.eraseIdx i := rfl
@[simp] theorem pendTake_ctrl (i : Nat) (s : State) : ((pendTake i s).2).ctrl = s.ctrl := rfl
@[simp] theorem pendTake_rx (i : Nat) (s : State) : ((pendTake i s).2).rx = s.rx := rfl
@[simp] theorem pendTake_tx (i : Nat) (s : State) : ((pendTake i s).2).tx = s.tx := rfl
@[simp] theorem pendTake_arrivals (i : Nat) (s : State) : ((pendTake i s).2).arrivals = s.arrivals := rfl
@[simp] theorem pendTake_loopback (i : Nat) (s : State) : ((pendTake i s).2).loopback = s.loopback := rfl
@[simp] theorem pendTake_polls (i : Nat) (s : State) : ((pendTake i s).2).polls = s.polls := rfl
@[simp] theorem pendTake_waits (i : Nat) (s : State) : ((pendTake i s).2).waits = s.waits := rfl
@[simp] theorem pendTake_requests (i : Nat) (s : State) : ((pendTake i s).2).requests = s.requests := rfl
@[simp] theorem pendTake_responses (i : Nat) (s : State) : ((pendTake i s).2).responses = s.responses := rfl

@[simp] theorem placeRequest_cfg (r : List Byte) (s : State) : (placeRequest r s).cfg = s.cfg := rfl
@[simp] theorem placeRequest_reg (r : List Byte) (s : State) : (placeRequest r s).reg = s.reg := rfl
@[simp] theorem placeRequest_pend (r : List Byte) (s : State) : (placeRequest r s).pend = s.pend := rfl
@[simp] theorem placeRequest_ctrl (r : List Byte) (s : State) : (placeRequest r s).ctrl = s.ctrl := rfl
@[simp] theorem placeRequest_rx (r : List Byte) (s : State) : (placeRequest r s).rx = s.rx := rfl
@[simp] theorem placeRequest_tx (r : List Byte) (s : State) : (placeRequest r s).tx = s.tx := rfl
@[simp] theorem placeRequest_arrivals (r : List Byte) (s : State) : (placeRequest r s).arrivals = s.arrivals := rfl
@[simp] theorem placeRequest_loopback (r : List Byte) (s : State) : (placeRequest r s).loopback = s.loopback := rfl
@[simp] theorem placeRequest_polls (r : List Byte) (s : State) : (placeRequest r s).polls = s.polls := rfl
@[simp] theorem placeRequest_waits (r : List Byte) (s : State) : (placeRequest r s).waits = s.waits := rfl
@[simp] theorem placeRequest_requests (r : List Byte) (s : State) : (placeRequest r s).requests = r :: s.requests := rfl
@[simp] theorem placeRequest_responses (r : List Byte) (s : State) : (placeRequest r s).responses = s.responses := rfl

/-! ### Reading a controller slot -/

@[simp] theorem State.ctl_respond (s : State) (r : List Byte) (k : Nat) : (s.respond r).ctl k = s.ctl k := rfl

@[simp] theorem State.ctl_pendAppend (s : State) (r : ExchangeResult) (k : Nat) : (pendAppend r s).ctl k = s.ctl k := rfl

/-- Two states with the same slots read the same. -/
theorem State.ctl_congr {s t : State} (h : t.ctrl = s.ctrl) (k : Nat) : t.ctl k = s.ctl k := by
  rw [State.ctl, State.ctl, h]

/-- A slot that exists reads as what was written to it. -/
theorem State.ctl_setCtl_self (s : State) (k : Nat) (c : Controller) (h : k < s.ctrl.length) :
    (s.setCtl k c).ctl k = c := by
  simp [State.ctl, h]

/-- A write to one slot leaves every other slot as it was. -/
theorem State.ctl_setCtl_other (s : State) (k j : Nat) (c : Controller) (h : j ≠ k) :
    (s.setCtl k c).ctl j = s.ctl j := by
  simp [State.ctl, List.getD, List.getElem?_set_ne (Ne.symm h)]

theorem State.ctl_modCtl_self (s : State) (k : Nat) (f : Controller → Controller) (h : k < s.ctrl.length) :
    (s.modCtl k f).ctl k = f (s.ctl k) := State.ctl_setCtl_self s k _ h

theorem State.ctl_modCtl_other (s : State) (k j : Nat) (f : Controller → Controller) (h : j ≠ k) :
    (s.modCtl k f).ctl j = s.ctl j := State.ctl_setCtl_other s k j _ h

/-- A live slot is one of the slots: a slot beyond them reads as a blank one, which is not live. -/
theorem State.lt_of_live {s : State} {k : Nat} (h : (s.ctl k).live = true) : k < s.ctrl.length := by
  by_contra hk
  simp [State.ctl, List.getD_eq_getElem?_getD, List.getElem?_eq_none (Nat.le_of_not_lt hk), Controller.blank] at h

/-- A slot that exists is a member of the list of slots. -/
theorem State.ctl_mem {s : State} {k : Nat} (h : k < s.ctrl.length) : s.ctl k ∈ s.ctrl := by
  simp [State.ctl, List.getD_eq_getElem?_getD, h]

end Sys2Proof.Machine
end

