-- ==== Sys2Proof/Laws/Transport.lean ====
section
/-! SUPPORT. What the transport primitives and the two bounded waits can do, said once for each. -/

namespace Sys2Proof.Machine

/-! ### The bus environment's act -/

@[simp] theorem busAct_cfg (s : State) : (busAct s).cfg = s.cfg := by unfold busAct; split <;> rfl
@[simp] theorem busAct_reg (s : State) : (busAct s).reg = s.reg := by unfold busAct; split <;> rfl
@[simp] theorem busAct_pend (s : State) : (busAct s).pend = s.pend := by unfold busAct; split <;> rfl
@[simp] theorem busAct_ctrl (s : State) : (busAct s).ctrl = s.ctrl := by unfold busAct; split <;> rfl
@[simp] theorem busAct_tx (s : State) : (busAct s).tx = s.tx := by unfold busAct; split <;> rfl
@[simp] theorem busAct_loopback (s : State) : (busAct s).loopback = s.loopback := by unfold busAct; split <;> rfl
@[simp] theorem busAct_polls (s : State) : (busAct s).polls = s.polls := by unfold busAct; split <;> rfl
@[simp] theorem busAct_waits (s : State) : (busAct s).waits = s.waits := by unfold busAct; split <;> rfl
@[simp] theorem busAct_requests (s : State) : (busAct s).requests = s.requests := by unfold busAct; split <;> rfl
@[simp] theorem busAct_responses (s : State) : (busAct s).responses = s.responses := by unfold busAct; split <;> rfl

/-- The bus's act brings bytes into `RX` in the order they were to come. -/
@[simp] theorem stream_busAct (s : State) : stream (busAct s) = stream s := by
  unfold busAct stream; split <;> simp_all

/-- Where nothing arrives, the bus's act leaves `RX` alone. -/
theorem busAct_rx_quiet {s : State} (h : NothingArrives s) : (busAct s).rx = s.rx := by
  unfold NothingArrives at h
  unfold busAct; split
  · rfl
  · simp_all

theorem nothingArrives_busAct {s : State} (h : NothingArrives s) : NothingArrives (busAct s) := by
  unfold NothingArrives at h ⊢
  unfold busAct; split
  · exact h
  · rename_i heq
    rw [heq] at h
    simp only [List.flatten_cons, List.append_eq_nil_iff] at h
    exact h.2

/-- Only the bus has moved across its own act. -/
theorem onlyBusMoved_busAct (s : State) : OnlyBusMoved s (busAct s) := by constructor <;> simp

@[simp] theorem bytesToCome_eq (s : State) : bytesToCome s = (stream s).length := by
  simp [bytesToCome, toArrive, stream]

/-- A state with an empty stream has an empty `RX`, and nothing arrives. -/
theorem rx_nil_of_stream {s : State} (h : stream s = []) : s.rx = [] ∧ NothingArrives s := by
  simpa [stream, NothingArrives] using h

/-! ### RxCount, RxPop, PollWait -/

/-- `RxCount()` is the length of `RX` after the bus's act, and changes nothing else (20_memory.md R64). -/
@[simp] theorem rxCount_eq (s : State) : rxCount s = ((busAct s).rx.length, busAct s) := rfl

/-- The bus's act never takes bytes away from `RX`. -/
theorem busAct_rx_ne_nil {s : State} (h : s.rx ≠ []) : (busAct s).rx ≠ [] := by
  unfold busAct; split <;> simp_all

/-- `RxPop()` with bytes waiting gives the first byte of the stream (60_exceptions.md R219). -/
theorem rxPop_spec {s : State} (h : s.rx ≠ []) :
    ∃ b t, rxPop s = .ok (b, t) ∧ stream s = b :: stream t ∧ OnlyBusMoved s t ∧ t.polls = s.polls := by
  obtain ⟨b, rest, hb⟩ := List.exists_cons_of_ne_nil (busAct_rx_ne_nil h)
  refine ⟨b, { busAct s with rx := rest }, ?_, ?_, ?_, ?_⟩
  · simp [rxPop, hb]
  · rw [← stream_busAct s]; simp [stream, hb]
  · constructor <;> simp
  · simp

/-- `PollWait()` counts one tick and moves only the bus. -/
theorem pollWait_spec (s : State) :
    OnlyBusMoved s (pollWait s) ∧ stream (pollWait s) = stream s ∧ (pollWait s).polls = s.polls + 1 := by
  refine ⟨by constructor <;> simp [pollWait], ?_, by simp [pollWait]⟩
  rw [← stream_busAct s]; rfl

theorem OnlyBusMoved.trans {s t u : State} (h₁ : OnlyBusMoved s t) (h₂ : OnlyBusMoved t u) : OnlyBusMoved s u :=
  ⟨h₂.cfg.trans h₁.cfg, h₂.reg.trans h₁.reg, h₂.pend.trans h₁.pend, h₂.ctrl.trans h₁.ctrl, h₂.tx.trans h₁.tx,
    h₂.loopback.trans h₁.loopback, h₂.requests.trans h₁.requests, h₂.responses.trans h₁.responses⟩

theorem OnlyBusMoved.refl (s : State) : OnlyBusMoved s s := ⟨rfl, rfl, rfl, rfl, rfl, rfl, rfl, rfl⟩

/-! ### The receive state machine over a byte sequence -/

@[simp] theorem fsmFrom_nil (cfg : Config) (start : RxPhase × List Byte) : fsmFrom cfg start [] = start := rfl

@[simp] theorem fsmFrom_cons (cfg : Config) (start : RxPhase × List Byte) (b : Byte) (bs : List Byte) :
    fsmFrom cfg start (b :: bs) = fsmFrom cfg (rxStep cfg start.1 start.2 b) bs := rfl

@[simp] theorem fsmFrom_append (cfg : Config) (start : RxPhase × List Byte) (bs cs : List Byte) :
    fsmFrom cfg start (bs ++ cs) = fsmFrom cfg (fsmFrom cfg start bs) cs := by
  simp [fsmFrom]

/-! ### The raw read -/

/-- How a raw read that starts in `start` ends after it has consumed the bytes p (40_receive.md R105): at the byte that
completes a frame, with that frame's classification, or at the end of the window with `NOMSG`. -/
def ReadEnds (cfg : Config) (start : RxPhase × List Byte) (p : List Byte) (r : ExchangeResult) (windowOver : Prop) : Prop :=
  (∃ q b, p = q ++ [b] ∧ (fsmFrom cfg start q).1 ≠ .stop ∧ (fsmFrom cfg start p).1 = .stop
      ∧ r = classify cfg (fsmFrom cfg start p).2)
  ∨ ((fsmFrom cfg start p).1 ≠ .stop ∧ r = noMessage cfg ∧ windowOver)

/-- The raw read's loop, with enough fuel, always ends; it consumes a prefix of the stream, moves nothing but the bus, and
spends at most the poll ticks that are left. -/
theorem readRawLoop_spec (fuel : Nat) (st : RxPhase) (buf : List Byte) (ticks : Nat) (s : State) (hst : st ≠ .stop)
    (hticks : ticks ≤ s.cfg.readPollLimit) (hfuel : (stream s).length + (s.cfg.readPollLimit - ticks) < fuel) :
    ∃ r t p, readRawLoop fuel st buf ticks s = .ok (r, t) ∧ OnlyBusMoved s t ∧ stream s = p ++ stream t
      ∧ s.polls ≤ t.polls ∧ t.polls + ticks ≤ s.polls + s.cfg.readPollLimit
      ∧ ReadEnds s.cfg (st, buf) p r (t.rx = [] ∧ t.polls + ticks = s.polls + s.cfg.readPollLimit) := by
  induction fuel generalizing st buf ticks s with
  | zero => omega
  | succ fuel ih =>
    unfold readRawLoop
    rw [rxCount_eq]
    dsimp only
    by_cases hrx : 0 < (busAct s).rx.length
    · obtain ⟨b, t, hpop, hstream, hmove, hpolls⟩ := rxPop_spec (s := busAct s) (List.ne_nil_of_length_pos hrx)
      rw [stream_busAct] at hstream
      have hmove' : OnlyBusMoved s t := (onlyBusMoved_busAct s).trans hmove
      simp only [hrx, if_true, hpop, hmove'.cfg]
      by_cases hstop : (rxStep s.cfg st buf b).1 = .stop
      · refine ⟨classify s.cfg (rxStep s.cfg st buf b).2, t, [b], ?_, hmove', by simpa using hstream, ?_, ?_, ?_⟩
        · simp only [hstop, if_true]
        · simp [hpolls]
        · simp only [hpolls, busAct_polls]; omega
        · exact .inl ⟨[], b, rfl, by simpa using hst, by simpa using hstop, by simp⟩
      · simp only [hstop, if_false]
        have hlen : (stream s).length = (stream t).length + 1 := by rw [hstream]; simp
        obtain ⟨r, u, p, hrun, hmv, hst', hp₁, hp₂, hend⟩ :=
          ih (rxStep s.cfg st buf b).1 (rxStep s.cfg st buf b).2 ticks t hstop (by rw [hmove'.cfg]; exact hticks)
            (by rw [hmove'.cfg]; omega)
        rw [hmove'.cfg] at hp₂ hend
        simp only [busAct_polls] at hpolls
        rw [hpolls] at hp₁ hp₂ hend
        refine ⟨r, u, b :: p, hrun, hmove'.trans hmv, by rw [hstream, hst']; rfl, hp₁, hp₂, ?_⟩
        rcases hend with ⟨q, c, hq, hns, hs, hr⟩ | ⟨hns, hr, hw⟩
        · exact .inl ⟨b :: q, c, by rw [hq]; rfl, by simpa using hns, by simpa using hs, by simpa using hr⟩
        · exact .inr ⟨by simpa using hns, hr, hw⟩
    · simp only [hrx, if_false, busAct_cfg]
      have hnil : (busAct s).rx = [] := List.eq_nil_of_length_eq_zero (by omega)
      by_cases hlim : ticks = s.cfg.readPollLimit
      · refine ⟨noMessage s.cfg, busAct s, [], by simp [hlim], onlyBusMoved_busAct s, by simp, by simp, by simp [hlim], ?_⟩
        exact .inr ⟨by simpa using hst, rfl, hnil, by simp [hlim]⟩
      · simp only [hlim, if_false]
        obtain ⟨hmv, hstr, hpl⟩ := pollWait_spec (busAct s)
        have hmove' : OnlyBusMoved s (pollWait (busAct s)) := (onlyBusMoved_busAct s).trans hmv
        rw [stream_busAct] at hstr
        rw [busAct_polls] at hpl
        obtain ⟨r, u, p, hrun, hmv', hst', hp₁, hp₂, hend⟩ :=
          ih st buf (ticks + 1) (pollWait (busAct s)) hst (by rw [hmove'.cfg]; omega) (by rw [hmove'.cfg, hstr]; omega)
        rw [hmove'.cfg] at hp₂ hend
        rw [hpl] at hp₁ hp₂ hend
        refine ⟨r, u, p, hrun, hmove'.trans hmv', by rw [← hstr, hst'], by omega, by omega, ?_⟩
        rcases hend with h | ⟨hns, hr, hw, hw'⟩
        · exact .inl h
        · exact .inr ⟨hns, hr, hw, by omega⟩

/-- The raw read always ends (00_scope.md R21): it consumes a prefix of the stream, moves nothing but the bus, spends at most
`READ_POLL_LIMIT` poll ticks, and answers as `ReadEnds` says (40_receive.md R105). -/
theorem readRaw_spec (s : State) :
    ∃ r t p, readRaw s = .ok (r, t) ∧ OnlyBusMoved s t ∧ stream s = p ++ stream t
      ∧ s.polls ≤ t.polls ∧ t.polls ≤ s.polls + s.cfg.readPollLimit
      ∧ ReadEnds s.cfg (.idle, []) p r (t.rx = [] ∧ t.polls = s.polls + s.cfg.readPollLimit) := by
  have h := readRawLoop_spec (bytesToCome s + s.cfg.readPollLimit + 1) .idle [] 0 s (by decide) (by omega)
    (by simp)
  simpa [readRaw] using h

/-- A raw read of a quiet bus with nothing waiting answers `NOMSG` after exactly `READ_POLL_LIMIT` poll ticks
(40_receive.md R105, corner case 5). -/
theorem readRaw_quiet {s : State} (h : stream s = []) :
    ∃ t, readRaw s = .ok (noMessage s.cfg, t) ∧ OnlyBusMoved s t ∧ stream t = []
      ∧ t.polls = s.polls + s.cfg.readPollLimit := by
  obtain ⟨r, t, p, hr, hm, hs, -, -, hend⟩ := readRaw_spec s
  rw [h] at hs
  obtain ⟨hp, ht⟩ := List.append_eq_nil_iff.mp hs.symm
  subst hp
  rcases hend with ⟨q, b, hq, -⟩ | ⟨-, hr', -, hpolls⟩
  · simp at hq
  · exact ⟨t, by rw [hr, hr'], hm, ht, hpolls⟩

/-- Stop is terminal (40_receive.md R106). -/
theorem fsmFrom_stop (cfg : Config) (buf bs : List Byte) : fsmFrom cfg (.stop, buf) bs = (.stop, buf) := by
  induction bs with
  | nil => rfl
  | cons b rest ih => rw [fsmFrom_cons]; exact ih

/-- A machine that has not stopped after some bytes has stopped after no part of them. -/
theorem fsmFrom_ne_stop_of_append {cfg : Config} {start : RxPhase × List Byte} {p q : List Byte}
    (h : (fsmFrom cfg start (p ++ q)).1 ≠ .stop) : (fsmFrom cfg start p).1 ≠ .stop := by
  intro hp
  rw [fsmFrom_append] at h
  have : fsmFrom cfg start p = (.stop, (fsmFrom cfg start p).2) := Prod.ext hp rfl
  rw [this, fsmFrom_stop] at h
  exact h rfl

/-- Bytes other than START and STOP are collected, up to 17 in all, once the destination has passed its check
(40_receive.md R109, R110). -/
theorem fsmFrom_collect {cfg : Config} {buf bs : List Byte} (hbuf : 3 ≤ buf.length) (hlen : buf.length + bs.length ≤ maxFrame - 1)
    (hbytes : ∀ b ∈ bs, isFraming b = false) : fsmFrom cfg (.collect, buf) bs = (.collect, buf ++ bs) := by
  induction bs generalizing buf with
  | nil => simp
  | cons b rest ih =>
    simp only [List.mem_cons, forall_eq_or_imp, isFraming, Bool.or_eq_false_iff, beq_eq_false_iff_ne] at hbytes
    simp only [List.length_cons, maxFrame] at hlen
    rw [fsmFrom_cons]
    have hstep : rxStep cfg .collect buf b = (.collect, buf ++ [b]) := by
      have h₁ : ¬ buf.length = 2 := by omega
      have h₂ : ¬ buf.length = 17 := by omega
      simp [rxStep, hbytes.1.1, hbytes.1.2, h₁, h₂, maxFrame]
    rw [hstep, ih (by simp; omega) (by simp [maxFrame]; omega) (fun x hx => by simpa [isFraming] using hbytes.2 x hx)]
    simp

/-- A raw read whose first waiting bytes are q and then the byte b that reaches Stop takes exactly those bytes, without a poll tick
(40_receive.md R105). -/
theorem readRaw_frame {s : State} {q behind : List Byte} {b : Byte} (hrx : s.rx = q ++ b :: behind)
    (hq : (fsmFrom s.cfg (.idle, []) q).1 ≠ .stop) (hb : (fsmFrom s.cfg (.idle, []) (q ++ [b])).1 = .stop) :
    ∃ t, readRaw s = .ok (classify s.cfg (fsmFrom s.cfg (.idle, []) (q ++ [b])).2, t) ∧ OnlyBusMoved s t
      ∧ t.polls = s.polls ∧ stream t = behind ++ s.arrivals.flatten := by
  have key : ∀ (q : List Byte) (fuel : Nat) (st : RxPhase) (buf : List Byte) (s : State) (more : List Byte),
      (∃ rest, s.rx = q ++ b :: rest ∧ more = rest ++ s.arrivals.flatten) → q.length < fuel →
      (fsmFrom s.cfg (st, buf) q).1 ≠ .stop → (fsmFrom s.cfg (st, buf) (q ++ [b])).1 = .stop →
      ∃ t, readRawLoop fuel st buf 0 s = .ok (classify s.cfg (fsmFrom s.cfg (st, buf) (q ++ [b])).2, t) ∧ OnlyBusMoved s t
        ∧ t.polls = s.polls ∧ stream t = more := by
    intro q
    induction q with
    | nil =>
      intro fuel st buf s more ⟨rest, hrx, hmore⟩ hfuel _ hstop
      obtain ⟨f, rfl⟩ : ∃ f, fuel = f + 1 := ⟨fuel - 1, by simp at hfuel; omega⟩
      have hne : (busAct s).rx ≠ [] := busAct_rx_ne_nil (by simp [hrx])
      obtain ⟨c, t, hpop, hstr, hmv, hpl⟩ := rxPop_spec hne
      have hs : stream s = b :: more := by simp [stream, hrx, hmore]
      rw [stream_busAct, hs] at hstr
      obtain ⟨rfl, hmore'⟩ : b = c ∧ more = stream t := by simpa using hstr
      have hmv' := (onlyBusMoved_busAct s).trans hmv
      refine ⟨t, ?_, hmv', by simpa using hpl, hmore'.symm⟩
      have hst : (rxStep s.cfg st buf b).1 = .stop := by simpa using hstop
      simp only [readRawLoop, rxCount_eq, List.length_pos_iff.mpr hne, if_true, hpop, hmv'.cfg, hst, List.nil_append, fsmFrom_cons, fsmFrom_nil]
    | cons a q ih =>
      intro fuel st buf s more ⟨rest, hrx, hmore⟩ hfuel hns hstop
      obtain ⟨f, rfl⟩ : ∃ f, fuel = f + 1 := ⟨fuel - 1, by simp at hfuel; omega⟩
      have hrx' : (busAct s).rx = a :: q ++ b :: (rest ++ s.arrivals.head?.getD []) := by
        unfold busAct; split <;> simp_all
      have hrx'' : (busAct (busAct s)).rx = a :: (q ++ b :: (rest ++ s.arrivals.head?.getD [] ++ (busAct s).arrivals.head?.getD [])) := by
        generalize busAct s = u at hrx'
        unfold busAct; split <;> simp_all
      have hne : (busAct s).rx ≠ [] := by simp [hrx']
      obtain ⟨c, t, hpop, hstr, hmv, hpl⟩ := rxPop_spec hne
      have hmv' := (onlyBusMoved_busAct s).trans hmv
      have ht : ∃ rest', t.rx = q ++ b :: rest' := by
        simp only [rxPop, hrx'', Except.ok.injEq, Prod.mk.injEq] at hpop
        rw [← hpop.2]; exact ⟨_, rfl⟩
      obtain ⟨rest', hrest'⟩ := ht
      have hs : stream s = a :: (q ++ b :: more) := by simp [stream, hrx, hmore]
      rw [stream_busAct, hs] at hstr
      obtain ⟨rfl, htail⟩ : a = c ∧ q ++ b :: more = stream t := by simpa using hstr
      have hmore' : more = rest' ++ t.arrivals.flatten := by
        rw [stream, hrest'] at htail
        simpa using htail
      have hst : (rxStep s.cfg st buf a).1 ≠ .stop := by
        have := fsmFrom_ne_stop_of_append (p := [a]) (q := q) (start := (st, buf)) (cfg := s.cfg) (by simpa using hns)
        simpa using this
      obtain ⟨u, hrun, hm, hp, hstream⟩ := ih f (rxStep s.cfg st buf a).1 (rxStep s.cfg st buf a).2 t more
        ⟨rest', hrest', hmore'⟩ (by simp at hfuel; omega) (by rw [hmv'.cfg]; simpa using hns)
        (by rw [hmv'.cfg]; simpa using hstop)
      refine ⟨u, ?_, hmv'.trans hm, hp.trans (by simpa using hpl), hstream⟩
      rw [hmv'.cfg] at hrun
      simp only [readRawLoop, rxCount_eq, List.length_pos_iff.mpr hne, if_true, hpop, hmv'.cfg, hst, if_false, hrun,
        List.cons_append, fsmFrom_cons]
  have hlen : q.length < bytesToCome s + s.cfg.readPollLimit + 1 := by
    rw [bytesToCome_eq, stream, hrx]; simp; omega
  exact key q _ .idle [] s _ ⟨behind, hrx, rfl⟩ hlen hq hb

/-! ### Transmission -/

/-- What `TxPush(b)` changes: the log grows by the byte; the other fields but `RX` and the bus are the same. -/
theorem txPush_spec (b : Byte) (s : State) :
    OnlyEngineMoved s (txPush b s) ∧ (txPush b s).pend = s.pend ∧ (txPush b s).polls = s.polls
      ∧ (txPush b s).tx = s.tx ++ [.byte b] := by
  refine ⟨by constructor <;> simp [txPush], ?_, ?_, ?_⟩ <;> simp [txPush]

theorem OnlyEngineMoved.refl (s : State) : OnlyEngineMoved s s := ⟨rfl, rfl, rfl, rfl, rfl, rfl⟩

theorem OnlyEngineMoved.trans {s t u : State} (h₁ : OnlyEngineMoved s t) (h₂ : OnlyEngineMoved t u) :
    OnlyEngineMoved s u :=
  ⟨h₂.cfg.trans h₁.cfg, h₂.reg.trans h₁.reg, h₂.ctrl.trans h₁.ctrl, h₂.loopback.trans h₁.loopback,
    h₂.requests.trans h₁.requests, h₂.responses.trans h₁.responses⟩

theorem OnlyBusMoved.toEngine {s t : State} (h : OnlyBusMoved s t) : OnlyEngineMoved s t :=
  ⟨h.cfg, h.reg, h.ctrl, h.loopback, h.requests, h.responses⟩

theorem pushAll_spec (bytes : List Byte) (s : State) :
    OnlyEngineMoved s (pushAll bytes s) ∧ (pushAll bytes s).pend = s.pend ∧ (pushAll bytes s).polls = s.polls
      ∧ (pushAll bytes s).tx = s.tx ++ bytes.map TxEvent.byte := by
  induction bytes generalizing s with
  | nil => exact ⟨.refl s, rfl, rfl, by simp [pushAll]⟩
  | cons b rest ih =>
    obtain ⟨h₁, h₂, h₃, h₄⟩ := txPush_spec b s
    obtain ⟨g₁, g₂, g₃, g₄⟩ := ih (txPush b s)
    refine ⟨h₁.trans g₁, g₂.trans h₂, g₃.trans h₃, ?_⟩
    simp only [pushAll, g₄, h₄, List.map_cons, List.append_assoc, List.cons_append, List.nil_append]

/-- Transmission (41_bus_ops.md R135): the log grows by the bytes and the flush; the registry, the pending buffer, the
controllers and the poll ticks are the same. -/
theorem transmit_spec (bytes : List Byte) (s : State) :
    OnlyEngineMoved s (transmit bytes s) ∧ (transmit bytes s).pend = s.pend ∧ (transmit bytes s).polls = s.polls
      ∧ (transmit bytes s).tx = s.tx ++ transmission bytes := by
  obtain ⟨g₁, g₂, g₃, g₄⟩ := pushAll_spec bytes s
  refine ⟨g₁.trans (by constructor <;> simp [transmit, txFlush]), ?_, ?_, ?_⟩
  · simpa [transmit, txFlush] using g₂
  · simpa [transmit, txFlush] using g₃
  · simp [transmit, txFlush, g₄, transmission]

theorem stream_txFlush (s : State) : stream (txFlush s) = stream s := by
  rw [← stream_busAct s]; rfl

/-- Without an echo, a transmission leaves the bytes the bus brings as they were. -/
theorem transmit_stream {bytes : List Byte} {s : State} (h : s.loopback = false) :
    stream (transmit bytes s) = stream s := by
  rw [transmit, stream_txFlush]
  induction bytes generalizing s with
  | nil => rfl
  | cons b rest ih =>
    rw [pushAll, ih (by simp [txPush, h]), ← stream_busAct s]
    simp [txPush, stream, h]

/-- Where nothing else arrives, a transmission leaves in `RX` what waited there and then its echo, if the line has one. -/
theorem transmit_rx {bytes : List Byte} {s : State} (h : NothingArrives s) :
    (transmit bytes s).rx = s.rx ++ (if s.loopback then bytes else []) ∧ NothingArrives (transmit bytes s) := by
  have key : ∀ (bytes : List Byte) (s : State), NothingArrives s →
      (pushAll bytes s).rx = s.rx ++ (if s.loopback then bytes else []) ∧ NothingArrives (pushAll bytes s) := by
    intro bytes
    induction bytes with
    | nil => intro s h; exact ⟨by simp [pushAll], h⟩
    | cons b rest ih =>
      intro s h
      have hq : NothingArrives (txPush b s) := nothingArrives_busAct h
      obtain ⟨h₁, h₂⟩ := ih _ hq
      refine ⟨?_, h₂⟩
      rw [pushAll, h₁]
      by_cases hl : s.loopback <;> simp [txPush, hl, busAct_rx_quiet h]
  obtain ⟨h₁, h₂⟩ := key bytes s h
  exact ⟨by simp [transmit, txFlush, busAct_rx_quiet h₂, h₁], nothingArrives_busAct h₂⟩

/-! ### The echo readback -/

/-- What the readback answers for the bytes it has got (41_bus_ops.md R136). -/
def EchoAnswer (tx got : List Byte) (status : Status) : Prop :=
  (status = .ok ∧ got = tx) ∨ (status = .busConflict ∧ got.length = tx.length ∧ got ≠ tx)
    ∨ (status = .hardwareFault ∧ got.length < tx.length)

/-- The readback's loop, with enough fuel, always ends; it consumes a prefix of the stream, never more bytes than were sent,
and moves nothing but the bus. -/
theorem echoLoop_spec (fuel : Nat) (tx got : List Byte) (ticks : Nat) (s : State) (hgot : got.length ≤ tx.length)
    (hticks : ticks ≤ s.cfg.echoPollLimit)
    (hfuel : (tx.length - got.length) + (s.cfg.echoPollLimit - ticks) < fuel) :
    ∃ status t p, echoLoop fuel tx got ticks s = .ok (status, t) ∧ OnlyBusMoved s t ∧ stream s = p ++ stream t
      ∧ s.polls ≤ t.polls ∧ t.polls + ticks ≤ s.polls + s.cfg.echoPollLimit
      ∧ EchoAnswer tx (got ++ p) status
      ∧ (status = .hardwareFault → t.rx = [] ∧ t.polls + ticks = s.polls + s.cfg.echoPollLimit) := by
  induction fuel generalizing got ticks s with
  | zero => omega
  | succ fuel ih =>
    unfold echoLoop
    rw [rxCount_eq]
    dsimp only
    by_cases hmore : 0 < (busAct s).rx.length ∧ got.length < tx.length
    · obtain ⟨b, t, hpop, hstream, hmove, hpolls⟩ := rxPop_spec (s := busAct s) (List.ne_nil_of_length_pos hmore.1)
      rw [stream_busAct] at hstream
      have hmove' : OnlyBusMoved s t := (onlyBusMoved_busAct s).trans hmove
      simp only [busAct_polls] at hpolls
      simp only [hmore.1, hmore.2, decide_true, Bool.and_self, if_true, hpop]
      obtain ⟨status, u, p, hrun, hmv, hst, hp₁, hp₂, hans, hhw⟩ :=
        ih (got ++ [b]) ticks t (by simp; omega) (by rw [hmove'.cfg]; exact hticks) (by rw [hmove'.cfg]; simp; omega)
      rw [hmove'.cfg] at hp₂ hhw
      rw [hpolls] at hp₁ hp₂ hhw
      exact ⟨status, u, b :: p, hrun, hmove'.trans hmv, by rw [hstream, hst]; rfl, hp₁, hp₂,
        by simpa using hans, hhw⟩
    · have hcond : (decide (0 < (busAct s).rx.length) && decide (got.length < tx.length)) = false := by simpa using hmore
      simp only [hcond, Bool.false_eq_true, if_false]
      by_cases hfull : got.length = tx.length
      · refine ⟨if got = tx then .ok else .busConflict, busAct s, [], by simp [hfull], onlyBusMoved_busAct s, by simp, by simp, by simp; omega, ?_, ?_⟩
        · by_cases heq : got = tx
          · exact .inl ⟨by simp [heq], by simpa using heq⟩
          · exact .inr (.inl ⟨by simp [heq], by simpa using hfull, by simpa using heq⟩)
        · intro h; split at h <;> simp at h
      · have hnil : (busAct s).rx = [] := by
          have : ¬ 0 < (busAct s).rx.length := fun h => hmore ⟨h, by omega⟩
          exact List.eq_nil_of_length_eq_zero (by omega)
        simp only [hfull, if_false, busAct_cfg]
        by_cases hlim : ticks = s.cfg.echoPollLimit
        · refine ⟨.hardwareFault, busAct s, [], by simp [hlim], onlyBusMoved_busAct s, by simp, by simp,
            by simp; omega, .inr (.inr ⟨rfl, by simp; omega⟩), ?_⟩
          exact fun _ => ⟨hnil, by simp [hlim]⟩
        · simp only [hlim, if_false]
          obtain ⟨hmv, hstr, hpl⟩ := pollWait_spec (busAct s)
          have hmove' : OnlyBusMoved s (pollWait (busAct s)) := (onlyBusMoved_busAct s).trans hmv
          rw [stream_busAct] at hstr
          rw [busAct_polls] at hpl
          obtain ⟨status, u, p, hrun, hmv', hst, hp₁, hp₂, hans, hhw⟩ :=
            ih got (ticks + 1) (pollWait (busAct s)) hgot (by rw [hmove'.cfg]; omega) (by rw [hmove'.cfg]; omega)
          rw [hmove'.cfg] at hp₂ hhw
          rw [hpl] at hp₁ hp₂ hhw
          exact ⟨status, u, p, hrun, hmove'.trans hmv', by rw [← hstr, hst], by omega, by omega, hans,
            fun h => ⟨(hhw h).1, by have := (hhw h).2; omega⟩⟩

/-- The readback always ends (00_scope.md R21): it consumes a prefix of the stream, at most as many bytes as were sent, spends at
most `ECHO_POLL_LIMIT` poll ticks, and answers as `EchoAnswer` says (41_bus_ops.md R136). -/
theorem echoVerify_spec (tx : List Byte) (s : State) :
    ∃ status t p, echoVerify tx s = .ok (status, t) ∧ OnlyBusMoved s t ∧ stream s = p ++ stream t
      ∧ s.polls ≤ t.polls ∧ t.polls ≤ s.polls + s.cfg.echoPollLimit ∧ EchoAnswer tx p status
      ∧ (status = .hardwareFault → t.rx = [] ∧ t.polls = s.polls + s.cfg.echoPollLimit) := by
  have h := echoLoop_spec (tx.length + s.cfg.echoPollLimit + 1) tx [] 0 s (by simp) (by omega) (by simp)
  simpa [echoVerify] using h

end Sys2Proof.Machine
end

