-- ==== Sys2Proof/Laws/Engine.lean ====
section
/-! SUPPORT. What the bus engine's operations can do, said once for each: classification, the registry, the pending buffer, the
address-directed read, and the write. -/

namespace Sys2Proof.Machine

/-! ### Classification -/

theorem lowNibble_lt (b : Byte) : lowNibble b < 16 := Nat.mod_lt _ (by decide)

theorem highNibble_lt (b : Byte) : highNibble b < 16 := by
  have := b.isLt
  unfold highNibble; omega

/-- Two packed digits are worth at most 15 + 150 (40_receive.md R121). -/
theorem bcdByte_le (b : Byte) : bcdByte b ≤ 165 := by
  have h₁ := lowNibble_lt b
  have h₂ := highNibble_lt b
  unfold bcdByte; omega

/-- `Fit` never makes a value larger (40_receive.md R120). -/
theorem fit_le (mode : NumericMode) (v : Nat) : fit mode v ≤ v := by
  cases mode
  · exact le_rfl
  · exact Nat.mod_le _ _

/-- Every value `NumVal` can produce is below 2^34 (40_receive.md R120). -/
theorem numVal_lt (mode : NumericMode) (d : List Byte) : numVal mode d < 2 ^ 34 := by
  refine lt_of_le_of_lt (fit_le mode _) ?_
  split
  · rename_i b
    have := b.isLt
    omega
  · rename_i d0 d1
    have h₀ := bcdByte_le d0
    have h₁ := bcdByte_le d1
    unfold bcdMsbFirst; omega
  · rename_i d0 d1 d2 d3 d4
    have h₀ := bcdByte_le d0
    have h₁ := bcdByte_le d1
    have h₂ := bcdByte_le d2
    have h₃ := bcdByte_le d3
    have h₄ := bcdByte_le d4
    unfold bcdLsbFirst; omega
  · decide

/-- `CmdLen` answers 1, 2 or 4 (30_encoding.md R82). -/
theorem isCommandLength_cmdLen (compound body : List Byte) : isCommandLength (cmdLen compound body) = true := by
  unfold cmdLen
  split
  · rfl
  · split
    · rfl
    · split <;> rfl

theorem noMessage_ok (cfg : Config) : ResultOk cfg (noMessage cfg) := by
  simp [ResultOk, noMessage]

theorem classifyBody_ok (cfg : Config) (src : Byte) (body : List Byte) : ResultOk cfg (classifyBody cfg src body) := by
  unfold classifyBody
  split
  · exact noMessage_ok cfg
  · rename_i b0 rest
    split
    · simp [ResultOk]
    · split
      · simp [ResultOk]
      · dsimp only
        split
        · exact noMessage_ok cfg
        · rename_i hlen
          have htake : ((b0 :: rest).take (cmdLen cfg.compound (b0 :: rest))).length
              = cmdLen cfg.compound (b0 :: rest) := List.length_take_of_le (by omega)
          have hcl := isCommandLength_cmdLen cfg.compound (b0 :: rest)
          split
          · exact noMessage_ok cfg
          · rename_i hdata
            split
            · refine ⟨by simp, by simp, .inr (by rw [htake]; exact hcl), by simp, by simp⟩
            · rename_i hne
              refine ⟨by simpa using hdata, numVal_lt _ _, .inr (by rw [htake]; exact hcl), fun _ => ⟨?_, ?_, ?_⟩,
                by simp⟩
              · simpa using hne
              · rw [htake]; exact hcl
              · rw [htake, List.take_append_drop]

/-- Every classification keeps the invariants of an ExchangeResult (10_state.md R25). -/
theorem classify_ok (cfg : Config) (buf : List Byte) : ResultOk cfg (classify cfg buf) := by
  unfold classify
  split
  · exact noMessage_ok cfg
  · exact classifyBody_ok cfg _ _

/-- A raw read's result keeps the invariants of an ExchangeResult. -/
theorem ReadEnds.resultOk {cfg : Config} {start : RxPhase × List Byte} {p : List Byte} {r : ExchangeResult} {w : Prop}
    (h : ReadEnds cfg start p r w) : ResultOk cfg r := by
  rcases h with ⟨q, b, -, -, -, rfl⟩ | ⟨-, rfl, -⟩
  · exact classify_ok cfg _
  · exact noMessage_ok cfg

/-! ### The registry -/

theorem registerAddress_spec (a : Byte) (s : State) :
    registerAddress a s = { s with reg := (registerAddress a s).reg } := by
  unfold registerAddress
  split
  · rfl
  · split
    · rfl
    · split <;> rfl

theorem unregisterAddress_spec (a : Byte) (s : State) :
    unregisterAddress a s = { s with reg := (unregisterAddress a s).reg } := by
  unfold unregisterAddress; split <;> rfl

@[simp] theorem registerAddress_cfg (a : Byte) (s : State) : (registerAddress a s).cfg = s.cfg := by
  rw [registerAddress_spec]
@[simp] theorem registerAddress_pend (a : Byte) (s : State) : (registerAddress a s).pend = s.pend := by
  rw [registerAddress_spec]
@[simp] theorem registerAddress_ctrl (a : Byte) (s : State) : (registerAddress a s).ctrl = s.ctrl := by
  rw [registerAddress_spec]
@[simp] theorem registerAddress_ctl (a : Byte) (s : State) (k : Nat) : (registerAddress a s).ctl k = s.ctl k :=
  State.ctl_congr (registerAddress_ctrl a s) k
@[simp] theorem unregisterAddress_cfg (a : Byte) (s : State) : (unregisterAddress a s).cfg = s.cfg := by
  rw [unregisterAddress_spec]
@[simp] theorem unregisterAddress_pend (a : Byte) (s : State) : (unregisterAddress a s).pend = s.pend := by
  rw [unregisterAddress_spec]
@[simp] theorem unregisterAddress_ctrl (a : Byte) (s : State) : (unregisterAddress a s).ctrl = s.ctrl := by
  rw [unregisterAddress_spec]
@[simp] theorem unregisterAddress_ctl (a : Byte) (s : State) (k : Nat) : (unregisterAddress a s).ctl k = s.ctl k :=
  State.ctl_congr (unregisterAddress_ctrl a s) k

/-- `RegKnown` asks for membership among the addresses other than the sentinel (20_memory.md R58). -/
theorem regKnown_iff (a : Byte) (s : State) : regKnown a s = true ↔ a ≠ s.cfg.addrNone ∧ a ∈ s.reg := by
  simp [regKnown]

/-- The lowest free slot is the first that holds the sentinel (20_memory.md R58). -/
theorem regFree_some {s : State} {i : Nat} (h : regFree s = some i) :
    i < s.reg.length ∧ s.reg[i]? = some s.cfg.addrNone ∧ ∀ j < i, s.reg[j]? ≠ some s.cfg.addrNone := by
  obtain ⟨hi, hp, hmin⟩ := List.findIdx?_eq_some_iff_getElem.mp h
  refine ⟨hi, by simpa [List.getElem?_eq_getElem hi] using hp, fun j hj => ?_⟩
  have hj' : j < s.reg.length := lt_trans hj hi
  simpa [List.getElem?_eq_getElem hj'] using hmin j hj

theorem regFree_none {s : State} : regFree s = none ↔ s.cfg.addrNone ∉ s.reg := by
  simp only [regFree, List.findIdx?_eq_none_iff, beq_eq_false_iff_ne]
  exact ⟨fun h hm => h _ hm rfl, fun h x hx he => h (he ▸ hx)⟩

/-- Putting a new value where a filtered-out one stood adds it to the filtered list, up to order. -/
theorem filter_set_nodup {l : List Byte} {i : Nat} {a z : Byte} (hi : l[i]? = some z) (ha : a ∉ l)
    (h : (l.filter (· != z)).Nodup) : ((l.set i a).filter (· != z)).Nodup := by
  induction l generalizing i with
  | nil => simp at hi
  | cons x rest ih =>
    cases i with
    | zero =>
      simp only [List.getElem?_cons_zero, Option.some.injEq] at hi
      subst hi
      simp only [List.mem_cons, not_or] at ha
      simp only [bne_self_eq_false, Bool.false_eq_true, not_false_eq_true, List.filter_cons_of_neg] at h
      have hne : (a != x) = true := by simpa using ha.1
      simp only [List.set_cons_zero, List.filter_cons, hne, if_true, List.nodup_cons]
      exact ⟨fun hm => ha.2 (List.mem_filter.mp hm).1, h⟩
    | succ i =>
      simp only [List.getElem?_cons_succ] at hi
      simp only [List.mem_cons, not_or] at ha
      by_cases hx : x = z
      · subst hx
        simp only [bne_self_eq_false, Bool.false_eq_true, not_false_eq_true, List.filter_cons_of_neg] at h
        simpa using ih hi ha.2 h
      · have hne : (x != z) = true := by simpa using hx
        simp only [List.filter_cons, hne, if_true, List.nodup_cons] at h
        simp only [List.set_cons_succ, List.filter_cons, hne, if_true, List.nodup_cons]
        refine ⟨fun hm => ?_, ih hi ha.2 h.2⟩
        obtain ⟨hmem, -⟩ := List.mem_filter.mp hm
        rcases List.mem_or_eq_of_mem_set hmem with hm' | he
        · exact h.1 (List.mem_filter.mpr ⟨hm', hne⟩)
        · exact ha.1 he.symm

/-- Clearing the slots of an address leaves the other addresses as they were. -/
theorem filter_map_clear (l : List Byte) (a z : Byte) :
    (l.map fun x => if x == a then z else x).filter (· != z) = (l.filter (· != z)).filter (· != a) := by
  induction l with
  | nil => rfl
  | cons x rest ih =>
    simp only [List.filter_filter] at ih ⊢
    rw [List.map_cons, List.filter_cons, List.filter_cons, ih]
    by_cases hxa : x = a
    · subst hxa; simp
    · simp [hxa]

/-- Registering keeps the registry in form (10_state.md R34). -/
theorem registerAddress_regOk {a : Byte} {s : State} (h : RegOk s) : RegOk (registerAddress a s) := by
  obtain ⟨hlen, hnd⟩ := h
  unfold registerAddress
  split
  · exact ⟨hlen, hnd⟩
  · rename_i hnone
    split
    · exact ⟨hlen, hnd⟩
    · rename_i hknown
      split
      · exact ⟨hlen, hnd⟩
      · rename_i i hfree
        obtain ⟨hi, hz, -⟩ := regFree_some hfree
        have hnot : a ∉ s.reg := fun hm => hknown ((regKnown_iff a s).mpr ⟨by simpa using hnone, hm⟩)
        exact ⟨by simpa using hlen, filter_set_nodup hz hnot hnd⟩

/-- Unregistering keeps the registry in form (10_state.md R34). -/
theorem unregisterAddress_regOk {a : Byte} {s : State} (h : RegOk s) : RegOk (unregisterAddress a s) := by
  obtain ⟨hlen, hnd⟩ := h
  unfold unregisterAddress
  split
  · exact ⟨hlen, hnd⟩
  · refine ⟨by simpa using hlen, ?_⟩
    dsimp only
    rw [filter_map_clear]
    exact hnd.filter _

/-! ### The pending buffer -/

/-- What a drain or a raw read for an address may add to the pending buffer (41_bus_ops.md R127, R133): nothing, or one data-class
result from a known address, where there is room. -/
def PendGrew (s t : State) : Prop :=
  t.pend = s.pend
  ∨ ∃ r, t.pend = s.pend ++ [r] ∧ s.pend.length < s.cfg.pendingCap ∧ r.status = .okWithData ∧ ResultOk s.cfg r
      ∧ regKnown r.src s = true

/-- What an engine operation may do to the pending buffer (10_state.md R35): as above, or take one entry out. -/
def PendMoved (s t : State) : Prop := PendGrew s t ∨ ∃ i, t.pend = s.pend.eraseIdx i

theorem PendOk.of_grew {s t : State} (h : PendOk s) (hcfg : t.cfg = s.cfg) (hm : PendGrew s t) : PendOk t := by
  obtain ⟨hlen, hall⟩ := h
  unfold PendOk
  rw [hcfg]
  rcases hm with he | ⟨r, he, hroom, hst, hok, -⟩
  · rw [he]; exact ⟨hlen, hall⟩
  · rw [he]
    refine ⟨by simpa using hroom, fun x hx => ?_⟩
    rcases List.mem_append.mp hx with hx | hx
    · exact hall x hx
    · rw [List.mem_singleton.mp hx]; exact ⟨hst, hok⟩

theorem PendOk.of_moved {s t : State} (h : PendOk s) (hcfg : t.cfg = s.cfg) (hm : PendMoved s t) : PendOk t := by
  rcases hm with hm | ⟨i, he⟩
  · exact h.of_grew hcfg hm
  · obtain ⟨hlen, hall⟩ := h
    unfold PendOk
    rw [hcfg, he]
    exact ⟨(List.length_eraseIdx_le s.pend i).trans hlen, fun r hr => hall r (List.mem_of_mem_eraseIdx hr)⟩

/-- `RegKnown` depends on the registry and the configuration only. -/
theorem regKnown_congr {s t : State} (hcfg : t.cfg = s.cfg) (hreg : t.reg = s.reg) (a : Byte) :
    regKnown a t = regKnown a s := by rw [regKnown, regKnown, hcfg, hreg]

theorem pendRoom_iff (s : State) : pendRoom s = true ↔ s.pend.length < s.cfg.pendingCap := by simp [pendRoom]

/-! ### The address-directed read -/

/-- `ReadFor(a)` with a buffered entry: it answers the entry and removes it, and nothing else changes (41_bus_ops.md R127, R130). -/
theorem readFor_buffered {a : Byte} {s : State} {i : Nat} (h : pendFind a s = some i) :
    readFor a s = .ok (s.pend.getD i (noMessage s.cfg), { s with pend := s.pend.eraseIdx i }) := by
  simp [readFor, h, pendTake]

/-- `ReadFor(a)` under backpressure: `NOMSG`, and nothing changes (41_bus_ops.md R129). -/
theorem readFor_full {a : Byte} {s : State} (h : pendFind a s = none) (hfull : pendRoom s = false) :
    readFor a s = .ok (noMessage s.cfg, s) := by
  simp [readFor, h, hfull]

/-- What sorting a raw result changes: nothing, or one entry appended to the pending buffer (41_bus_ops.md R128). -/
theorem sortResult_spec (a : Byte) (r : ExchangeResult) (s : State) :
    (((sortResult a r s) = (r, s) ∨ (sortResult a r s) = (noMessage s.cfg, s)))
      ∨ ((sortResult a r s) = (noMessage s.cfg, pendAppend r s) ∧ r.status = .okWithData ∧ regKnown r.src s = true) := by
  unfold sortResult
  split
  · exact .inl (.inl rfl)
  · split
    · exact .inl (.inl rfl)
    · split
      · rename_i h
        simp only [Bool.and_eq_true, Status.dataClass, beq_iff_eq] at h
        exact .inr ⟨rfl, h.1, h.2⟩
      · exact .inl (.inr rfl)

/-- `ReadFor(a)` always ends; it moves nothing but the bus and the pending buffer, spends at most `READ_POLL_LIMIT` poll ticks, and
answers a result in form (41_bus_ops.md R127, 70_reset_and_hazards.md R230, 10_state.md R25). -/
theorem readFor_spec (a : Byte) (s : State) :
    ∃ r t p, readFor a s = .ok (r, t) ∧ OnlyEngineMoved s t ∧ t.tx = s.tx ∧ PendMoved s t ∧ stream s = p ++ stream t
      ∧ s.polls ≤ t.polls ∧ t.polls ≤ s.polls + s.cfg.readPollLimit ∧ (PendOk s → ResultOk s.cfg r) := by
  cases hfind : pendFind a s with
  | some i =>
    refine ⟨_, _, [], readFor_buffered hfind, ⟨rfl, rfl, rfl, rfl, rfl, rfl⟩, rfl, .inr ⟨i, rfl⟩, rfl, le_rfl,
      Nat.le_add_right _ _, fun h => ?_⟩
    have hi : i < s.pend.length := (List.findIdx?_eq_some_iff_getElem.mp hfind).1
    rw [List.getD_eq_getElem _ _ hi]
    exact (h.2 _ (List.getElem_mem hi)).2
  | none =>
    cases hroom : pendRoom s with
    | false =>
      exact ⟨_, s, [], readFor_full hfind hroom, .refl s, rfl, .inl (.inl rfl), rfl, le_rfl, Nat.le_add_right _ _,
        fun _ => noMessage_ok _⟩
    | true =>
      obtain ⟨r, t, p, hrun, hmv, hst, hp₁, hp₂, hend⟩ := readRaw_spec s
      have heq : readFor a s = .ok (sortResult a r t) := by simp [readFor, hfind, hroom, hrun]
      have hok := hend.resultOk
      rcases sortResult_spec a r t with (hsame | hdrop) | ⟨happ, hdata, hknown⟩
      · exact ⟨r, t, p, by rw [heq, hsame], hmv.toEngine, hmv.tx, .inl (.inl hmv.pend), hst, hp₁, hp₂, fun _ => hok⟩
      · exact ⟨_, t, p, by rw [heq, hdrop], hmv.toEngine, hmv.tx, .inl (.inl hmv.pend), hst, hp₁, hp₂,
          fun _ => by rw [hmv.cfg]; exact noMessage_ok _⟩
      · refine ⟨_, pendAppend r t, p, by rw [heq, happ], ?_, hmv.tx, .inl (.inr ⟨r, ?_, ?_, hdata, hok, ?_⟩), hst,
          hp₁, hp₂, fun _ => by rw [hmv.cfg]; exact noMessage_ok _⟩
        · exact ⟨hmv.cfg, hmv.reg, hmv.ctrl, hmv.loopback, hmv.requests, hmv.responses⟩
        · simp [hmv.pend]
        · exact (pendRoom_iff s).mp hroom
        · rw [← regKnown_congr hmv.cfg hmv.reg]; exact hknown

/-- `ReadFor(a)` of a bus with no byte to come answers a buffered entry or `NOMSG`, and changes only the pending buffer. -/
theorem readFor_quiet {a : Byte} {s : State} (hs : stream s = []) (hfind : pendFind a s = none) :
    ∃ t, readFor a s = .ok (noMessage s.cfg, t) ∧ OnlyBusMoved s t ∧ stream t = [] := by
  cases hroom : pendRoom s with
  | false => exact ⟨s, readFor_full hfind hroom, .refl s, hs⟩
  | true =>
    obtain ⟨t, hrun, hmv, hst, -⟩ := readRaw_quiet hs
    refine ⟨t, ?_, hmv, hst⟩
    have hsort : sortResult a (noMessage s.cfg) t = (noMessage s.cfg, t) := by
      unfold sortResult
      split
      · rfl
      · simp [noMessage, Status.okClass]
    simp [readFor, hfind, hroom, hrun, hsort]

/-! ### The write -/

/-- The drain always ends; it moves nothing but the bus and the pending buffer, to which it may append one entry, and spends at most
`READ_POLL_LIMIT` poll ticks (41_bus_ops.md R133). -/
theorem drain_spec (s : State) :
    ∃ t p, drain s = .ok t ∧ OnlyEngineMoved s t ∧ t.tx = s.tx ∧ PendGrew s t ∧ stream s = p ++ stream t
      ∧ s.polls ≤ t.polls ∧ t.polls ≤ s.polls + s.cfg.readPollLimit := by
  unfold drain
  rw [rxCount_eq]
  dsimp only
  have h₀ := onlyBusMoved_busAct s
  by_cases hcond : (decide (0 < (busAct s).rx.length) && pendRoom (busAct s)) = true
  · obtain ⟨r, t, p, hrun, hmv, hst, hp₁, hp₂, hend⟩ := readRaw_spec (busAct s)
    have hroom : s.pend.length < s.cfg.pendingCap := by
      have := (Bool.and_eq_true _ _ ▸ hcond : _ ∧ _).2
      simpa using (pendRoom_iff (busAct s)).mp this
    have hmv' := h₀.trans hmv
    rw [stream_busAct] at hst
    rw [busAct_polls] at hp₁ hp₂
    rw [busAct_cfg] at hp₂ hend
    simp only [hcond, if_true, hrun]
    by_cases hkeep : (r.status.dataClass && regKnown r.src t) = true
    · have hk : r.status = .okWithData ∧ regKnown r.src t = true := by
        simpa [Bool.and_eq_true, Status.dataClass] using hkeep
      refine ⟨pendAppend r t, p, by simp [hkeep], ?_, hmv'.tx, .inr ⟨r, ?_, hroom, hk.1, hend.resultOk, ?_⟩, hst,
        hp₁, hp₂⟩
      · exact ⟨hmv'.cfg, hmv'.reg, hmv'.ctrl, hmv'.loopback, hmv'.requests, hmv'.responses⟩
      · simp [hmv'.pend]
      · rw [← regKnown_congr hmv'.cfg hmv'.reg]; exact hk.2
    · exact ⟨t, p, by simp [hkeep], hmv'.toEngine, hmv'.tx, .inl hmv'.pend, hst, hp₁, hp₂⟩
  · simp only [hcond]
    exact ⟨busAct s, [], rfl, h₀.toEngine, h₀.tx, .inl h₀.pend, by simp, by simp, by simp⟩

/-- With no byte to come, the drain does nothing. -/
theorem drain_quiet {s : State} (h : stream s = []) : drain s = .ok (busAct s) := by
  have hrx := (rx_nil_of_stream ((stream_busAct s).trans h)).1
  simp [drain, hrx]

/-- The poll ticks a write's echo readback may take (41_bus_ops.md R136). -/
def echoLimit (cfg : Config) (mode : WriteMode) : Nat :=
  match mode with
  | .fast => 0
  | .checked | .powerOn => cfg.echoPollLimit

/-- A write always ends (41_bus_ops.md R133 to R137, R141, R149, R150). Either it finds bytes waiting after the drain, answers BUS_BUSY and
transmits nothing, or it transmits its bytes exactly once; it moves nothing but the bus, the log and the pending buffer. -/
theorem busWrite_spec (mode : WriteMode) (a : Byte) (cmd data : List Byte) (s : State) :
    ∃ status t, busWrite mode a cmd data s = .ok (writeResult s.cfg status cmd, t) ∧ OnlyEngineMoved s t ∧ PendGrew s t
      ∧ s.polls ≤ t.polls ∧ t.polls ≤ s.polls + s.cfg.readPollLimit + echoLimit s.cfg mode
      ∧ ((status = .busBusy ∧ t.tx = s.tx)
        ∨ ((status = .ok ∨ mode ≠ .fast ∧ (status = .busConflict ∨ status = .hardwareFault))
            ∧ t.tx = s.tx ++ transmission (txBytes s.cfg mode a cmd data))) := by
  obtain ⟨d, p, hd, hde, hdtx, hdp, -, hd₁, hd₂⟩ := drain_spec s
  unfold busWrite
  simp only [hd]
  rw [rxCount_eq]
  dsimp only
  have hb := onlyBusMoved_busAct d
  have hcfg : (busAct d).cfg = s.cfg := hb.cfg.trans hde.cfg
  have hpend : ∀ t : State, t.pend = d.pend → PendGrew s t := by
    intro t ht; unfold PendGrew; rw [ht]; exact hdp
  by_cases hwait : 0 < (busAct d).rx.length
  · simp only [hwait, if_true, hcfg]
    exact ⟨.busBusy, busAct d, rfl, hde.trans hb.toEngine, hpend _ hb.pend, by simpa using hd₁,
      by simp only [busAct_polls]; omega, .inl ⟨rfl, hb.tx.trans hdtx⟩⟩
  · simp only [hwait, if_false, hcfg]
    obtain ⟨ht, htp, htpl, httx⟩ := transmit_spec (txBytes s.cfg mode a cmd data) (busAct d)
    have hmv := (hde.trans hb.toEngine).trans ht
    have htx : (transmit (txBytes s.cfg mode a cmd data) (busAct d)).tx
        = s.tx ++ transmission (txBytes s.cfg mode a cmd data) := by rw [httx, busAct_tx, hdtx]
    rw [busAct_polls] at htpl
    rw [busAct_pend] at htp
    have hecho : ∃ status t, echoVerify (txBytes s.cfg mode a cmd data)
          (transmit (txBytes s.cfg mode a cmd data) (busAct d)) = .ok (status, t) ∧ OnlyEngineMoved s t ∧ t.pend = d.pend
        ∧ d.polls ≤ t.polls ∧ t.polls ≤ d.polls + s.cfg.echoPollLimit
        ∧ t.tx = s.tx ++ transmission (txBytes s.cfg mode a cmd data)
        ∧ (status = .ok ∨ status = .busConflict ∨ status = .hardwareFault) := by
      obtain ⟨status, t, q, hrun, hm, -, h₁, h₂, hans, -⟩ := echoVerify_spec (txBytes s.cfg mode a cmd data)
        (transmit (txBytes s.cfg mode a cmd data) (busAct d))
      rw [hmv.cfg] at h₂
      refine ⟨status, t, hrun, hmv.trans hm.toEngine, hm.pend.trans htp, by omega, by omega, hm.tx.trans htx, ?_⟩
      rcases hans with ⟨h, -⟩ | ⟨h, -⟩ | ⟨h, -⟩ <;> simp [h]
    cases mode with
    | fast =>
      refine ⟨.ok, _, by simp only [hmv.cfg], hmv, hpend _ htp, by omega, by omega, .inr ⟨.inl rfl, htx⟩⟩
    | checked =>
      obtain ⟨status, t, hrun, hm, hp, h₁, h₂, htx', hstat⟩ := hecho
      refine ⟨status, t, by simp only [hrun, hm.cfg], hm, hpend _ hp, by omega, by simp only [echoLimit]; omega,
        .inr ⟨?_, htx'⟩⟩
      rcases hstat with h | h | h <;> simp [h]
    | powerOn =>
      obtain ⟨status, t, hrun, hm, hp, h₁, h₂, htx', hstat⟩ := hecho
      refine ⟨status, t, by simp only [hrun, hm.cfg], hm, hpend _ hp, by omega, by simp only [echoLimit]; omega,
        .inr ⟨?_, htx'⟩⟩
      rcases hstat with h | h | h <;> simp [h]

/-- Without an echo, a write consumes a part from the front of the stream, and nothing else of it changes (10_state.md R53). -/
theorem busWrite_order {mode : WriteMode} {a : Byte} {cmd data : List Byte} {s t : State} {r : ExchangeResult}
    (hl : s.loopback = false) (h : busWrite mode a cmd data s = .ok (r, t)) : ∃ p, stream s = p ++ stream t := by
  obtain ⟨d, p, hd, hde, -, -, hst, -, -⟩ := drain_spec s
  unfold busWrite at h
  simp only [hd] at h
  rw [rxCount_eq] at h
  dsimp only at h
  by_cases hwait : 0 < (busAct d).rx.length
  · simp only [hwait, if_true, Except.ok.injEq, Prod.mk.injEq] at h
    exact ⟨p, by rw [← h.2, stream_busAct, hst]⟩
  · simp only [hwait, if_false] at h
    have hsent : ∀ bytes, stream (transmit bytes (busAct d)) = stream d := fun bytes => by
      rw [transmit_stream (by simpa using hde.loopback.trans hl), stream_busAct]
    have hecho : ∀ bytes u st, echoVerify bytes (transmit bytes (busAct d)) = .ok (st, u) →
        ∃ p, stream s = p ++ stream u := fun bytes u st hu => by
      obtain ⟨st', u', q, hrun, -, hq, -⟩ := echoVerify_spec bytes (transmit bytes (busAct d))
      rw [hu] at hrun
      obtain ⟨-, rfl⟩ : st = st' ∧ u = u' := by simpa using hrun
      exact ⟨p ++ q, by rw [hst, ← hsent bytes, hq, List.append_assoc]⟩
    cases mode with
    | fast =>
      simp only [Except.ok.injEq, Prod.mk.injEq] at h
      exact ⟨p, by rw [← h.2, hsent, hst]⟩
    | checked =>
      simp only at h
      split at h
      · cases h
      · rename_i st u hu
        simp only [Except.ok.injEq, Prod.mk.injEq] at h
        rw [← h.2]; exact hecho _ _ _ hu
    | powerOn =>
      simp only at h
      split at h
      · cases h
      · rename_i st u hu
        simp only [Except.ok.injEq, Prod.mk.injEq] at h
        rw [← h.2]; exact hecho _ _ _ hu

/-- A write whose result is ignored ends in the state the write ends in (42_controller.md R155). -/
theorem busWrite'_spec (mode : WriteMode) (a : Byte) (cmd data : List Byte) (s : State) :
    ∃ t, busWrite' mode a cmd data s = .ok t ∧ OnlyEngineMoved s t ∧ PendGrew s t
      ∧ s.polls ≤ t.polls ∧ t.polls ≤ s.polls + s.cfg.readPollLimit + echoLimit s.cfg mode
      ∧ (t.tx = s.tx ∨ t.tx = s.tx ++ transmission (txBytes s.cfg mode a cmd data))
      ∧ (s.loopback = false → ∃ p, stream s = p ++ stream t) := by
  obtain ⟨status, t, hrun, hm, hp, h₁, h₂, htx⟩ := busWrite_spec mode a cmd data s
  refine ⟨t, by simp [busWrite', hrun], hm, hp, h₁, h₂, ?_, fun hl => busWrite_order hl hrun⟩
  rcases htx with ⟨-, h⟩ | ⟨-, h⟩
  · exact .inl h
  · exact .inr h

/-- A Fast write with no byte to come transmits its frame, and leaves the echo, if the line has one, in `RX`
(41_bus_ops.md R138). -/
theorem busWrite_fast_quiet {a : Byte} {cmd data : List Byte} {s : State} (h : stream s = []) :
    ∃ t, busWrite .fast a cmd data s = .ok (writeResult s.cfg .ok cmd, t) ∧ OnlyEngineMoved s t ∧ t.pend = s.pend
      ∧ t.polls = s.polls ∧ t.tx = s.tx ++ transmission (frame s.cfg a cmd data)
      ∧ t.rx = (if s.loopback then frame s.cfg a cmd data else []) ∧ NothingArrives t := by
  have hq : stream (busAct (busAct s)) = [] := by simpa using h
  obtain ⟨hrx, hna⟩ := rx_nil_of_stream hq
  obtain ⟨ht, htp, htpl, httx⟩ := transmit_spec (frame s.cfg a cmd data) (busAct (busAct s))
  obtain ⟨htrx, htna⟩ := transmit_rx (bytes := frame s.cfg a cmd data) hna
  have hm : OnlyEngineMoved s (transmit (frame s.cfg a cmd data) (busAct (busAct s))) :=
    ((onlyBusMoved_busAct s).trans (onlyBusMoved_busAct _)).toEngine.trans ht
  refine ⟨_, ?_, hm, by simpa using htp, by simpa using htpl, by simpa using httx, ?_, htna⟩
  · unfold busWrite
    simp only [drain_quiet h, rxCount_eq, hrx, List.length_nil, lt_self_iff_false, if_false, busAct_cfg, txBytes, hm.cfg]
  · simpa [hrx] using htrx

/-- The echo readback of a line that echoes at once and brings nothing else consumes the echo and answers OK (41_bus_ops.md R136). -/
theorem echoVerify_echo {tx : List Byte} {s : State} (hrx : s.rx = tx) (hna : NothingArrives s) :
    ∃ t, echoVerify tx s = .ok (.ok, t) ∧ OnlyBusMoved s t ∧ stream t = [] ∧ t.polls = s.polls := by
  have key : ∀ (rest got : List Byte) (fuel : Nat) (s : State), s.rx = rest → NothingArrives s →
      rest.length < fuel → tx = got ++ rest →
      ∃ t, echoLoop fuel tx got 0 s = .ok (.ok, t) ∧ OnlyBusMoved s t ∧ stream t = [] ∧ t.polls = s.polls := by
    intro rest
    induction rest with
    | nil =>
      intro got fuel s hrx hna hfuel htx
      obtain ⟨f, rfl⟩ := Nat.exists_eq_add_of_lt hfuel
      have hg : got = tx := by simpa using htx.symm
      have hrx' : (busAct s).rx = [] := (busAct_rx_quiet hna).trans hrx
      refine ⟨busAct s, ?_, onlyBusMoved_busAct s, by simp [stream, hrx', nothingArrives_busAct hna], by simp⟩
      simp [echoLoop, hrx', hg]
    | cons b rest ih =>
      intro got fuel s hrx hna hfuel htx
      obtain ⟨f, rfl⟩ : ∃ f, fuel = f + 1 := ⟨fuel - 1, by simp at hfuel; omega⟩
      have hna₁ := nothingArrives_busAct hna
      have hrx₁ : (busAct s).rx = b :: rest := (busAct_rx_quiet hna).trans hrx
      have hrx₂ : (busAct (busAct s)).rx = b :: rest := (busAct_rx_quiet hna₁).trans hrx₁
      have hlt : got.length < tx.length := by rw [htx]; simp
      obtain ⟨t, hrun, hmv, hst, hpl⟩ := ih (got ++ [b]) f { busAct (busAct s) with rx := rest } rfl
        (nothingArrives_busAct hna₁) (by simp at hfuel; omega) (by simpa using htx)
      refine ⟨t, ?_, ?_, hst, by simpa using hpl⟩
      · simp only [echoLoop, rxCount_eq, hrx₁, List.length_cons, Nat.zero_lt_succ, decide_true, hlt, Bool.and_self,
          if_true, rxPop, hrx₂]
        exact hrun
      · have h₂ := (onlyBusMoved_busAct s).trans (onlyBusMoved_busAct (busAct s))
        exact ⟨hmv.cfg.trans h₂.cfg, hmv.reg.trans h₂.reg, hmv.pend.trans h₂.pend, hmv.ctrl.trans h₂.ctrl,
          hmv.tx.trans h₂.tx, hmv.loopback.trans h₂.loopback, hmv.requests.trans h₂.requests,
          hmv.responses.trans h₂.responses⟩
  exact key tx [] _ s hrx hna (by omega) rfl

/-- A verified write on a line that echoes at once and brings nothing else: OK, with the echo consumed (41_bus_ops.md R139, R140). -/
theorem busWrite_verified_echo {mode : WriteMode} {a : Byte} {cmd data : List Byte} {s : State} (hmode : mode ≠ .fast)
    (h : stream s = []) (hl : s.loopback = true) :
    ∃ t, busWrite mode a cmd data s = .ok (writeResult s.cfg .ok cmd, t) ∧ OnlyEngineMoved s t ∧ t.pend = s.pend
      ∧ t.polls = s.polls ∧ t.tx = s.tx ++ transmission (txBytes s.cfg mode a cmd data) ∧ stream t = [] := by
  have hq : stream (busAct (busAct s)) = [] := by simpa using h
  obtain ⟨hrx, hna⟩ := rx_nil_of_stream hq
  obtain ⟨ht, htp, htpl, httx⟩ := transmit_spec (txBytes s.cfg mode a cmd data) (busAct (busAct s))
  obtain ⟨htrx, htna⟩ := transmit_rx (bytes := txBytes s.cfg mode a cmd data) hna
  simp only [hrx, List.nil_append, busAct_loopback, hl, if_true] at htrx
  obtain ⟨t, hrun, hm, hst, hpl⟩ := echoVerify_echo htrx htna
  have hm' : OnlyEngineMoved s t :=
    (((onlyBusMoved_busAct s).trans (onlyBusMoved_busAct _)).toEngine.trans ht).trans hm.toEngine
  refine ⟨t, ?_, hm', by simpa using hm.pend.trans htp, by simpa using hpl.trans htpl, by simpa using hm.tx.trans httx, hst⟩
  unfold busWrite
  simp only [drain_quiet h, rxCount_eq, hrx, List.length_nil, lt_self_iff_false, if_false, busAct_cfg]
  cases mode with
  | fast => exact absurd rfl hmode
  | checked => simp only [hrun, hm'.cfg]
  | powerOn => simp only [hrun, hm'.cfg]

end Sys2Proof.Machine
end

