-- ==== Sys2Proof/Laws/Controller.lean ====
section
/-! SUPPORT. What a controller's operations can do, said once for each: its writes, the steps of a tick, a power request and a date/time
push. -/

namespace Sys2Proof.Machine

/-! ### Frames -/

theorem OnlySlotMoved.refl (k : Nat) (s : State) : OnlySlotMoved k s s := ⟨rfl, rfl, rfl, fun _ _ => rfl, rfl, rfl, rfl⟩

theorem OnlySlotMoved.trans {k : Nat} {s t u : State} (h₁ : OnlySlotMoved k s t) (h₂ : OnlySlotMoved k t u) :
    OnlySlotMoved k s u :=
  ⟨h₂.cfg.trans h₁.cfg, h₂.reg.trans h₁.reg, h₂.slots.trans h₁.slots, fun j hj => (h₂.others j hj).trans (h₁.others j hj),
    h₂.loopback.trans h₁.loopback, h₂.requests.trans h₁.requests, h₂.responses.trans h₁.responses⟩

theorem OnlyEngineMoved.toSlot {s t : State} (k : Nat) (h : OnlyEngineMoved s t) : OnlySlotMoved k s t :=
  ⟨h.cfg, h.reg, by rw [h.ctrl], fun j _ => State.ctl_congr h.ctrl j, h.loopback, h.requests, h.responses⟩

theorem OnlyEngineMoved.ctl {s t : State} (h : OnlyEngineMoved s t) (k : Nat) : t.ctl k = s.ctl k :=
  State.ctl_congr h.ctrl k

theorem onlySlotMoved_modCtl (k : Nat) (f : Controller → Controller) (s : State) : OnlySlotMoved k s (s.modCtl k f) :=
  ⟨rfl, rfl, by simp, fun j hj => State.ctl_modCtl_other s k j f hj, rfl, rfl, rfl⟩

theorem OnlySlotMoved.live {k : Nat} {s t : State} (h : OnlySlotMoved k s t) (hk : k < s.ctrl.length) :
    k < t.ctrl.length := by rw [h.slots]; exact hk

/-! ### Writes -/

/-- A write to an empty bus with nothing to come and no echo transmits, and leaves the bus as it found it. -/
theorem busWrite_silent (mode : WriteMode) {a : Byte} {cmd data : List Byte} {s : State} (h : stream s = [])
    (hl : s.loopback = false) :
    ∃ status t, busWrite mode a cmd data s = .ok (writeResult s.cfg status cmd, t) ∧ OnlyEngineMoved s t ∧ t.pend = s.pend
      ∧ t.tx = s.tx ++ transmission (txBytes s.cfg mode a cmd data) ∧ stream t = []
      ∧ (mode = .fast → t.polls = s.polls) ∧ (mode ≠ .fast → status = .hardwareFault) := by
  have hq : stream (busAct (busAct s)) = [] := by simpa using h
  obtain ⟨hrx, hna⟩ := rx_nil_of_stream hq
  obtain ⟨ht, htp, htpl, httx⟩ := transmit_spec (txBytes s.cfg mode a cmd data) (busAct (busAct s))
  have hst := transmit_stream (bytes := txBytes s.cfg mode a cmd data) (s := busAct (busAct s)) (by simpa using hl)
  rw [hq] at hst
  have hm : OnlyEngineMoved s (transmit (txBytes s.cfg mode a cmd data) (busAct (busAct s))) :=
    ((onlyBusMoved_busAct s).trans (onlyBusMoved_busAct _)).toEngine.trans ht
  have hne : (txBytes s.cfg mode a cmd data) ≠ [] := by cases mode <;> simp [txBytes, frame, rawFrame]
  obtain ⟨status, t, q, hrun, hmv, hsq, -, -, hans, -⟩ := echoVerify_spec (txBytes s.cfg mode a cmd data)
    (transmit (txBytes s.cfg mode a cmd data) (busAct (busAct s)))
  rw [hst] at hsq
  obtain ⟨hq', ht'⟩ := List.append_eq_nil_iff.mp hsq.symm
  subst hq'
  have hstat : status = .hardwareFault := by
    rcases hans with ⟨-, h⟩ | ⟨-, h, -⟩ | ⟨h, -⟩
    · exact absurd h.symm hne
    · exact absurd (List.length_eq_zero_iff.mp h.symm) hne
    · exact h
  unfold busWrite
  simp only [drain_quiet h, rxCount_eq, hrx, List.length_nil, lt_self_iff_false, if_false, busAct_cfg]
  cases mode with
  | fast =>
    exact ⟨.ok, _, by simp only [hm.cfg], hm, by simpa using htp, by simpa using httx, hst, fun _ => by simpa using htpl,
      fun h => absurd rfl h⟩
  | checked =>
    have hm' := hm.trans hmv.toEngine
    exact ⟨status, t, by simp only [hrun, hm'.cfg], hm', by simpa using hmv.pend.trans htp,
      by simpa using hmv.tx.trans httx, ht', (fun h => (by cases h)), fun _ => hstat⟩
  | powerOn =>
    have hm' := hm.trans hmv.toEngine
    exact ⟨status, t, by simp only [hrun, hm'.cfg], hm', by simpa using hmv.pend.trans htp,
      by simpa using hmv.tx.trans httx, ht', (fun h => (by cases h)), fun _ => hstat⟩

/-- What a run of writes to one address does: the commands a sublist of which it transmits, in order; the poll ticks it may
take; on a silent bus it transmits them all. -/
structure Writes (mode : WriteMode) (a : Byte) (commands : List Command) (s t : State) : Prop where
  pend : PendOk s → PendOk t
  pollsLe : s.polls ≤ t.polls
  polls : t.polls ≤ s.polls + commands.length * (s.cfg.readPollLimit + echoLimit s.cfg mode)
  tx : ∃ l : List Command, l.Sublist commands ∧ t.tx = s.tx ++ l.flatMap fun c => transmission (txBytes s.cfg mode a c.cmd c.data)
  silent : stream s = [] → s.loopback = false →
    t.tx = s.tx ++ (commands.flatMap fun c => transmission (txBytes s.cfg mode a c.cmd c.data)) ∧ stream t = []
      ∧ t.pend = s.pend ∧ (mode = .fast → t.polls = s.polls)
  order : s.loopback = false → ∃ p, stream s = p ++ stream t

theorem Writes.nil (mode : WriteMode) (a : Byte) (s : State) : Writes mode a [] s s :=
  ⟨id, le_rfl, by simp, ⟨[], .slnil, by simp⟩, fun h _ => ⟨by simp, h, rfl, fun _ => rfl⟩, fun _ => ⟨[], rfl⟩⟩

theorem Writes.append {mode : WriteMode} {a : Byte} {l₁ l₂ : List Command} {s t u : State} (hcfg : t.cfg = s.cfg)
    (hloop : t.loopback = s.loopback) (h₁ : Writes mode a l₁ s t) (h₂ : Writes mode a l₂ t u) :
    Writes mode a (l₁ ++ l₂) s u := by
  obtain ⟨m₁, hm₁, ht₁⟩ := h₁.tx
  obtain ⟨m₂, hm₂, ht₂⟩ := h₂.tx
  have hp₁ := h₁.polls
  have hp₂ := h₂.polls
  rw [hcfg] at hp₂ ht₂
  refine ⟨fun h => h₂.pend (h₁.pend h), h₁.pollsLe.trans h₂.pollsLe, ?_, ⟨m₁ ++ m₂, hm₁.append hm₂, ?_⟩, ?_, ?_⟩
  · rw [List.length_append, Nat.add_mul]; omega
  · rw [ht₂, ht₁, List.flatMap_append, List.append_assoc]
  · intro hs hl
    obtain ⟨a₁, b₁, c₁, d₁⟩ := h₁.silent hs hl
    obtain ⟨a₂, b₂, c₂, d₂⟩ := h₂.silent b₁ (hloop.trans hl)
    rw [hcfg] at a₂
    exact ⟨by rw [a₂, a₁, List.flatMap_append, List.append_assoc], b₂, c₂.trans c₁, fun h => (d₂ h).trans (d₁ h)⟩
  · intro hl
    obtain ⟨p, hp⟩ := h₁.order hl
    obtain ⟨q, hq⟩ := h₂.order (hloop.trans hl)
    exact ⟨p ++ q, by rw [hp, hq, List.append_assoc]⟩

/-- A change of a slot between writes is none of theirs. -/
theorem Writes.modCtl {mode : WriteMode} {a : Byte} {l : List Command} {s t : State} (h : Writes mode a l s t) (k : Nat)
    (f : Controller → Controller) : Writes mode a l s (t.modCtl k f) :=
  ⟨h.pend, h.pollsLe, h.polls, h.tx, h.silent, h.order⟩

/-- A controller's write (42_controller.md R155). -/
theorem busWrite'_writes (mode : WriteMode) (a : Byte) (c : Command) (s : State) :
    ∃ t, busWrite' mode a c.cmd c.data s = .ok t ∧ OnlyEngineMoved s t ∧ Writes mode a [c] s t := by
  obtain ⟨t, hrun, hm, hp, h₁, h₂, htx, hord⟩ := busWrite'_spec mode a c.cmd c.data s
  refine ⟨t, hrun, hm, ⟨fun h => h.of_grew hm.cfg hp, h₁, by simpa [Nat.add_assoc] using h₂, ?_, ?_, hord⟩⟩
  · rcases htx with h | h
    · exact ⟨[], List.nil_sublist _, by simp [h]⟩
    · exact ⟨[c], List.Sublist.refl _, by simp [h]⟩
  · intro hs hl
    obtain ⟨status, u, hu, -, hpend, hutx, hst, hpolls, -⟩ := busWrite_silent mode (a := a) (cmd := c.cmd) (data := c.data) hs hl
    have : t = u := by
      simp only [busWrite', hu] at hrun
      exact (Except.ok.inj hrun).symm
    subst this
    exact ⟨by simp [hutx], hst, hpend, hpolls⟩

/-! ### The fields a tick's reading leaves alone -/

@[simp] theorem firstTick_live (now : Time) (c : Controller) : (firstTick now c).live = c.live := by
  unfold firstTick; split <;> rfl
@[simp] theorem firstTick_addr (now : Time) (c : Controller) : (firstTick now c).addr = c.addr := by
  unfold firstTick; split <;> rfl
@[simp] theorem firstTick_model (now : Time) (c : Controller) : (firstTick now c).model = c.model := by
  unfold firstTick; split <;> rfl

/-- FirstTick sets the remembered power-on time where none is held, and changes nothing else (42_controller.md R157). -/
theorem firstTick_spec (now : Time) (c : Controller) :
    firstTick now c = { c with lastPowerOnAt := some (c.lastPowerOnAt.getD now) } := by
  have key : ∀ x, c.lastPowerOnAt = some x → c = { c with lastPowerOnAt := some x } := fun x h => by rw [← h]
  cases h : c.lastPowerOnAt with
  | none => simp only [firstTick, h, Option.getD_none]
  | some x => simpa only [firstTick, h, Option.getD_some] using key x h

/-- Telemetry writes the frequency, the modulation and the filter, and nothing else (42_controller.md R162). -/
theorem telemetry_spec (cfg : Config) (r : ExchangeResult) (c : Controller) :
    telemetry cfg r c = { c with
      freq := (telemetry cfg r c).freq
      modulation := (telemetry cfg r c).modulation
      filter := (telemetry cfg r c).filter } := by
  unfold telemetry modeTelemetry freqTelemetry
  split
  · split
    · split <;> split <;> rfl
    · split <;> rfl
  · rfl

/-- AckAndNak writes the ack wait and the NAK count, and nothing else (42_controller.md R159, R160, R185). -/
theorem ackAndNak_spec (cfg : Config) (now : Time) (r : ExchangeResult) (c : Controller) :
    ackAndNak cfg now r c = { c with
      ackPending := (ackAndNak cfg now r c).ackPending
      nak := (ackAndNak cfg now r c).nak } := by
  unfold ackAndNak ackTimeoutStep nakStep ackStep
  split <;> split <;> split <;> rfl

/-- Identity writes the query's flag and the power state, and nothing else (42_controller.md R161, R163, R164). -/
theorem identityStep_spec (cfg : Config) (now : Time) (r : ExchangeResult) (c : Controller) :
    identityStep cfg now r c = { c with
      idInFlight := (identityStep cfg now r c).idInFlight
      power := (identityStep cfg now r c).power } := by
  unfold identityStep
  split
  · rfl
  · split
    · rfl
    · split <;> rfl

/-- SequenceStep writes the sequence's progress, the mode and the verification, and nothing else (42_controller.md R165). -/
theorem sequenceAfter_spec (now : Time) (c : Controller) :
    sequenceAfter now c = { c with
      seqActive := (sequenceAfter now c).seqActive
      mode := (sequenceAfter now c).mode
      seqIdx := (sequenceAfter now c).seqIdx
      ackPending := (sequenceAfter now c).ackPending
      ackSentAt := (sequenceAfter now c).ackSentAt
      verifyPending := (sequenceAfter now c).verifyPending
      verifyFrom := (sequenceAfter now c).verifyFrom } := by
  unfold sequenceAfter
  split
  · split
    · rfl
    · split
      · rfl
      · split <;> rfl
  · rfl

/-- The verification re-query writes its own flag only (42_controller.md R166). -/
theorem verifyAfter_spec (cfg : Config) (now : Time) (c : Controller) :
    verifyAfter cfg now c = { c with verifyPending := (verifyAfter cfg now c).verifyPending } := by
  unfold verifyAfter; split <;> rfl

/-- IdentityPoll writes the identity-poll fields only (42_controller.md R167). -/
theorem pollAfter_spec (cfg : Config) (now : Time) (c : Controller) :
    pollAfter cfg now c = { c with
      idInFlight := (pollAfter cfg now c).idInFlight
      idSentAt := (pollAfter cfg now c).idSentAt
      polled := (pollAfter cfg now c).polled
      lastPollAt := (pollAfter cfg now c).lastPollAt } := by
  unfold pollAfter; split <;> rfl

theorem TickKeeps.trans {b c d : Controller} (h₁ : TickKeeps b c) (h₂ : TickKeeps c d) : TickKeeps b d :=
  ⟨h₂.live.trans h₁.live, h₂.addr.trans h₁.addr, h₂.model.trans h₁.model, h₂.dtUtc.trans h₁.dtUtc, h₂.dtTime.trans h₁.dtTime,
    h₂.dtDate.trans h₁.dtDate, h₂.dtSent.trans h₁.dtSent⟩

theorem firstTick_keeps (now : Time) (c : Controller) : TickKeeps c (firstTick now c) := by
  rw [firstTick_spec]; constructor <;> rfl

theorem digest_keeps (cfg : Config) (now : Time) (r : ExchangeResult) (c : Controller) : TickKeeps c (digest cfg now r c) := by
  have h₁ : TickKeeps c (telemetry cfg r c) := by rw [telemetry_spec]; constructor <;> rfl
  have h₂ : ∀ d, TickKeeps d (ackAndNak cfg now r d) := fun d => by rw [ackAndNak_spec]; constructor <;> rfl
  have h₃ : ∀ d, TickKeeps d (identityStep cfg now r d) := fun d => by rw [identityStep_spec]; constructor <;> rfl
  exact (h₁.trans (h₂ _)).trans (h₃ _)

theorem sequenceAfter_keeps (now : Time) (c : Controller) : TickKeeps c (sequenceAfter now c) := by
  rw [sequenceAfter_spec]; constructor <;> rfl

theorem verifyAfter_keeps (cfg : Config) (now : Time) (c : Controller) : TickKeeps c (verifyAfter cfg now c) := by
  rw [verifyAfter_spec]; constructor <;> rfl

theorem pollAfter_keeps (cfg : Config) (now : Time) (c : Controller) : TickKeeps c (pollAfter cfg now c) := by
  rw [pollAfter_spec]; constructor <;> rfl

/-- The fields no tick writes (42_controller.md R156). -/
theorem slotAfterTick_keeps (cfg : Config) (now : Time) (r : ExchangeResult) (c : Controller) :
    TickKeeps c (slotAfterTick cfg now r c) :=
  ((((firstTick_keeps now c).trans (digest_keeps cfg now r _)).trans (sequenceAfter_keeps now _)).trans
    (verifyAfter_keeps cfg now _)).trans (pollAfter_keeps cfg now _)

theorem digest_addr (cfg : Config) (now : Time) (r : ExchangeResult) (c : Controller) : (digest cfg now r c).addr = c.addr :=
  (digest_keeps cfg now r c).addr

theorem digest_model (cfg : Config) (now : Time) (r : ExchangeResult) (c : Controller) : (digest cfg now r c).model = c.model :=
  (digest_keeps cfg now r c).model

/-! ### The writing steps of a tick -/

/-- What one writing step of slot k did: the slot became d, the commands were written to its address. -/
structure TickStep (k : Nat) (commands : List Command) (d : Controller) (s t : State) : Prop where
  moved : OnlySlotMoved k s t
  slot : t.ctl k = d
  writes : Writes .fast (s.ctl k).addr commands s t

/-- A step that only changes the slot. -/
theorem TickStep.change (k : Nat) (f : Controller → Controller) (s : State) (hk : k < s.ctrl.length) :
    TickStep k [] (f (s.ctl k)) s (s.modCtl k f) :=
  ⟨onlySlotMoved_modCtl k f s, State.ctl_modCtl_self s k f hk, (Writes.nil _ _ s).modCtl k f⟩

/-- A step that does nothing. -/
theorem TickStep.none (k : Nat) (s : State) : TickStep k [] (s.ctl k) s s := ⟨.refl k s, rfl, .nil _ _ s⟩

/-- A step that writes one command and then changes the slot. -/
theorem TickStep.write (k : Nat) (c : Command) (f : Controller → Controller) (s : State) (hk : k < s.ctrl.length) :
    ∃ t, busWrite' .fast (s.ctl k).addr c.cmd c.data s = .ok t ∧ TickStep k [c] (f (s.ctl k)) s (t.modCtl k f) := by
  obtain ⟨t, hrun, hm, hw⟩ := busWrite'_writes .fast (s.ctl k).addr c s
  refine ⟨t, hrun, (hm.toSlot k).trans (onlySlotMoved_modCtl k f t), ?_, hw.modCtl k f⟩
  rw [State.ctl_modCtl_self _ _ _ (by rw [hm.ctrl]; exact hk), hm.ctl]

theorem sequenceStep_spec (k : Nat) (now : Time) (s : State) (hk : k < s.ctrl.length) :
    ∃ t, sequenceStep k now s = .ok t
      ∧ TickStep k (sequenceCommand (s.ctl k)) (sequenceAfter now (s.ctl k)) s t := by
  unfold sequenceStep sequenceCommand sequenceAfter
  dsimp only
  by_cases hact : (s.ctl k).seqActive = true
  · rw [if_pos hact, if_pos hact]
    by_cases hnak : (s.ctl k).nak = 0
    · rw [if_neg (show ¬ ((s.ctl k).nak != 0#8) = true by simpa using hnak), if_neg (show ¬ (s.ctl k).nak ≠ 0 by simpa using hnak)]
      by_cases hack : (s.ctl k).ackPending = true
      · rw [if_pos hack, if_neg (fun h => absurd hack (by simp [h.2.2])), if_pos hack]
        exact ⟨s, rfl, .none k s⟩
      · rw [if_neg hack, if_pos ⟨hact, hnak, Bool.eq_false_iff.mpr hack⟩, if_neg hack]
        by_cases hidx : (s.ctl k).seqIdx < (s.ctl k).seq.length
        · rw [List.getElem?_eq_getElem hidx, if_pos hidx]
          obtain ⟨t, hrun, hstep⟩ := TickStep.write k (s.ctl k).seq[(s.ctl k).seqIdx]
            (fun c => { c with seqIdx := c.seqIdx + 1, ackPending := true, ackSentAt := now }) s hk
          simp only [hrun]
          exact ⟨_, rfl, hstep⟩
        · rw [List.getElem?_eq_none (by omega), if_neg hidx]
          exact ⟨_, rfl, .change k
            (fun c => { c with seqActive := false, mode := c.target, verifyPending := true, verifyFrom := now }) s hk⟩
    · rw [if_pos (show ((s.ctl k).nak != 0#8) = true by simpa using hnak), if_pos hnak, if_neg (fun h => hnak h.2.1)]
      exact ⟨_, rfl, .change k (fun c => { c with seqActive := false, mode := .undefined, ackPending := false }) s hk⟩
  · rw [if_neg hact, if_neg hact, if_neg (fun h => hact h.1)]
    exact ⟨s, rfl, .none k s⟩

theorem followUpQueries_spec (k : Nat) (followUp : Bool) (s : State) :
    ∃ t, followUpQueries k followUp s = .ok t
      ∧ TickStep k (if followUp = true then [query s.cfg.catalog.freqQuery, query s.cfg.catalog.modeQuery] else []) (s.ctl k) s t := by
  unfold followUpQueries
  by_cases hf : followUp = true
  · rw [if_pos hf, if_pos hf]
    obtain ⟨t, hrun, hm, hw⟩ := busWrite'_writes .fast (s.ctl k).addr (query s.cfg.catalog.freqQuery) s
    obtain ⟨u, hrun', hm', hw'⟩ := busWrite'_writes .fast (s.ctl k).addr (query s.cfg.catalog.modeQuery) t
    refine ⟨u, ?_, (hm.trans hm').toSlot k, (hm.trans hm').ctl k, Writes.append hm.cfg hm.loopback hw hw'⟩
    simp only [query] at hrun hrun'
    simp only [hrun, hm.ctl, hm.cfg, hrun']
  · rw [if_neg hf, if_neg hf]
    exact ⟨s, rfl, .none k s⟩

theorem verifyQuery_spec (k : Nat) (now : Time) (s : State) (hk : k < s.ctrl.length) :
    ∃ t, verifyQuery k now s = .ok t
      ∧ TickStep k (if verifyDue s.cfg now (s.ctl k) = true then [query s.cfg.catalog.modeQuery] else [])
          (verifyAfter s.cfg now (s.ctl k)) s t := by
  unfold verifyQuery verifyAfter verifyDue
  dsimp only
  split
  · obtain ⟨t, hrun, hstep⟩ := TickStep.write k (query s.cfg.catalog.modeQuery) (fun c => { c with verifyPending := false }) s hk
    simp only [query] at hrun
    simp only [hrun]
    exact ⟨_, rfl, hstep⟩
  · exact ⟨s, rfl, .none k s⟩

theorem identityPoll_spec (k : Nat) (now : Time) (s : State) (hk : k < s.ctrl.length) :
    ∃ t, identityPoll k now s = .ok t
      ∧ TickStep k (if pollDue s.cfg now (s.ctl k) = true then [query (modelOf s.cfg (s.ctl k)).idQuery] else [])
          (pollAfter s.cfg now (s.ctl k)) s t := by
  unfold identityPoll pollAfter
  dsimp only
  split
  · obtain ⟨t, hrun, hstep⟩ := TickStep.write k (query (modelOf s.cfg (s.ctl k)).idQuery)
      (fun c => { c with idInFlight := true, idSentAt := now, polled := true, lastPollAt := now }) s hk
    simp only [query] at hrun
    simp only [hrun]
    exact ⟨_, rfl, hstep⟩
  · exact ⟨s, rfl, .none k s⟩

theorem TickStep.trans {k : Nat} {l₁ l₂ : List Command} {d₁ d₂ : Controller} {s t u : State} (h₁ : TickStep k l₁ d₁ s t)
    (haddr : d₁.addr = (s.ctl k).addr) (h₂ : TickStep k l₂ d₂ t u) : TickStep k (l₁ ++ l₂) d₂ s u := by
  refine ⟨h₁.moved.trans h₂.moved, h₂.slot, Writes.append h₁.moved.cfg h₁.moved.loopback h₁.writes ?_⟩
  have := h₂.writes
  rwa [h₁.slot, haddr] at this

/-- The writes of a tick always end, and they do to the slot what `sequenceAfter`, `verifyAfter` and `pollAfter` say, one after the
other (42_controller.md R165 to R167). -/
theorem tickWrites_spec (k : Nat) (now : Time) (followUp : Bool) (s : State) (hk : k < s.ctrl.length) :
    ∃ t, tickWrites k now followUp s = .ok t
      ∧ TickStep k
        (sequenceCommand (s.ctl k)
          ++ (if followUp = true then [query s.cfg.catalog.freqQuery, query s.cfg.catalog.modeQuery] else [])
          ++ (if verifyDue s.cfg now (sequenceAfter now (s.ctl k)) = true then [query s.cfg.catalog.modeQuery] else [])
          ++ (if pollDue s.cfg now (verifyAfter s.cfg now (sequenceAfter now (s.ctl k))) = true then
                [query (modelOf s.cfg (s.ctl k)).idQuery] else []))
        (pollAfter s.cfg now (verifyAfter s.cfg now (sequenceAfter now (s.ctl k)))) s t := by
  obtain ⟨t₁, r₁, h₁⟩ := sequenceStep_spec k now s hk
  obtain ⟨t₂, r₂, h₂⟩ := followUpQueries_spec k followUp t₁
  have a₁ : (sequenceAfter now (s.ctl k)).addr = (s.ctl k).addr := by rw [sequenceAfter_spec]
  rw [h₁.slot, h₁.moved.cfg] at h₂
  have h₁₂ := h₁.trans a₁ h₂
  obtain ⟨t₃, r₃, h₃⟩ := verifyQuery_spec k now t₂ (h₁₂.moved.live hk)
  rw [h₁₂.slot, h₁₂.moved.cfg] at h₃
  have h₁₃ := h₁₂.trans a₁ h₃
  have a₃ : (verifyAfter s.cfg now (sequenceAfter now (s.ctl k))).addr = (s.ctl k).addr := by
    rw [verifyAfter_spec, sequenceAfter_spec]
  obtain ⟨t₄, r₄, h₄⟩ := identityPoll_spec k now t₃ (h₁₃.moved.live hk)
  rw [h₁₃.slot, h₁₃.moved.cfg] at h₄
  have hmodel : modelOf s.cfg (verifyAfter s.cfg now (sequenceAfter now (s.ctl k))) = modelOf s.cfg (s.ctl k) := by
    unfold modelOf; rw [verifyAfter_spec, sequenceAfter_spec]
  rw [hmodel] at h₄
  exact ⟨t₄, by simp only [tickWrites, r₁, r₂, r₃, r₄], h₁₃.trans a₃ h₄⟩

/-- A tick always ends (00_scope.md R21): it reads once with `ReadFor`, changes its slot as `slotAfterTick` says, and writes a
sublist, in order, of the commands `tickCommands` lists (42_controller.md R156). -/
theorem tickSlot_spec (k : Nat) (now : Time) (s : State) (hk : k < s.ctrl.length) :
    ∃ r u t, readFor (s.ctl k).addr (s.modCtl k (firstTick now)) = .ok (r, u) ∧ tickSlot k now s = .ok (r, t)
      ∧ OnlyEngineMoved (s.modCtl k (firstTick now)) u ∧ u.tx = s.tx ∧ PendMoved s u ∧ (∃ p, stream s = p ++ stream u)
      ∧ s.polls ≤ u.polls ∧ u.polls ≤ s.polls + s.cfg.readPollLimit ∧ (PendOk s → ResultOk s.cfg r)
      ∧ OnlySlotMoved k s t ∧ t.ctl k = slotAfterTick s.cfg now r (s.ctl k)
      ∧ Writes .fast (s.ctl k).addr (tickCommands s.cfg now r (s.ctl k)) u t := by
  obtain ⟨r, u, p, hread, hm, htx, hpend, hst, hp₁, hp₂, hok⟩ := readFor_spec (s.ctl k).addr (s.modCtl k (firstTick now))
  have hself : (s.modCtl k (firstTick now)).ctl k = firstTick now (s.ctl k) := State.ctl_modCtl_self s k _ hk
  have hu : u.ctl k = firstTick now (s.ctl k) := (hm.ctl k).trans hself
  have huk : k < u.ctrl.length := by rw [hm.ctrl]; simpa using hk
  have hcfg : u.cfg = s.cfg := hm.cfg
  have hd : (u.modCtl k (digest s.cfg now r)).ctl k = digest s.cfg now r (firstTick now (s.ctl k)) := by
    rw [State.ctl_modCtl_self _ _ _ huk, hu]
  obtain ⟨t, hrun, hstep⟩ := tickWrites_spec k now (digestFollowUp s.cfg now r (firstTick now (s.ctl k)))
    (u.modCtl k (digest s.cfg now r)) (by simpa using huk)
  have hmodel : modelOf s.cfg (digest s.cfg now r (firstTick now (s.ctl k))) = modelOf s.cfg (s.ctl k) := by
    unfold modelOf; rw [digest_model, firstTick_model]
  refine ⟨r, u, t, hread, ?_, hm, htx, hpend, ⟨p, hst⟩, hp₁, hp₂, hok, ?_, ?_, ?_⟩
  · unfold tickSlot
    dsimp only
    rw [hself, firstTick_addr, hread]
    simp only [hcfg, hu, hrun]
  · exact (((onlySlotMoved_modCtl k _ s).trans (hm.toSlot k)).trans (onlySlotMoved_modCtl k _ u)).trans hstep.moved
  · have := hstep.slot
    rw [hd] at this
    simpa [hcfg, slotAfterTick] using this
  · have := hstep.writes
    rw [hd] at this
    simp only [State.modCtl_cfg, hcfg, digest_addr, firstTick_addr, hmodel] at this
    exact ⟨this.pend, this.pollsLe, this.polls, this.tx, this.silent, this.order⟩

/-! ### Power and date/time -/

/-- A power request always ends (42_controller.md R169 to R172). -/
theorem requestPower_spec (k : Nat) (q : PowerRequest) (now : Time) (s : State) (hk : k < s.ctrl.length) :
    ∃ t, requestPower k q now s = .ok t ∧ OnlySlotMoved k s t
      ∧ ((t = s ∧ ((resolvesToOn q (s.ctl k).power = true ∧ (s.ctl k).power = .on)
                ∨ (resolvesToOn q (s.ctl k).power = false ∧ (s.ctl k).power = .off)))
        ∨ (resolvesToOn q (s.ctl k).power = true ∧ (s.ctl k).power ≠ .on
            ∧ t.ctl k = { s.ctl k with power := .offTransitioning, lastPowerOnAt := some now }
            ∧ Writes .powerOn (s.ctl k).addr [s.cfg.catalog.pwrOn] s t)
        ∨ (resolvesToOn q (s.ctl k).power = false ∧ (s.ctl k).power ≠ .off
            ∧ t.ctl k = { s.ctl k with power := .onTransitioning }
            ∧ Writes .checked (s.ctl k).addr [s.cfg.catalog.pwrOff] s t)) := by
  unfold requestPower
  by_cases hq : resolvesToOn q (s.ctl k).power = true
  · rw [if_pos hq]
    by_cases hp : (s.ctl k).power = .on
    · rw [if_pos hp]
      exact ⟨s, rfl, .refl k s, .inl ⟨rfl, .inl ⟨hq, hp⟩⟩⟩
    · rw [if_neg hp]
      obtain ⟨t, hrun, hm, hw⟩ := busWrite'_writes .powerOn (s.ctl k).addr s.cfg.catalog.pwrOn s
      simp only [powerOnAct, hrun]
      refine ⟨_, rfl, (hm.toSlot k).trans (onlySlotMoved_modCtl k _ t), .inr (.inl ⟨hq, hp, ?_, hw.modCtl k _⟩)⟩
      rw [State.ctl_modCtl_self _ _ _ (by rw [hm.ctrl]; exact hk), hm.ctl]
  · have hq' : resolvesToOn q (s.ctl k).power = false := by simpa using hq
    rw [if_neg hq]
    by_cases hp : (s.ctl k).power = .off
    · rw [if_pos hp]
      exact ⟨s, rfl, .refl k s, .inl ⟨rfl, .inr ⟨hq', hp⟩⟩⟩
    · rw [if_neg hp]
      obtain ⟨t, hrun, hm, hw⟩ := busWrite'_writes .checked (s.ctl k).addr s.cfg.catalog.pwrOff s
      simp only [powerOffAct, hrun]
      refine ⟨_, rfl, (hm.toSlot k).trans (onlySlotMoved_modCtl k _ t), .inr (.inr ⟨hq', hp, ?_, hw.modCtl k _⟩)⟩
      rw [State.ctl_modCtl_self _ _ _ (by rw [hm.ctrl]; exact hk), hm.ctl]

/-- The three commands of a date/time push, in order (42_controller.md R182). -/
def dateTimeCommands (cfg : Config) (time date utc : List Byte) : List Command :=
  [⟨cfg.catalog.dtUtc, utc⟩, ⟨cfg.catalog.dtTime, time⟩, ⟨cfg.catalog.dtDate, date⟩]

/-- A date/time push always ends (42_controller.md R182). -/
theorem pushGroups_spec (k : Nat) (time date utc : List Byte) (s : State) (hk : k < s.ctrl.length) :
    ∃ t, pushGroups k time date utc s = .ok t ∧ OnlySlotMoved k s t
      ∧ ((((s.ctl k).power ≠ .on) ∧ t = s.modCtl k (storeGroups time date utc))
        ∨ ((s.ctl k).power = .on
            ∧ t.ctl k = { s.ctl k with dtTime := time, dtDate := date, dtUtc := utc, dtSent := true }
            ∧ Writes .checked (s.ctl k).addr (dateTimeCommands s.cfg time date utc) s t)) := by
  have hself : (s.modCtl k (storeGroups time date utc)).ctl k = storeGroups time date utc (s.ctl k) :=
    State.ctl_modCtl_self s k _ hk
  have hmod := onlySlotMoved_modCtl k (storeGroups time date utc) s
  unfold pushGroups
  dsimp only
  rw [hself]
  by_cases hp : (s.ctl k).power = .on
  · have hcond : (storeGroups time date utc (s.ctl k)).power = .on ∧ (storeGroups time date utc (s.ctl k)).dtSent = false :=
      ⟨hp, rfl⟩
    simp only [hcond, and_self, if_true]
    obtain ⟨t₁, r₁, m₁, w₁⟩ := busWrite'_writes .checked (s.ctl k).addr ⟨s.cfg.catalog.dtUtc, utc⟩
      (s.modCtl k (storeGroups time date utc))
    obtain ⟨t₂, r₂, m₂, w₂⟩ := busWrite'_writes .checked (s.ctl k).addr ⟨s.cfg.catalog.dtTime, time⟩ t₁
    obtain ⟨t₃, r₃, m₃, w₃⟩ := busWrite'_writes .checked (s.ctl k).addr ⟨s.cfg.catalog.dtDate, date⟩ t₂
    have m₁₂ := m₁.trans m₂
    have m₁₃ := m₁₂.trans m₃
    have c₁ : t₁.ctl k = storeGroups time date utc (s.ctl k) := (m₁.ctl k).trans hself
    have c₂ : t₂.ctl k = storeGroups time date utc (s.ctl k) := (m₁₂.ctl k).trans hself
    have c₃ : t₃.ctl k = storeGroups time date utc (s.ctl k) := (m₁₃.ctl k).trans hself
    have g₁ : t₁.cfg = s.cfg := m₁.cfg
    have g₂ : t₂.cfg = s.cfg := m₁₂.cfg
    have ha : (storeGroups time date utc (s.ctl k)).addr = (s.ctl k).addr := rfl
    refine ⟨t₃.modCtl k fun c => { c with dtSent := true }, ?_, ((hmod.trans (m₁₃.toSlot k)).trans (onlySlotMoved_modCtl k _ t₃)),
      .inr ⟨hp, ?_, ?_⟩⟩
    · unfold sendGroups
      rw [hself, ha]
      simp only [State.modCtl_cfg] at r₁ ⊢
      simp only [r₁, c₁, g₁, ha, r₂, c₂, g₂, r₃]
    · rw [State.ctl_modCtl_self _ _ _ (by rw [m₁₃.ctrl]; simpa using hk), c₃]; rfl
    · have w := Writes.append m₁₂.cfg m₁₂.loopback (Writes.append m₁.cfg m₁.loopback w₁ w₂) w₃
      have w' := w.modCtl k fun c => { c with dtSent := true }
      exact ⟨w'.pend, w'.pollsLe, w'.polls, w'.tx, w'.silent, w'.order⟩
  · have hcond : ¬ ((storeGroups time date utc (s.ctl k)).power = .on ∧ (storeGroups time date utc (s.ctl k)).dtSent = false) :=
      fun h => hp h.1
    simp only [hcond, if_false]
    exact ⟨_, rfl, hmod, .inl ⟨hp, rfl⟩⟩

end Sys2Proof.Machine
end

