-- ==== Sys2Proof/Laws/Arrivals.lean ====
section
/-! SUPPORT. What every operation does to the record of poll ticks and to the bytes still to arrive, said once for each (00_scope.md R21;
log 24). -/

namespace Sys2Proof.Machine

/-- From s to t the record of poll ticks grew by one entry for each tick taken, and bytes only came in. -/
def WaitsGrew (s t : State) : Prop :=
  toArrive t ≤ toArrive s ∧ ∃ ws, t.waits = s.waits ++ ws ∧ t.polls = s.polls + ws.length ∧ ∀ w ∈ ws, w ≤ toArrive s

/-- A change of none of the three. -/
theorem WaitsGrew.of_same {s t : State} (ha : t.arrivals = s.arrivals) (hp : t.polls = s.polls) (hw : t.waits = s.waits) :
    WaitsGrew s t := by
  refine ⟨by rw [toArrive, toArrive, ha], [], by simpa using hw, by simpa using hp, by simp⟩

theorem WaitsGrew.refl (s : State) : WaitsGrew s s := .of_same rfl rfl rfl

theorem WaitsGrew.trans {s t u : State} (h₁ : WaitsGrew s t) (h₂ : WaitsGrew t u) : WaitsGrew s u := by
  obtain ⟨a₁, ws₁, b₁, c₁, d₁⟩ := h₁
  obtain ⟨a₂, ws₂, b₂, c₂, d₂⟩ := h₂
  refine ⟨a₂.trans a₁, ws₁ ++ ws₂, by rw [b₂, b₁, List.append_assoc], by rw [c₂, c₁, List.length_append]; omega, ?_⟩
  intro w hw
  rcases List.mem_append.mp hw with h | h
  · exact d₁ w h
  · exact (d₂ w h).trans a₁

theorem toArrive_busAct_le (s : State) : toArrive (busAct s) ≤ toArrive s := by
  unfold busAct toArrive; split <;> simp_all

theorem waitsGrew_busAct (s : State) : WaitsGrew s (busAct s) := ⟨toArrive_busAct_le s, [], by simp, by simp, by simp⟩

theorem waitsGrew_rxPop {s t : State} {b : Byte} (h : rxPop s = .ok (b, t)) : WaitsGrew s t := by
  unfold rxPop at h
  dsimp only at h
  split at h
  · cases h
  · cases h
    exact (waitsGrew_busAct s).trans (.of_same rfl rfl rfl)

theorem waitsGrew_pollWait (s : State) : WaitsGrew s (pollWait s) :=
  ⟨toArrive_busAct_le s, [toArrive (busAct s)], by simp [pollWait], by simp [pollWait], by simpa using toArrive_busAct_le s⟩

theorem waitsGrew_readRawLoop {fuel : Nat} {st : RxPhase} {buf : List Byte} {ticks : Nat} {s t : State} {r : ExchangeResult}
    (h : readRawLoop fuel st buf ticks s = .ok (r, t)) : WaitsGrew s t := by
  induction fuel generalizing st buf ticks s with
  | zero => cases h
  | succ n ih =>
    unfold readRawLoop at h
    rw [rxCount_eq] at h
    dsimp only at h
    refine (waitsGrew_busAct s).trans ?_
    split at h
    · split at h
      · cases h
      · rename_i b u hpop
        split at h
        · obtain ⟨-, rfl⟩ := by simpa using h
          exact waitsGrew_rxPop hpop
        · exact (waitsGrew_rxPop hpop).trans (ih h)
    · split at h
      · obtain ⟨-, rfl⟩ := by simpa using h
        exact .refl _
      · exact (waitsGrew_pollWait _).trans (ih h)

theorem waitsGrew_readRaw {s t : State} {r : ExchangeResult} (h : readRaw s = .ok (r, t)) : WaitsGrew s t :=
  waitsGrew_readRawLoop h

theorem waitsGrew_pendAppend (r : ExchangeResult) (s : State) : WaitsGrew s (pendAppend r s) := .of_same rfl rfl rfl

theorem waitsGrew_readFor {a : Byte} {s t : State} {r : ExchangeResult} (h : readFor a s = .ok (r, t)) : WaitsGrew s t := by
  unfold readFor at h
  split at h
  · obtain ⟨-, rfl⟩ := by simpa [pendTake] using h
    exact .of_same rfl rfl rfl
  · split at h
    · split at h
      · cases h
      · rename_i r' u hrun
        refine (waitsGrew_readRaw hrun).trans ?_
        have ht : t = (sortResult a r' u).2 := by rw [Except.ok.inj h]
        rw [ht]
        rcases sortResult_spec a r' u with (e | e) | ⟨e, -⟩ <;> rw [e]
        · exact .refl u
        · exact .refl u
        · exact waitsGrew_pendAppend r' u
    · obtain ⟨-, rfl⟩ := by simpa using h
      exact .refl s

theorem waitsGrew_drain {s t : State} (h : drain s = .ok t) : WaitsGrew s t := by
  unfold drain at h
  rw [rxCount_eq] at h
  dsimp only at h
  refine (waitsGrew_busAct s).trans ?_
  split at h
  · split at h
    · cases h
    · rename_i r u hrun
      refine (waitsGrew_readRaw hrun).trans ?_
      rw [← Except.ok.inj h]
      split
      · exact waitsGrew_pendAppend r u
      · exact .refl u
  · cases h; exact .refl _

theorem waitsGrew_txPush (b : Byte) (s : State) : WaitsGrew s (txPush b s) :=
  (waitsGrew_busAct s).trans (.of_same rfl rfl rfl)

theorem waitsGrew_transmit (bytes : List Byte) (s : State) : WaitsGrew s (transmit bytes s) := by
  have key : WaitsGrew s (pushAll bytes s) := by
    induction bytes generalizing s with
    | nil => exact .refl s
    | cons b rest ih => exact (waitsGrew_txPush b s).trans (ih _)
  exact key.trans ((waitsGrew_busAct _).trans (.of_same rfl rfl rfl))

theorem waitsGrew_echoLoop {fuel : Nat} {tx got : List Byte} {ticks : Nat} {s t : State} {status : Status}
    (h : echoLoop fuel tx got ticks s = .ok (status, t)) : WaitsGrew s t := by
  induction fuel generalizing got ticks s with
  | zero => cases h
  | succ n ih =>
    unfold echoLoop at h
    rw [rxCount_eq] at h
    dsimp only at h
    refine (waitsGrew_busAct s).trans ?_
    split at h
    · split at h
      · cases h
      · rename_i b u hpop
        exact (waitsGrew_rxPop hpop).trans (ih h)
    · split at h
      · obtain ⟨-, rfl⟩ := by simpa using h
        exact .refl _
      · split at h
        · obtain ⟨-, rfl⟩ := by simpa using h
          exact .refl _
        · exact (waitsGrew_pollWait _).trans (ih h)

theorem waitsGrew_busWrite {mode : WriteMode} {a : Byte} {cmd data : List Byte} {s t : State} {r : ExchangeResult}
    (h : busWrite mode a cmd data s = .ok (r, t)) : WaitsGrew s t := by
  unfold busWrite at h
  split at h
  · cases h
  · rename_i d hd
    refine (waitsGrew_drain hd).trans ?_
    rw [rxCount_eq] at h
    dsimp only at h
    refine (waitsGrew_busAct d).trans ?_
    have hecho : ∀ bytes st u, echoVerify bytes (transmit bytes (busAct d)) = .ok (st, u) → WaitsGrew (busAct d) u :=
      fun bytes st u hu => (waitsGrew_transmit _ _).trans (waitsGrew_echoLoop hu)
    split at h
    · obtain ⟨-, rfl⟩ := by simpa using h
      exact .refl _
    · cases mode with
      | fast =>
        obtain ⟨-, rfl⟩ := by simpa using h
        exact waitsGrew_transmit _ _
      | checked =>
        dsimp only at h
        split at h
        · cases h
        · rename_i st u hu
          obtain ⟨-, rfl⟩ := by simpa using h
          exact hecho _ _ _ hu
      | powerOn =>
        dsimp only at h
        split at h
        · cases h
        · rename_i st u hu
          obtain ⟨-, rfl⟩ := by simpa using h
          exact hecho _ _ _ hu

theorem waitsGrew_busWrite' {mode : WriteMode} {a : Byte} {cmd data : List Byte} {s t : State}
    (h : busWrite' mode a cmd data s = .ok t) : WaitsGrew s t := by
  unfold busWrite' at h
  split at h
  · cases h
  · rename_i r u hu
    cases h
    exact waitsGrew_busWrite hu

theorem waitsGrew_modCtl (k : Nat) (f : Controller → Controller) (s : State) : WaitsGrew s (s.modCtl k f) := .of_same rfl rfl rfl

/-! ### The controllers' operations -/

theorem waitsGrew_sequenceStep {k : Nat} {now : Time} {s t : State} (h : sequenceStep k now s = .ok t) : WaitsGrew s t := by
  unfold sequenceStep at h
  dsimp only at h
  split at h
  · split at h
    · cases h; exact waitsGrew_modCtl _ _ _
    · split at h
      · cases h; exact .refl s
      · split at h
        · split at h
          · cases h
          · rename_i u hu
            cases h
            exact (waitsGrew_busWrite' hu).trans (waitsGrew_modCtl _ _ _)
        · cases h; exact waitsGrew_modCtl _ _ _
  · cases h; exact .refl s

theorem waitsGrew_followUpQueries {k : Nat} {f : Bool} {s t : State} (h : followUpQueries k f s = .ok t) : WaitsGrew s t := by
  unfold followUpQueries at h
  split at h
  · split at h
    · cases h
    · rename_i u hu
      exact (waitsGrew_busWrite' hu).trans (waitsGrew_busWrite' h)
  · cases h; exact .refl s

theorem waitsGrew_verifyQuery {k : Nat} {now : Time} {s t : State} (h : verifyQuery k now s = .ok t) : WaitsGrew s t := by
  unfold verifyQuery at h
  dsimp only at h
  split at h
  · split at h
    · cases h
    · rename_i u hu
      cases h
      exact (waitsGrew_busWrite' hu).trans (waitsGrew_modCtl _ _ _)
  · cases h; exact .refl s

theorem waitsGrew_identityPoll {k : Nat} {now : Time} {s t : State} (h : identityPoll k now s = .ok t) : WaitsGrew s t := by
  unfold identityPoll at h
  dsimp only at h
  split at h
  · split at h
    · cases h
    · rename_i u hu
      cases h
      exact (waitsGrew_busWrite' hu).trans (waitsGrew_modCtl _ _ _)
  · cases h; exact .refl s

theorem waitsGrew_tickSlot {k : Nat} {now : Time} {s t : State} {r : ExchangeResult} (h : tickSlot k now s = .ok (r, t)) :
    WaitsGrew s t := by
  unfold tickSlot tickWrites at h
  dsimp only at h
  refine (waitsGrew_modCtl k (firstTick now) s).trans ?_
  split at h
  · cases h
  · rename_i r' u hu
    refine (waitsGrew_readFor hu).trans ((waitsGrew_modCtl k (digest u.cfg now r') u).trans ?_)
    split at h
    · cases h
    · rename_i v hv
      obtain ⟨-, rfl⟩ := by simpa using h
      split at hv
      · cases hv
      · rename_i w hw
        refine (waitsGrew_sequenceStep hw).trans ?_
        split at hv
        · cases hv
        · rename_i x hx
          refine (waitsGrew_followUpQueries hx).trans ?_
          split at hv
          · cases hv
          · rename_i y hy
            exact (waitsGrew_verifyQuery hy).trans (waitsGrew_identityPoll hv)

theorem waitsGrew_requestPower {k : Nat} {q : PowerRequest} {now : Time} {s t : State} (h : requestPower k q now s = .ok t) :
    WaitsGrew s t := by
  unfold requestPower powerOnAct powerOffAct at h
  split at h
  · split at h
    · cases h; exact .refl s
    · split at h
      · cases h
      · rename_i u hu
        cases h
        exact (waitsGrew_busWrite' hu).trans (waitsGrew_modCtl _ _ _)
  · split at h
    · cases h; exact .refl s
    · split at h
      · cases h
      · rename_i u hu
        cases h
        exact (waitsGrew_busWrite' hu).trans (waitsGrew_modCtl _ _ _)

theorem waitsGrew_pushGroups {k : Nat} {time date utc : List Byte} {s t : State} (h : pushGroups k time date utc s = .ok t) :
    WaitsGrew s t := by
  unfold pushGroups sendGroups at h
  dsimp only at h
  refine (waitsGrew_modCtl k (storeGroups time date utc) s).trans ?_
  split at h
  · split at h
    · cases h
    · rename_i u hu
      refine (waitsGrew_busWrite' hu).trans ?_
      split at h
      · cases h
      · rename_i v hv
        refine (waitsGrew_busWrite' hv).trans ?_
        split at h
        · cases h
        · rename_i w hw
          cases h
          exact (waitsGrew_busWrite' hw).trans (waitsGrew_modCtl _ _ _)
  · cases h; exact .refl _

/-! ### Every operation -/

theorem waitsGrew_respond (s : State) (r : List Byte) : WaitsGrew s (s.respond r) := .of_same rfl rfl rfl

theorem waitsGrew_unlessRefused {refusal : Option Reason} {s t : State} {run : Host.Outcome State Fault Refusal}
    (h : unlessRefused refusal s run = .next t) (hrun : run = .next t → WaitsGrew s t) : WaitsGrew s t := by
  unfold unlessRefused at h
  split at h
  · cases h; exact waitsGrew_respond _ _
  · exact hrun h

theorem waitsGrew_answerResult {res : Except Fault (ExchangeResult × State)} {s t : State} (h : answerResult res = .next t)
    (hres : ∀ r u, res = .ok (r, u) → WaitsGrew s u) : WaitsGrew s t := by
  unfold answerResult at h
  split at h
  · cases h
  · rename_i r u
    cases h
    exact (hres r u rfl).trans (waitsGrew_respond _ _)

theorem waitsGrew_registerAddress (a : Byte) (s : State) : WaitsGrew s (registerAddress a s) := by
  rw [registerAddress_spec]; exact .of_same rfl rfl rfl

theorem waitsGrew_unregisterAddress (a : Byte) (s : State) : WaitsGrew s (unregisterAddress a s) := by
  rw [unregisterAddress_spec]; exact .of_same rfl rfl rfl

theorem waitsGrew_done {s t u : State} {b : List Byte} (hu : WaitsGrew s u)
    (h : (.next (u.respond b) : Host.Outcome State Fault Refusal) = .next t) : WaitsGrew s t := by
  cases h; exact hu.trans (waitsGrew_respond _ _)

/-- Every operation: the record of poll ticks grows by one entry for each tick it takes, and bytes only come in. -/
theorem waitsGrew_exec {i : Instr} {s t : State} (h : exec i s = .next t) : WaitsGrew s t := by
  cases i with
  | readRaw => exact waitsGrew_answerResult h fun _ _ => waitsGrew_readRaw
  | readAddr a => exact waitsGrew_answerResult h fun _ _ => waitsGrew_readFor
  | writeFast a cmd data => exact waitsGrew_unlessRefused h fun h => waitsGrew_answerResult h fun _ _ => waitsGrew_busWrite
  | writeChecked a cmd data => exact waitsGrew_unlessRefused h fun h => waitsGrew_answerResult h fun _ _ => waitsGrew_busWrite
  | writePowerOn a cmd data => exact waitsGrew_unlessRefused h fun h => waitsGrew_answerResult h fun _ _ => waitsGrew_busWrite
  | regAddr a => exact waitsGrew_done (waitsGrew_registerAddress a s) h
  | unregAddr a => exact waitsGrew_done (waitsGrew_unregisterAddress a s) h
  | isKnown a => exact waitsGrew_done (.refl s) h
  | ctrlCreate k a md =>
    exact waitsGrew_unlessRefused h fun h =>
      waitsGrew_done ((WaitsGrew.of_same (t := s.setCtl k.toNat (createdController a md.toNat)) rfl rfl rfl).trans
        (waitsGrew_registerAddress a _)) h
  | ctrlDestroy k =>
    exact waitsGrew_unlessRefused h fun h => waitsGrew_done ((waitsGrew_unregisterAddress _ s).trans (waitsGrew_modCtl _ _ _)) h
  | tick k now => exact waitsGrew_unlessRefused h fun h => waitsGrew_answerResult h fun _ _ => waitsGrew_tickSlot
  | getPower k => exact waitsGrew_unlessRefused h fun h => waitsGrew_done (.refl s) h
  | setPower k q now =>
    refine waitsGrew_unlessRefused h fun h => ?_
    split at h
    · cases h
    · rename_i u hu
      exact waitsGrew_done (waitsGrew_requestPower hu) h
  | getMode k => exact waitsGrew_unlessRefused h fun h => waitsGrew_done (.refl s) h
  | setMode k m => exact waitsGrew_unlessRefused h fun h => waitsGrew_done (waitsGrew_modCtl _ _ s) h
  | getFreq k => exact waitsGrew_unlessRefused h fun h => waitsGrew_done (.refl s) h
  | getModulation k => exact waitsGrew_unlessRefused h fun h => waitsGrew_done (.refl s) h
  | getRxFilter k => exact waitsGrew_unlessRefused h fun h => waitsGrew_done (.refl s) h
  | setAddress k a =>
    exact waitsGrew_unlessRefused h fun h =>
      waitsGrew_done (((waitsGrew_unregisterAddress _ s).trans (waitsGrew_modCtl _ _ _)).trans (waitsGrew_registerAddress a _)) h
  | getAddress k => exact waitsGrew_unlessRefused h fun h => waitsGrew_done (.refl s) h
  | pushDateTime k time date utc =>
    refine waitsGrew_unlessRefused h fun h => ?_
    split at h
    · cases h
    · rename_i u hu
      exact waitsGrew_done (waitsGrew_pushGroups hu) h

end Sys2Proof.Machine
end

