-- ==== Sys2Proof/Laws/Decode.lean ====
section
/-! SUPPORT. What the parts of the decoder and the encoder can do, each said once, in both directions (30_encoding.md R87 to R89). -/

namespace Sys2Proof

/-- A list behind its length byte is taken off whole, and the rest is left. -/
theorem takeField_lengthPrefixed {l : List Byte} (rest : List Byte) (h : l.length < 256) :
    takeField (lengthPrefixed l ++ rest) = some (l, rest) := by
  have : (BitVec.ofNat 8 l.length).toNat = l.length := by simp; omega
  simp [takeField, lengthPrefixed, this]

/-- What `takeField` takes off is a list behind its own length byte. -/
theorem takeField_spec {bs l rest : List Byte} (h : takeField bs = some (l, rest)) :
    l.length < 256 ∧ bs = lengthPrefixed l ++ rest := by
  unfold takeField at h
  split at h
  · cases h
  · rename_i n r
    split at h
    · rename_i hn
      simp only [Option.some.injEq, Prod.mk.injEq] at h
      obtain ⟨rfl, rfl⟩ := h
      have := n.isLt
      have hl : (r.take n.toNat).length = n.toNat := List.length_take_of_le hn
      refine ⟨by omega, ?_⟩
      simp only [lengthPrefixed, hl, List.cons_append, List.take_append_drop]
      simp
    · cases h

/-- The operands of a WRITE are the address and two length-prefixed lists. -/
theorem writeOperands_spec {bs : List Byte} {a : Byte} {cmd data : List Byte} (h : writeOperands bs = some (a, cmd, data)) :
    cmd.length < 256 ∧ data.length < 256 ∧ bs = a :: (lengthPrefixed cmd ++ lengthPrefixed data) := by
  unfold writeOperands at h
  split at h
  · cases h
  · split at h
    · cases h
    · rename_i h₁
      split at h
      · rename_i h₂
        simp only [Option.some.injEq, Prod.mk.injEq] at h
        obtain ⟨rfl, rfl, rfl⟩ := h
        obtain ⟨l₁, e₁⟩ := takeField_spec h₁
        obtain ⟨l₂, e₂⟩ := takeField_spec h₂
        exact ⟨l₁, l₂, by rw [e₁, e₂]; simp⟩
      · cases h

/-- The operands of PUSH_DATETIME are the slot index and three length-prefixed lists. -/
theorem dateTimeOperands_spec {bs : List Byte} {k : Byte} {time date utc : List Byte}
    (h : dateTimeOperands bs = some (k, time, date, utc)) :
    time.length < 256 ∧ date.length < 256 ∧ utc.length < 256
      ∧ bs = k :: (lengthPrefixed time ++ lengthPrefixed date ++ lengthPrefixed utc) := by
  unfold dateTimeOperands at h
  split at h
  · cases h
  · split at h
    · cases h
    · rename_i h₁
      split at h
      · cases h
      · rename_i h₂
        split at h
        · rename_i h₃
          simp only [Option.some.injEq, Prod.mk.injEq] at h
          obtain ⟨rfl, rfl, rfl, rfl⟩ := h
          obtain ⟨l₁, e₁⟩ := takeField_spec h₁
          obtain ⟨l₂, e₂⟩ := takeField_spec h₂
          obtain ⟨l₃, e₃⟩ := takeField_spec h₃
          exact ⟨l₁, l₂, l₃, by rw [e₁, e₂, e₃]; simp⟩
        · cases h

/-- `now` survives its four bytes. -/
theorem timeOfBytes_timeToBytes (t : Time) :
    timeOfBytes (BitVec.ofNat 8 t.toNat) (BitVec.ofNat 8 (t.toNat / 256)) (BitVec.ofNat 8 (t.toNat / 65536))
      (BitVec.ofNat 8 (t.toNat / 16777216)) = t := by
  apply BitVec.eq_of_toNat_eq
  have := t.isLt
  simp [timeOfBytes]
  omega

/-- Four bytes survive the time they make. -/
theorem timeToBytes_timeOfBytes (b0 b1 b2 b3 : Byte) : timeToBytes (timeOfBytes b0 b1 b2 b3) = [b0, b1, b2, b3] := by
  have h₀ := b0.isLt
  have h₁ := b1.isLt
  have h₂ := b2.isLt
  have h₃ := b3.isLt
  have hn : (timeOfBytes b0 b1 b2 b3).toNat = b0.toNat + 256 * b1.toNat + 65536 * b2.toNat + 16777216 * b3.toNat := by
    simp [timeOfBytes]; omega
  simp only [timeToBytes, hn, List.cons.injEq, and_true]
  refine ⟨?_, ?_, ?_, ?_⟩ <;> (apply BitVec.eq_of_toNat_eq; simp; omega)

/-- A byte that stands for an opcode is that opcode's byte. -/
theorem Opcode.toByte_of_ofByte {b : Byte} {op : Opcode} (h : Opcode.ofByte b = some op) : op.toByte = b := by
  unfold Opcode.ofByte at h
  obtain ⟨e, he, rfl⟩ := Option.map_eq_some_iff.mp h
  have hall : ∀ e ∈ opcodeTable, e.2.toByte = e.1 := by decide
  rw [hall e (List.mem_of_find?_eq_some he)]
  simpa using List.find?_some he

/-- Every opcode's byte stands for it. -/
theorem Opcode.ofByte_toByte (op : Opcode) : Opcode.ofByte op.toByte = some op := by cases op <;> rfl

/-- Byte n + 1 of a request is byte n of what follows its first byte. -/
theorem byteAt_succ (b : Byte) (rest : List Byte) (n : Nat) : byteAt (b :: rest) (n + 1) = byteAt rest n := rfl

end Sys2Proof
end

