-- ==== Sys2Proof/Laws/Echo.lean ====
section
/-! SUPPORT. When the bytes of the bus reach `RX` during a verified write: the primitive boundaries that its transmission and its echo
readback take (41_bus_ops.md R135, R136). -/

namespace Sys2Proof.Machine

/-! ### Primitive boundaries -/

/-- The bus's act brings the next chunk. -/
theorem busAct_eq (s : State) : busAct s = { s with rx := s.rx ++ arrivingWithin 1 s, arrivals := s.arrivals.drop 1 } := by
  unfold busAct arrivingWithin
  split
  · rename_i h
    have : { s with rx := s.rx ++ [], arrivals := [] } = s := by rw [List.append_nil, ← h]
    simpa [h] using this.symm
  · rename_i c rest h; rw [h]; simp

@[simp] theorem busAct_arrivals (s : State) : (busAct s).arrivals = s.arrivals.drop 1 := by rw [busAct_eq]

theorem busAct_rx (s : State) : (busAct s).rx = s.rx ++ arrivingWithin 1 s := by rw [busAct_eq]

/-- What arrives within m and n boundaries. -/
theorem arrivingWithin_add (m n : Nat) (s t : State) (h : t.arrivals = s.arrivals.drop m) :
    arrivingWithin (m + n) s = arrivingWithin m s ++ arrivingWithin n t := by
  rw [arrivingWithin, arrivingWithin, arrivingWithin, h, List.take_add, List.flatten_append]

/-- Nothing that arrives earlier, where nothing arrives within n boundaries. -/
theorem arrivingWithin_nil_of_le {m n : Nat} {s : State} (h : arrivingWithin n s = []) (hm : m ≤ n) : arrivingWithin m s = [] := by
  obtain ⟨d, rfl⟩ := Nat.exists_eq_add_of_le hm
  rw [arrivingWithin_add m d s { s with arrivals := s.arrivals.drop m } rfl] at h
  exact (List.append_eq_nil_iff.mp h).1

/-- What arrives within n boundaries comes first of all that is to arrive. -/
theorem arrivals_flatten_eq (n : Nat) (s : State) : s.arrivals.flatten = arrivingWithin n s ++ (s.arrivals.drop n).flatten := by
  rw [arrivingWithin, ← List.flatten_append, List.take_append_drop]

/-- A transmission takes one boundary for each byte and one for the flush. -/
theorem transmit_arrivals (bytes : List Byte) (s : State) :
    (transmit bytes s).arrivals = s.arrivals.drop (bytes.length + 1) := by
  have key : ∀ s, (pushAll bytes s).arrivals = s.arrivals.drop bytes.length := by
    induction bytes with
    | nil => intro s; simp [pushAll]
    | cons b rest ih =>
      intro s
      rw [pushAll, ih, show (txPush b s).arrivals = s.arrivals.drop 1 by simp [txPush], List.drop_drop, List.length_cons, Nat.add_comm]
  show (busAct (pushAll bytes s)).arrivals = _
  rw [busAct_arrivals, key, List.drop_drop]

/-- A transmission during which nothing else arrives leaves in `RX` what waited there and then its echo, if the line echoes at once. -/
theorem transmit_rx_silent {bytes : List Byte} {s : State} (h : arrivingWithin (bytes.length + 1) s = []) :
    (transmit bytes s).rx = s.rx ++ (if s.loopback then bytes else []) := by
  have key : ∀ s, arrivingWithin (bytes.length + 1) s = [] →
      (pushAll bytes s).rx = s.rx ++ (if s.loopback then bytes else []) ∧ arrivingWithin 1 (pushAll bytes s) = [] := by
    clear h
    induction bytes with
    | nil => intro s h; exact ⟨by simp [pushAll], h⟩
    | cons b rest ih =>
      intro s h
      have ha : (txPush b s).arrivals = s.arrivals.drop 1 := by simp [txPush]
      rw [List.length_cons, show rest.length + 1 + 1 = 1 + (rest.length + 1) from by omega, arrivingWithin_add 1 _ s _ ha] at h
      obtain ⟨h₁, h₂⟩ := List.append_eq_nil_iff.mp h
      obtain ⟨e₁, e₂⟩ := ih (txPush b s) h₂
      refine ⟨?_, e₂⟩
      rw [pushAll, e₁]
      cases hl : s.loopback <;> simp [txPush, busAct_rx, h₁, hl]
  obtain ⟨e₁, e₂⟩ := key s h
  show (busAct (pushAll bytes s)).rx = _
  rw [busAct_rx, e₂, e₁, List.append_nil]

/-! ### The echo readback -/

/-- A readback that ends in HARDWARE_FAULT has looked once for each poll tick it took, and once more: two boundaries for each tick, and
one. -/
theorem echoLoop_boundaries {fuel : Nat} {tx got : List Byte} {ticks : Nat} {s t : State}
    (h : echoLoop fuel tx got ticks s = .ok (.hardwareFault, t)) :
    ∃ m, 2 * (s.cfg.echoPollLimit - ticks) + 1 ≤ m ∧ t.arrivals = s.arrivals.drop m := by
  induction fuel generalizing got ticks s with
  | zero => cases h
  | succ f ih =>
    unfold echoLoop at h
    rw [rxCount_eq] at h
    dsimp only at h
    split at h
    · split at h
      · cases h
      · rename_i b u hpop
        obtain ⟨m, hm, he⟩ := ih h
        have hu : u.arrivals = s.arrivals.drop 2 ∧ u.cfg = s.cfg := by
          unfold rxPop at hpop
          dsimp only at hpop
          split at hpop
          · cases hpop
          · cases hpop; simp
        rw [hu.2] at hm
        exact ⟨2 + m, by omega, by rw [he, hu.1, List.drop_drop]⟩
    · split at h
      · split at h <;> simp at h
      · split at h
        · rename_i hl
          cases h
          exact ⟨1, by rw [busAct_cfg] at hl; omega, by simp⟩
        · obtain ⟨m, hm, he⟩ := ih h
          have hu : (pollWait (busAct s)).arrivals = s.arrivals.drop 2 := by simp [pollWait]
          rw [show (pollWait (busAct s)).cfg = s.cfg by simp [pollWait]] at hm
          exact ⟨2 + m, by omega, by rw [he, hu, List.drop_drop]⟩

/-- A readback with nothing in `RX` waits j poll ticks while nothing arrives. -/
theorem echoLoop_wait {tx got : List Byte} (hgot : got.length < tx.length) (fuel : Nat) (j : Nat) :
    ∀ (ticks : Nat) (s : State), s.rx = [] → arrivingWithin (2 * j) s = [] → ticks + j ≤ s.cfg.echoPollLimit →
      ∃ u, echoLoop (fuel + j) tx got ticks s = echoLoop fuel tx got (ticks + j) u ∧ OnlyBusMoved s u ∧ u.rx = []
        ∧ u.arrivals = s.arrivals.drop (2 * j) ∧ u.polls = s.polls + j := by
  induction j with
  | zero => intro ticks s hrx _ _; exact ⟨s, rfl, .refl s, hrx, by simp, rfl⟩
  | succ j ih =>
    intro ticks s hrx ha hl
    have hb : (pollWait (busAct s)).arrivals = s.arrivals.drop 2 := by simp [pollWait]
    rw [show 2 * (j + 1) = 2 + 2 * j from by omega, arrivingWithin_add 2 _ s _ hb] at ha
    obtain ⟨h₂, h₃⟩ := List.append_eq_nil_iff.mp ha
    have h₁ := arrivingWithin_nil_of_le h₂ (m := 1) (by omega)
    have hrx₁ : (busAct s).rx = [] := by rw [busAct_rx, hrx, h₁]; rfl
    have hrx₂ : (pollWait (busAct s)).rx = [] := by
      rw [arrivingWithin_add 1 1 s (busAct s) (by simp)] at h₂
      show (busAct (busAct s)).rx = []
      rw [busAct_rx, hrx₁, (List.append_eq_nil_iff.mp h₂).2]; rfl
    obtain ⟨hm, -, hp⟩ := pollWait_spec (busAct s)
    have hm' := (onlyBusMoved_busAct s).trans hm
    obtain ⟨u, hrun, hmu, hru, hau, hpu⟩ := ih (ticks + 1) _ hrx₂ h₃ (by rw [hm'.cfg]; omega)
    refine ⟨u, ?_, hm'.trans hmu, hru, by rw [hau, hb, List.drop_drop]; congr 1; omega, by rw [hpu, hp, busAct_polls]; omega⟩
    rw [show ticks + (j + 1) = ticks + 1 + j from by omega, ← hrun, show fuel + (j + 1) = fuel + j + 1 from by omega, echoLoop]
    have hn : ¬ got.length = tx.length := by omega
    have ht : ¬ ticks = s.cfg.echoPollLimit := by omega
    simp only [rxCount_eq, hrx₁, List.length_nil, lt_self_iff_false, decide_false, Bool.false_and, Bool.false_eq_true, if_false, hn, ht,
      busAct_cfg]

/-- A readback that finds in `RX` all it still needs takes exactly that, without a poll tick, and compares. -/
theorem echoLoop_enough {tx : List Byte} (need : Nat) :
    ∀ (got : List Byte) (fuel ticks : Nat) (s : State), got.length + need = tx.length → need ≤ s.rx.length → need < fuel →
      ∃ t, echoLoop fuel tx got ticks s = .ok (if got ++ s.rx.take need = tx then .ok else .busConflict, t) ∧ OnlyBusMoved s t
        ∧ t.polls = s.polls ∧ stream t = (stream s).drop need := by
  induction need with
  | zero =>
    intro got fuel ticks s hg _ hf
    obtain ⟨f, rfl⟩ : ∃ f, fuel = f + 1 := ⟨fuel - 1, by omega⟩
    have hg' : got.length = tx.length := by omega
    exact ⟨busAct s, by simp [echoLoop, hg'], onlyBusMoved_busAct s, by simp, by simp⟩
  | succ need ih =>
    intro got fuel ticks s hg hn hf
    obtain ⟨f, rfl⟩ : ∃ f, fuel = f + 1 := ⟨fuel - 1, by omega⟩
    obtain ⟨b, rest, hb⟩ := List.exists_cons_of_ne_nil (List.ne_nil_of_length_pos (by omega : 0 < s.rx.length))
    have hrx₁ : (busAct s).rx = b :: (rest ++ arrivingWithin 1 s) := by rw [busAct_rx, hb]; rfl
    have hrx₂ : (busAct (busAct s)).rx = b :: (rest ++ arrivingWithin 1 s ++ arrivingWithin 1 (busAct s)) := by
      rw [busAct_rx, hrx₁]; simp
    have hlt : got.length < tx.length := by omega
    have hlen : need ≤ rest.length := by rw [hb] at hn; simpa using hn
    obtain ⟨t, hrun, hmv, hpl, hst⟩ := ih (got ++ [b]) f ticks
      { busAct (busAct s) with rx := rest ++ arrivingWithin 1 s ++ arrivingWithin 1 (busAct s) } (by simp; omega)
      (by simp only [List.length_append]; omega) (by omega)
    have h₂ := (onlyBusMoved_busAct s).trans (onlyBusMoved_busAct (busAct s))
    refine ⟨t, ?_, ⟨hmv.cfg.trans h₂.cfg, hmv.reg.trans h₂.reg, hmv.pend.trans h₂.pend, hmv.ctrl.trans h₂.ctrl,
      hmv.tx.trans h₂.tx, hmv.loopback.trans h₂.loopback, hmv.requests.trans h₂.requests, hmv.responses.trans h₂.responses⟩,
      by simpa using hpl, ?_⟩
    · simp only [echoLoop, rxCount_eq, hrx₁, List.length_cons, Nat.zero_lt_succ, decide_true, hlt, Bool.and_self, if_true, rxPop, hrx₂]
      rw [hrun]
      have : ((rest ++ arrivingWithin 1 s ++ arrivingWithin 1 (busAct s)).take need) = rest.take need := by
        rw [List.append_assoc, List.take_append_of_le_length hlen]
      rw [this, hb, List.take_succ_cons, List.append_assoc, List.singleton_append]
    · rw [hst]
      have e : stream s = b :: stream { busAct (busAct s) with rx := rest ++ arrivingWithin 1 s ++ arrivingWithin 1 (busAct s) } := by
        rw [← stream_busAct s, ← stream_busAct (busAct s), stream, stream, hrx₂]; rfl
      rw [e, List.drop_succ_cons]

/-! ### The verified write -/

/-- Where a verified write stands when its readback begins, if nothing waits and nothing arrives before the transmission: after the two looks
of drain and arbitration, and the transmission. -/
theorem busWrite_verified {mode : WriteMode} {a : Byte} {cmd data : List Byte} {s t : State} {status : Status} (hmode : mode ≠ .fast)
    (hrx : s.rx = []) (ha : arrivingWithin 2 s = []) (ht : t.cfg = s.cfg)
    (h : echoVerify (txBytes s.cfg mode a cmd data) (transmit (txBytes s.cfg mode a cmd data) (busAct (busAct s))) = .ok (status, t)) :
    busWrite mode a cmd data s = .ok (writeResult s.cfg status cmd, t) := by
  have h₁ := arrivingWithin_nil_of_le ha (m := 1) (by omega)
  rw [arrivingWithin_add 1 1 s (busAct s) (by simp)] at ha
  have hrx₁ : (busAct s).rx = [] := by rw [busAct_rx, hrx, h₁]; rfl
  have hrx₂ : (busAct (busAct s)).rx = [] := by rw [busAct_rx, hrx₁, (List.append_eq_nil_iff.mp ha).2]; rfl
  have hd : drain s = .ok (busAct s) := by simp [drain, hrx₁]
  unfold busWrite
  simp only [hd, rxCount_eq, hrx₂, List.length_nil, lt_self_iff_false, if_false, busAct_cfg]
  cases mode with
  | fast => exact absurd rfl hmode
  | checked => simp only [h, ht]
  | powerOn => simp only [h, ht]

end Sys2Proof.Machine
end

