-- ==== Sys2Proof/Laws/Frames.lean ====
section
/-! SUPPORT. What the receive path does with a whole frame, and what registering and unregistering do to `RegKnown`. -/

namespace Sys2Proof.Machine

/-- A byte is no framing byte if it is neither START nor STOP (00_scope.md R12). -/
theorem isFraming_eq_false (b : Byte) : isFraming b = false ↔ b ≠ 0xFE#8 ∧ b ≠ 0xFD#8 := by
  simp [isFraming, startByte, stopByte]

/-- The two accepted destinations of a well-formed configuration are no framing bytes (00_scope.md R10). -/
theorem wellFormed_addresses {cfg : Config} (h : cfg.wellFormed = true) :
    isFraming cfg.addrAll = false ∧ isFraming cfg.addrMaster = false := by
  simp only [Config.wellFormed, configOk, addressesOk, Bool.and_eq_true, Bool.not_eq_true'] at h
  tauto

/-- The four bytes before a frame's body take the receive state machine from Idle to Collect (40_receive.md R107 to R110). -/
theorem fsmFrom_header (cfg : Config) (dst src : Byte) (h : cfg.wellFormed = true)
    (hd : dst = cfg.addrAll ∨ dst = cfg.addrMaster) (hs : isFraming src = false) :
    fsmFrom cfg (.idle, []) [0xFE,0xFE,dst,src] = (.collect, [0xFE,0xFE,dst,src]) := by
  have hdf : isFraming dst = false := by
    rcases hd with rfl | rfl
    exacts [(wellFormed_addresses h).1, (wellFormed_addresses h).2]
  have e : ∀ x, fsmFrom cfg (.collect, [0xFE,0xFE]) [dst, src] = x → fsmFrom cfg (.idle, []) [0xFE,0xFE,dst,src] = x := by
    intro x h; rw [← h]; simp [rxStep, startByte]
  apply e
  rw [isFraming_eq_false] at hdf hs
  rcases hd with rfl | rfl <;> simp [rxStep, startByte, stopByte, maxFrame, hdf, hs]

/-- A frame whose body holds no framing byte and fits takes the state machine to Stop with its last byte
(40_receive.md R110). -/
theorem fsmFrom_frame (cfg : Config) (dst src : Byte) (body : List Byte) (h : cfg.wellFormed = true)
    (hd : dst = cfg.addrAll ∨ dst = cfg.addrMaster) (hs : isFraming src = false) (hb : ∀ b ∈ body, isFraming b = false)
    (hl : body.length ≤ 13) :
    fsmFrom cfg (.idle, []) ([0xFE,0xFE,dst,src] ++ body) = (.collect, [0xFE,0xFE,dst,src] ++ body)
      ∧ fsmFrom cfg (.idle, []) ([0xFE,0xFE,dst,src] ++ body ++ [0xFD]) = (.stop, [0xFE,0xFE,dst,src] ++ body ++ [0xFD]) := by
  have e : fsmFrom cfg (.idle, []) ([0xFE,0xFE,dst,src] ++ body) = (.collect, [0xFE,0xFE,dst,src] ++ body) := by
    rw [fsmFrom_append, fsmFrom_header cfg dst src h hd hs, fsmFrom_collect (by simp) (by simp [maxFrame]; omega) hb]
  refine ⟨e, ?_⟩
  rw [fsmFrom_append, e]
  simp [rxStep, startByte, stopByte]

/-- The frame of a wire-valid pair is classified as that pair (30_encoding.md R84, 40_receive.md R116). -/
theorem classify_wireValid (cfg : Config) (dst src : Byte) (cmd data : List Byte)
    (hv : wireValid cfg.compound cmd data = true) :
    classify cfg ([0xFE,0xFE,dst,src] ++ (cmd ++ data) ++ [0xFD]) =
      if data = [] then ⟨.ok, src, cmd, [], 0⟩ else ⟨.okWithData, src, cmd, data, numVal cfg.numericMode data⟩ := by
  simp only [wireValid, Bool.and_eq_true, beq_iff_eq, Bool.not_eq_true', decide_eq_true_eq] at hv
  obtain ⟨⟨⟨⟨⟨h1, h2⟩, h3⟩, h4⟩, h5⟩, h6⟩ := hv
  cases cmd with
  | nil => simp [isCommandLength] at h1
  | cons b0 rest =>
    simp only [startsWithMarker, isMarker, Bool.or_eq_false_iff, beq_eq_false_iff_ne] at h3
    have hd : (b0 :: (rest ++ data ++ [253#8])).dropLast = b0 :: (rest ++ data) := by
      rw [← List.cons_append, List.dropLast_concat]
    have hlen : ¬ ([0xFE,0xFE,dst,src] ++ ((b0 :: rest) ++ data) ++ [0xFD]).length < 6 := by simp; omega
    have hdrop : (([0xFE,0xFE,dst,src] ++ ((b0 :: rest) ++ data) ++ [0xFD]).drop 4).dropLast = b0 :: (rest ++ data) := by
      simp only [List.cons_append, List.nil_append, List.drop_succ_cons, List.drop_zero]
      exact hd
    have hsrc : ([0xFE,0xFE,dst,src] ++ ((b0 :: rest) ++ data) ++ [0xFD]).getD 3 0 = src := rfl
    rw [classify, if_neg hlen, hdrop, hsrc]
    have h2' : cmdLen cfg.compound (b0 :: (rest ++ data)) = (b0 :: rest).length := h2
    have htake : (b0 :: (rest ++ data)).take (b0 :: rest).length = b0 :: rest := by
      rw [← List.cons_append, List.take_left]
    have hdr : (b0 :: (rest ++ data)).drop (b0 :: rest).length = data := by
      rw [← List.cons_append, List.drop_left]
    simp only [classifyBody, beq_iff_eq, h3, if_false]
    rw [h2', htake, hdr, if_neg (by simp), if_neg (by omega)]
    cases data <;> simp

/-- What wire-validity says of the bytes (30_encoding.md R83). -/
theorem wireValid_bytes {c : List Byte} {cmd data : List Byte} (hv : wireValid c cmd data = true) :
    (∀ b ∈ cmd ++ data, isFraming b = false) ∧ (cmd++data).length ≤ 13 ∧ cmd ≠ [] := by
  simp only [wireValid, Bool.and_eq_true, beq_iff_eq, Bool.not_eq_true', decide_eq_true_eq, List.any_eq_false, maxData,
    isCommandLength, Bool.or_eq_true] at hv
  obtain ⟨⟨⟨⟨⟨h1, h2⟩, h3⟩, h4⟩, h5⟩, h6⟩ := hv
  refine ⟨fun b hb => ?_, ?_, ?_⟩
  · rcases List.mem_append.mp hb with h | h
    · simpa using h5 b h
    · simpa using h6 b h
  · simp only [List.length_append]; omega
  · rintro rfl; simp at h1

/-- A raw read takes a whole frame that waits in `RX`, without a poll tick, and leaves what stands behind it. -/
theorem readRaw_body {s : State} {dst src : Byte} {body behind : List Byte} (h : s.cfg.wellFormed = true)
    (hd : dst = s.cfg.addrAll ∨ dst = s.cfg.addrMaster) (hs : isFraming src = false) (hb : ∀ b ∈ body, isFraming b = false)
    (hl : body.length ≤ 13) (hrx : s.rx = [0xFE,0xFE,dst,src] ++ body ++ [0xFD] ++ behind) :
    ∃ t, readRaw s = .ok (classify s.cfg ([0xFE,0xFE,dst,src] ++ body ++ [0xFD]), t) ∧ OnlyBusMoved s t
      ∧ t.polls = s.polls ∧ stream t = behind ++ s.arrivals.flatten := by
  obtain ⟨f1, f2⟩ := fsmFrom_frame s.cfg dst src body h hd hs hb hl
  have := readRaw_frame (s := s) (q := [0xFE,0xFE,dst,src] ++ body) (b := 0xFD) (behind := behind) (by rw [hrx]; simp)
    (by rw [f1]; simp) (by rw [f2])
  rw [f2] at this
  exact this

/-- Registering changes nothing, or writes the address into one free slot (41_bus_ops.md R143). -/
theorem registerAddress_cases (a : Byte) (s : State) :
    (registerAddress a s = s ∧ (a = s.cfg.addrNone ∨ a ∈ s.reg ∨ s.cfg.addrNone ∉ s.reg))
      ∨ (a ≠ s.cfg.addrNone ∧ a ∉ s.reg ∧ ∃ i, i < s.reg.length ∧ s.reg[i]? = some s.cfg.addrNone
        ∧ registerAddress a s = { s with reg := s.reg.set i a }) := by
  unfold registerAddress
  by_cases h1 : a = s.cfg.addrNone
  · simp [h1]
  by_cases h2 : a ∈ s.reg
  · have : regKnown a s = true := (regKnown_iff a s).mpr ⟨h1, h2⟩
    simp [this, h2]
  have : regKnown a s = false := by rw [← Bool.not_eq_true, regKnown_iff]; tauto
  cases h3 : regFree s with
  | none => left; simp [h1, this, regFree_none.mp h3]
  | some i =>
    right
    obtain ⟨x, y, -⟩ := regFree_some h3
    exact ⟨h1, h2, i, x, y, by simp [h1, this]⟩

/-- Registering an address leaves the others as known as they were. -/
theorem regKnown_registerAddress_other {a b : Byte} {s : State} (h : b ≠ a) :
    regKnown b (registerAddress a s) = regKnown b s := by
  rcases registerAddress_cases a s with ⟨e, -⟩ | ⟨h1, h2, i, hi, hz, e⟩
  · rw [e]
  · rw [e, Bool.eq_iff_iff, regKnown_iff, regKnown_iff]
    refine and_congr_right fun hb => ⟨fun hm => ?_, fun hm => ?_⟩
    · rcases List.mem_or_eq_of_mem_set hm with h' | h'
      · exact h'
      · exact absurd h' h
    · obtain ⟨j, hj, rfl⟩ := List.mem_iff_getElem.mp hm
      have : j ≠ i := by
        rintro rfl
        simp [List.getElem?_eq_getElem hj] at hz
        exact hb hz
      exact List.mem_iff_getElem.mpr ⟨j, by simpa using hj, by simp [List.getElem_set_ne (Ne.symm this)]⟩

/-- Unregistering an address leaves the others as known as they were. -/
theorem regKnown_unregisterAddress_other {a b : Byte} {s : State} (h : b ≠ a) :
    regKnown b (unregisterAddress a s) = regKnown b s := by
  unfold unregisterAddress
  split
  · rfl
  · rw [Bool.eq_iff_iff, regKnown_iff, regKnown_iff]
    refine and_congr_right fun hb => ?_
    simp only [List.mem_map]
    constructor
    · rintro ⟨x, hx, rfl⟩
      split at h <;> rename_i hxa
      · simp [hxa] at hb
      · simpa [hxa] using hx
    · intro hm
      exact ⟨b, hm, by simp [h]⟩

/-- A registered address is known if it was present or found a free slot. -/
theorem regKnown_registerAddress_self {a : Byte} {s : State} (h : a ≠ s.cfg.addrNone)
    (h' : a ∈ s.reg ∨ s.cfg.addrNone ∈ s.reg) : regKnown a (registerAddress a s) = true := by
  rcases registerAddress_cases a s with ⟨e, e'⟩ | ⟨h1, h2, i, hi, hz, e⟩
  · rw [e, regKnown_iff]; refine ⟨h, ?_⟩; tauto
  · rw [e, regKnown_iff]; exact ⟨h1, List.mem_set hi a⟩

/-- An unregistered address is not known. -/
theorem regKnown_unregisterAddress_self {a : Byte} {s : State} : regKnown a (unregisterAddress a s) = false := by
  rw [← Bool.not_eq_true, regKnown_iff]
  rintro ⟨h1, h2⟩
  simp only [unregisterAddress_cfg] at h1
  unfold unregisterAddress at h2
  simp only [beq_iff_eq, h1, if_false, List.mem_map] at h2
  obtain ⟨x, hx, h3⟩ := h2
  split at h3
  · exact h1 h3.symm
  · rename_i h4; exact h4 h3

end Sys2Proof.Machine
end

