-- ==== Sys2Proof/Laws/PerInstr.lean ====
section
/-! SUPPORT. A statement about every instruction as syntax, proved once for each constructor: the length of an encoding is the one that
its opcode and its own length bytes give (30_encoding.md R87, R92). -/

namespace Sys2Proof.Laws.EncodedLength

/-- A well-formed instruction's encoding has the length that its own first byte and length bytes give. -/
def Statement (i : Instr) : Prop := i.wellFormed = true → requestLength (encode i) = (encode i).length

theorem readRaw : Statement .readRaw := fun _ => rfl
theorem readAddr (a : Byte) : Statement (.readAddr a) := fun _ => rfl
theorem regAddr (a : Byte) : Statement (.regAddr a) := fun _ => rfl
theorem unregAddr (a : Byte) : Statement (.unregAddr a) := fun _ => rfl
theorem isKnown (a : Byte) : Statement (.isKnown a) := fun _ => rfl
theorem ctrlCreate (k a md : Byte) : Statement (.ctrlCreate k a md) := fun _ => rfl
theorem ctrlDestroy (k : Byte) : Statement (.ctrlDestroy k) := fun _ => rfl
theorem tick (k : Byte) (now : Time) : Statement (.tick k now) := fun _ => rfl
theorem getPower (k : Byte) : Statement (.getPower k) := fun _ => rfl
theorem setPower (k q : Byte) (now : Time) : Statement (.setPower k q now) := fun _ => rfl
theorem getMode (k : Byte) : Statement (.getMode k) := fun _ => rfl
theorem setMode (k m : Byte) : Statement (.setMode k m) := fun _ => rfl
theorem getFreq (k : Byte) : Statement (.getFreq k) := fun _ => rfl
theorem getModulation (k : Byte) : Statement (.getModulation k) := fun _ => rfl
theorem getRxFilter (k : Byte) : Statement (.getRxFilter k) := fun _ => rfl
theorem setAddress (k a : Byte) : Statement (.setAddress k a) := fun _ => rfl
theorem getAddress (k : Byte) : Statement (.getAddress k) := fun _ => rfl

/-- The byte after a list. -/
theorem byteAt_after (l rest : List Byte) (b : Byte) (n : Nat) (h : n = l.length) : byteAt (l ++ b :: rest) n = b := by
  subst h; simp [byteAt]

/-- The length that the bytes of a WRITE give. -/
theorem writeLength (a : Byte) (cmd data : List Byte) (h : (fitsLengthByte cmd && fitsLengthByte data) = true) :
    4 + (byteAt (a :: (lengthPrefixed cmd ++ lengthPrefixed data)) 1).toNat
        + (byteAt (a :: (lengthPrefixed cmd ++ lengthPrefixed data))
            (2 + (byteAt (a :: (lengthPrefixed cmd ++ lengthPrefixed data)) 1).toNat)).toNat
      = (a :: (lengthPrefixed cmd ++ lengthPrefixed data)).length + 1 := by
  simp only [fitsLengthByte, Bool.and_eq_true, decide_eq_true_eq] at h
  have hc : (BitVec.ofNat 8 cmd.length).toNat = cmd.length := by simp; omega
  have hd : (BitVec.ofNat 8 data.length).toNat = data.length := by simp; omega
  have h₁ : byteAt (a :: (lengthPrefixed cmd ++ lengthPrefixed data)) 1 = BitVec.ofNat 8 cmd.length := rfl
  have h₂ : byteAt (a :: (lengthPrefixed cmd ++ lengthPrefixed data)) (2 + cmd.length) = BitVec.ofNat 8 data.length :=
    byteAt_after (a :: BitVec.ofNat 8 cmd.length :: cmd) data _ _ (by simp; omega)
  rw [h₁, hc, h₂, hd]
  simp [lengthPrefixed]
  omega

theorem writeFast (a : Byte) (cmd data : List Byte) : Statement (.writeFast a cmd data) := fun h => by
  have := writeLength a cmd data h
  have e : ∀ n, byteAt (encode (.writeFast a cmd data)) (n + 1) = byteAt (a :: (lengthPrefixed cmd ++ lengthPrefixed data)) n := fun _ => rfl
  simp only [requestLength, show Opcode.ofByte (byteAt (encode (.writeFast a cmd data)) 0) = some .writeFast from rfl, e 1]
  rw [show ∀ n, 3 + n = 2 + n + 1 by omega, e, this]
  rfl

theorem writeChecked (a : Byte) (cmd data : List Byte) : Statement (.writeChecked a cmd data) := fun h => by
  have := writeLength a cmd data h
  have e : ∀ n, byteAt (encode (.writeChecked a cmd data)) (n + 1) = byteAt (a :: (lengthPrefixed cmd ++ lengthPrefixed data)) n := fun _ => rfl
  simp only [requestLength, show Opcode.ofByte (byteAt (encode (.writeChecked a cmd data)) 0) = some .writeChecked from rfl, e 1]
  rw [show ∀ n, 3 + n = 2 + n + 1 by omega, e, this]
  rfl

theorem writePowerOn (a : Byte) (cmd data : List Byte) : Statement (.writePowerOn a cmd data) := fun h => by
  have := writeLength a cmd data h
  have e : ∀ n, byteAt (encode (.writePowerOn a cmd data)) (n + 1) = byteAt (a :: (lengthPrefixed cmd ++ lengthPrefixed data)) n := fun _ => rfl
  simp only [requestLength, show Opcode.ofByte (byteAt (encode (.writePowerOn a cmd data)) 0) = some .writePowerOn from rfl, e 1]
  rw [show ∀ n, 3 + n = 2 + n + 1 by omega, e, this]
  rfl

theorem pushDateTime (k : Byte) (time date utc : List Byte) : Statement (.pushDateTime k time date utc) := fun h => by
  simp only [Instr.wellFormed, fitsLengthByte, Bool.and_eq_true, decide_eq_true_eq] at h
  have ht : (BitVec.ofNat 8 time.length).toNat = time.length := by simp; omega
  have hd : (BitVec.ofNat 8 date.length).toNat = date.length := by simp; omega
  have hu : (BitVec.ofNat 8 utc.length).toNat = utc.length := by simp; omega
  have e₁ : byteAt (encode (.pushDateTime k time date utc)) 2 = BitVec.ofNat 8 time.length := rfl
  have e₂ : byteAt (encode (.pushDateTime k time date utc)) (3 + time.length) = BitVec.ofNat 8 date.length := by
    have := byteAt_after (0x4C :: k :: BitVec.ofNat 8 time.length :: time) (date ++ lengthPrefixed utc) (BitVec.ofNat 8 date.length)
      (3 + time.length) (by simp; omega)
    simpa [encode, encodeOperands, Instr.opcode, Opcode.toByte, lengthPrefixed] using this
  have e₃ : byteAt (encode (.pushDateTime k time date utc)) (4 + time.length + date.length) = BitVec.ofNat 8 utc.length := by
    have := byteAt_after (0x4C :: k :: BitVec.ofNat 8 time.length :: (time ++ BitVec.ofNat 8 date.length :: date)) utc
      (BitVec.ofNat 8 utc.length) (4 + time.length + date.length) (by simp; omega)
    simpa [encode, encodeOperands, Instr.opcode, Opcode.toByte, lengthPrefixed] using this
  simp only [requestLength, show Opcode.ofByte (byteAt (encode (.pushDateTime k time date utc)) 0) = some .pushDateTime from rfl,
    e₁, ht, e₂, hd, e₃, hu]
  simp [encode, encodeOperands, lengthPrefixed]
  omega

end Sys2Proof.Laws.EncodedLength
end

