-- ==== Sys2Proof/Laws/Slots.lean ====
section
/-! SUPPORT. No engine operation reads or writes a controller slot, and no controller operation reads or writes another slot: each
commutes with a write to that slot (20_memory.md R72). -/

namespace Sys2Proof.Machine

/-- A case split commutes with a map of its result, if each case does. -/
theorem ite_except_map {α β : Type} {p : Prop} [Decidable p] {f : α → β} {a b : Except Fault α} {x y : Except Fault β}
    (h₁ : p → x = a.map f) (h₂ : ¬ p → y = b.map f) : (if p then x else y) = Except.map f (if p then a else b) := by
  by_cases h : p
  · rw [if_pos h, if_pos h, h₁ h]
  · rw [if_neg h, if_neg h, h₂ h]

section
variable (j : Nat) (c : Controller)

/-- A result with slot j of its state overwritten. -/
def withSlot {α : Type} (p : α × State) : α × State := (p.1, p.2.setCtl j c)

@[simp] theorem busAct_setCtl (s : State) : busAct (s.setCtl j c) = (busAct s).setCtl j c := by
  unfold busAct
  rw [State.setCtl_arrivals]
  cases s.arrivals <;> rfl

theorem rxPop_setCtl (s : State) : rxPop (s.setCtl j c) = (rxPop s).map (withSlot j c) := by
  unfold rxPop
  simp only [busAct_setCtl, State.setCtl_rx]
  cases (busAct s).rx <;> rfl

theorem pollWait_setCtl (s : State) : pollWait (s.setCtl j c) = (pollWait s).setCtl j c := by
  unfold pollWait; rw [busAct_setCtl]; rfl

theorem txPush_setCtl (b) (s : State) : txPush b (s.setCtl j c) = (txPush b s).setCtl j c := by
  unfold txPush; rw [busAct_setCtl]; rfl

theorem txFlush_setCtl (s : State) : txFlush (s.setCtl j c) = (txFlush s).setCtl j c := by
  unfold txFlush; rw [busAct_setCtl]; rfl

theorem pushAll_setCtl (l) (s : State) : pushAll l (s.setCtl j c) = (pushAll l s).setCtl j c := by
  induction l generalizing s with
  | nil => rfl
  | cons b l ih => simp only [pushAll, txPush_setCtl, ih]

theorem transmit_setCtl (l) (s : State) : transmit l (s.setCtl j c) = (transmit l s).setCtl j c := by
  simp only [transmit, pushAll_setCtl, txFlush_setCtl]

theorem readRawLoop_setCtl (fuel st buf ticks) (s : State) :
    readRawLoop fuel st buf ticks (s.setCtl j c) = (readRawLoop fuel st buf ticks s).map (withSlot j c) := by
  induction fuel generalizing st buf ticks s with
  | zero => rfl
  | succ n ih =>
    simp only [readRawLoop, rxCount_eq, busAct_setCtl, State.setCtl_rx, State.setCtl_cfg, rxPop_setCtl, pollWait_setCtl, ih]
    refine ite_except_map (fun _ => ?_) (fun _ => ite_except_map (fun _ => rfl) fun _ => rfl)
    cases rxPop (busAct s) with
    | error f => rfl
    | ok p =>
      simp only [Except.map.eq_2, withSlot, State.setCtl_cfg, ih]
      exact ite_except_map (fun _ => rfl) fun _ => rfl

theorem readRaw_setCtl (s : State) :
    readRaw (s.setCtl j c) = (readRaw s).map (withSlot j c) := readRawLoop_setCtl j c _ _ _ _ _

theorem pendFind_setCtl (a) (s : State) : pendFind a (s.setCtl j c) = pendFind a s := rfl
theorem pendRoom_setCtl (s : State) : pendRoom (s.setCtl j c) = pendRoom s := rfl
theorem regKnown_setCtl (a) (s : State) : regKnown a (s.setCtl j c) = regKnown a s := rfl
theorem pendAppend_setCtl (a) (s : State) : pendAppend a (s.setCtl j c) = (pendAppend a s).setCtl j c := rfl
theorem pendTake_setCtl (a) (s : State) : pendTake a (s.setCtl j c) = withSlot j c (pendTake a s) := rfl

theorem sortResult_setCtl (a r) (s : State) : sortResult a r (s.setCtl j c) = withSlot j c (sortResult a r s) := by
  unfold sortResult
  rw [regKnown_setCtl, pendAppend_setCtl]
  split
  · rfl
  · split
    · rfl
    · split <;> rfl

theorem readFor_setCtl (a) (s : State) : readFor a (s.setCtl j c) = (readFor a s).map (withSlot j c) := by
  unfold readFor
  rw [pendFind_setCtl, pendRoom_setCtl, readRaw_setCtl]
  cases pendFind a s with
  | some i => rfl
  | none =>
    dsimp only
    split
    · cases readRaw s with
      | error f => rfl
      | ok p => simp only [Except.map, withSlot, sortResult_setCtl]
    · rfl

theorem drain_setCtl (s : State) : drain (s.setCtl j c) = (drain s).map (·.setCtl j c) := by
  unfold drain
  simp only [rxCount_eq, busAct_setCtl, State.setCtl_rx, pendRoom_setCtl, readRaw_setCtl]
  refine ite_except_map (fun _ => ?_) fun _ => rfl
  cases readRaw (busAct s) with
  | error f => rfl
  | ok p =>
    simp only [Except.map, withSlot, regKnown_setCtl, pendAppend_setCtl]
    congr 1
    by_cases hh : (p.1.status.dataClass && regKnown p.1.src p.2) = true
    · simp only [hh, if_true]
    · simp only [hh]; rfl

theorem echoLoop_setCtl (fuel tx got ticks) (s : State) :
    echoLoop fuel tx got ticks (s.setCtl j c) = (echoLoop fuel tx got ticks s).map (withSlot j c) := by
  induction fuel generalizing got ticks s with
  | zero => rfl
  | succ n ih =>
    simp only [echoLoop, rxCount_eq, busAct_setCtl, State.setCtl_rx, State.setCtl_cfg, rxPop_setCtl, pollWait_setCtl, ih]
    refine ite_except_map (fun _ => ?_) fun _ =>
      ite_except_map (fun _ => rfl) fun _ => ite_except_map (fun _ => rfl) fun _ => rfl
    cases rxPop (busAct s) with
    | error f => rfl
    | ok p => simp only [Except.map.eq_2, withSlot, ih]

theorem busWrite_setCtl (m a cmd data) (s : State) :
    busWrite m a cmd data (s.setCtl j c) = (busWrite m a cmd data s).map (withSlot j c) := by
  unfold busWrite
  simp only [drain_setCtl]
  cases drain s with
  | error f => rfl
  | ok d =>
    simp only [Except.map.eq_2, rxCount_eq, busAct_setCtl, State.setCtl_rx, State.setCtl_cfg, transmit_setCtl]
    refine ite_except_map (f := withSlot j c) (fun _ => rfl) fun _ => ?_
    have hecho : ∀ bytes u, echoVerify bytes (u.setCtl j c) = (echoVerify bytes u).map (withSlot j c) :=
      fun bytes u => echoLoop_setCtl j c _ _ _ _ _
    cases m with
    | fast => rfl
    | checked =>
      simp only [hecho]
      cases echoVerify _ (transmit (txBytes (busAct d).cfg .checked a cmd data) (busAct d)) <;> rfl
    | powerOn =>
      simp only [hecho]
      cases echoVerify _ (transmit (txBytes (busAct d).cfg .powerOn a cmd data) (busAct d)) <;> rfl

theorem busWrite'_setCtl (m a cmd data) (s : State) :
    busWrite' m a cmd data (s.setCtl j c) = (busWrite' m a cmd data s).map (·.setCtl j c) := by
  unfold busWrite'
  rw [busWrite_setCtl]
  cases busWrite m a cmd data s <;> rfl

variable {j}

theorem ctl_setCtl_ne {k : Nat} (h : k ≠ j) (s : State) : (s.setCtl j c).ctl k = s.ctl k := State.ctl_setCtl_other s j k c h

theorem setCtl_setCtl_comm {k : Nat} (h : k ≠ j) (s : State) (d) :
    (s.setCtl j c).setCtl k d = (s.setCtl k d).setCtl j c := by
  unfold State.setCtl
  simp only [List.set_comm _ _ h]

theorem modCtl_setCtl {k : Nat} (h : k ≠ j) (s : State) (f) : (s.setCtl j c).modCtl k f = (s.modCtl k f).setCtl j c := by
  unfold State.modCtl; rw [ctl_setCtl_ne c h, setCtl_setCtl_comm c h]

theorem sequenceStep_setCtl {k : Nat} (h : k ≠ j) (now) (s : State) :
    sequenceStep k now (s.setCtl j c) = (sequenceStep k now s).map (·.setCtl j c) := by
  unfold sequenceStep
  simp only [ctl_setCtl_ne c h, modCtl_setCtl c h, busWrite'_setCtl]
  split
  · split
    · rfl
    · split
      · rfl
      · split
        · rename_i command hc
          cases busWrite' .fast (s.ctl k).addr command.cmd command.data s with
          | error f => rfl
          | ok u => simp only [Except.map, modCtl_setCtl c h]
        · rfl
  · rfl

theorem followUpQueries_setCtl {k : Nat} (h : k ≠ j) (f) (s : State) :
    followUpQueries k f (s.setCtl j c) = (followUpQueries k f s).map (·.setCtl j c) := by
  unfold followUpQueries
  simp only [ctl_setCtl_ne c h, busWrite'_setCtl, State.setCtl_cfg]
  split
  · cases busWrite' .fast (s.ctl k).addr s.cfg.catalog.freqQuery [] s with
    | error f => rfl
    | ok u => simp only [Except.map, ctl_setCtl_ne c h, busWrite'_setCtl, State.setCtl_cfg]
  · rfl

theorem verifyQuery_setCtl {k : Nat} (h : k ≠ j) (now) (s : State) :
    verifyQuery k now (s.setCtl j c) = (verifyQuery k now s).map (·.setCtl j c) := by
  unfold verifyQuery
  simp only [ctl_setCtl_ne c h, busWrite'_setCtl, State.setCtl_cfg]
  split
  · cases busWrite' .fast (s.ctl k).addr s.cfg.catalog.modeQuery [] s with
    | error f => rfl
    | ok u => simp only [Except.map, modCtl_setCtl c h]
  · rfl

theorem identityPoll_setCtl {k : Nat} (h : k ≠ j) (now) (s : State) :
    identityPoll k now (s.setCtl j c) = (identityPoll k now s).map (·.setCtl j c) := by
  unfold identityPoll
  simp only [ctl_setCtl_ne c h, busWrite'_setCtl, State.setCtl_cfg]
  split
  · cases busWrite' .fast (s.ctl k).addr (modelOf s.cfg (s.ctl k)).idQuery [] s with
    | error f => rfl
    | ok u => simp only [Except.map, modCtl_setCtl c h]
  · rfl

theorem tickWrites_setCtl {k : Nat} (h : k ≠ j) (now f) (s : State) :
    tickWrites k now f (s.setCtl j c) = (tickWrites k now f s).map (·.setCtl j c) := by
  unfold tickWrites
  rw [sequenceStep_setCtl c h]
  cases sequenceStep k now s with
  | error f => rfl
  | ok u =>
    simp only [Except.map, followUpQueries_setCtl c h]
    cases followUpQueries k f u with
    | error f => rfl
    | ok u =>
      simp only [Except.map, verifyQuery_setCtl c h]
      cases verifyQuery k now u with
      | error f => rfl
      | ok u => simp only [Except.map, identityPoll_setCtl c h]

theorem tickSlot_setCtl {k : Nat} (h : k ≠ j) (now) (s : State) :
    tickSlot k now (s.setCtl j c) = (tickSlot k now s).map (withSlot j c) := by
  unfold tickSlot
  simp only [modCtl_setCtl c h, ctl_setCtl_ne c h, readFor_setCtl]
  cases readFor ((s.modCtl k (firstTick now)).ctl k).addr (s.modCtl k (firstTick now)) with
  | error f => rfl
  | ok p =>
    simp only [Except.map, withSlot, ctl_setCtl_ne c h, modCtl_setCtl c h, tickWrites_setCtl c h, State.setCtl_cfg]
    cases tickWrites k now (digestFollowUp p.2.cfg now p.1 (p.2.ctl k)) (p.2.modCtl k (digest p.2.cfg now p.1)) <;> rfl

theorem requestPower_setCtl {k : Nat} (h : k ≠ j) (q now) (s : State) :
    requestPower k q now (s.setCtl j c) = (requestPower k q now s).map (·.setCtl j c) := by
  unfold requestPower powerOnAct powerOffAct
  simp only [ctl_setCtl_ne c h, busWrite'_setCtl, State.setCtl_cfg]
  split
  · split
    · rfl
    · cases busWrite' .powerOn (s.ctl k).addr s.cfg.catalog.pwrOn.cmd s.cfg.catalog.pwrOn.data s with
      | error f => rfl
      | ok u => simp only [Except.map, modCtl_setCtl c h]
  · split
    · rfl
    · cases busWrite' .checked (s.ctl k).addr s.cfg.catalog.pwrOff.cmd s.cfg.catalog.pwrOff.data s with
      | error f => rfl
      | ok u => simp only [Except.map, modCtl_setCtl c h]

theorem sendGroups_setCtl {k : Nat} (h : k ≠ j) (ti da ut) (s : State) :
    sendGroups k ti da ut (s.setCtl j c) = (sendGroups k ti da ut s).map (·.setCtl j c) := by
  unfold sendGroups
  simp only [ctl_setCtl_ne c h, busWrite'_setCtl, State.setCtl_cfg]
  cases busWrite' .checked (s.ctl k).addr s.cfg.catalog.dtUtc ut s with
  | error f => rfl
  | ok u =>
    simp only [Except.map, ctl_setCtl_ne c h, busWrite'_setCtl, State.setCtl_cfg]
    cases busWrite' .checked (u.ctl k).addr u.cfg.catalog.dtTime ti u with
    | error f => rfl
    | ok u =>
      simp only [Except.map, ctl_setCtl_ne c h, busWrite'_setCtl, State.setCtl_cfg]
      cases busWrite' .checked (u.ctl k).addr u.cfg.catalog.dtDate da u with
      | error f => rfl
      | ok u => simp only [modCtl_setCtl c h]

theorem pushGroups_setCtl {k : Nat} (h : k ≠ j) (ti da ut) (s : State) :
    pushGroups k ti da ut (s.setCtl j c) = (pushGroups k ti da ut s).map (·.setCtl j c) := by
  unfold pushGroups
  simp only [modCtl_setCtl c h, ctl_setCtl_ne c h, sendGroups_setCtl c h]
  split <;> rfl

theorem registerAddress_setCtl (a) (s : State) : registerAddress a (s.setCtl j c) = (registerAddress a s).setCtl j c := by
  unfold registerAddress
  simp only [regKnown_setCtl, State.setCtl_cfg]
  by_cases h1 : (a == s.cfg.addrNone) = true
  · simp only [h1, if_true]
  simp only [h1]
  by_cases h2 : regKnown a s = true
  · simp [h2]
  simp only [h2, Bool.false_eq_true, if_false]
  have : regFree (s.setCtl j c) = regFree s := rfl
  rw [this]
  cases regFree s <;> rfl

theorem unregisterAddress_setCtl (a) (s : State) :
    unregisterAddress a (s.setCtl j c) = (unregisterAddress a s).setCtl j c := by
  unfold unregisterAddress
  simp only [State.setCtl_cfg]
  by_cases hh : (a == s.cfg.addrNone) = true
  · simp only [hh, if_true]
  · simp only [hh]; rfl

end

end Sys2Proof.Machine
end

