-- ==== Sys2Proof/Laws/Tick.lean ====
section
/-! SUPPORT. The slot after a tick, field by field, and that a tick keeps a controller in form. -/

namespace Sys2Proof.Machine

theorem atLeast_iff (now t d) : atLeast now t d = true ↔ d ≤ (now - t).toNat := decide_eq_true_iff

theorem stillWithin_iff (now t d) : stillWithin now t d = true ↔ (now - t).toNat < d := decide_eq_true_iff

theorem digest_lastPowerOnAt (cfg now r c) : (digest cfg now r c).lastPowerOnAt = c.lastPowerOnAt := by
  unfold digest; rw [identityStep_spec, ackAndNak_spec, telemetry_spec]

theorem slotAfterTick_power (cfg now r c) :
    (slotAfterTick cfg now r c).power = (digest cfg now r (firstTick now c)).power := by
  unfold slotAfterTick; rw [pollAfter_spec, verifyAfter_spec, sequenceAfter_spec]

theorem slotAfterTick_lastPowerOnAt (cfg now r c) :
    (slotAfterTick cfg now r c).lastPowerOnAt = (digest cfg now r (firstTick now c)).lastPowerOnAt := by
  unfold slotAfterTick; rw [pollAfter_spec, verifyAfter_spec, sequenceAfter_spec]

/-- The power state that Identity leaves (42_controller.md R161, R163, R164). -/
theorem digest_power (cfg now r) (c : Controller) (x : Time) (hx : c.lastPowerOnAt = some x) : (digest cfg now r c).power =
        if r.status = .okWithData ∧ r.cmd = (modelOf cfg c).idQuery then .on
        else if c.idInFlight = true ∧ r.status = .notOk then .off
        else if c.idInFlight = true ∧ cfg.idWaitMs ≤ (now - c.idSentAt).toNat then
          if (now - x).toNat < (modelOf cfg c).bootWindow then .offTransitioning else .off
        else c.power := by
  have key : ∀ d : Controller, d.model = c.model → d.idInFlight = c.idInFlight → d.idSentAt = c.idSentAt
    → d.lastPowerOnAt = c.lastPowerOnAt → d.power = c.power
    → (identityStep cfg now r d).power = if r.status = .okWithData ∧ r.cmd = (modelOf cfg c).idQuery then .on
        else if c.idInFlight = true ∧ r.status = .notOk then .off
        else if c.idInFlight = true ∧ cfg.idWaitMs ≤ (now - c.idSentAt).toNat then
          if (now - x).toNat < (modelOf cfg c).bootWindow then .offTransitioning else .off
        else c.power := by
    intro d h1 h2 h3 h4 h5
    have hmod : modelOf cfg d = modelOf cfg c := by unfold modelOf; rw [h1]
    unfold identityStep isIdentityReply
    simp only [Status.dataClass, Bool.and_eq_true, beq_iff_eq, hmod, h2, h3, atLeast_iff]
    split
    · rfl
    · split
      · rfl
      · split
        · simp only [inBootWindow, h4, hx, stillWithin_iff, hmod]
        · exact h5
  unfold digest
  apply key <;> rw [ackAndNak_spec, telemetry_spec]

/-- The frequency part of Telemetry, as one update (42_controller.md R162). -/
theorem freqTelemetry_spec (cfg : Config) (r : ExchangeResult) (c : Controller) :
    freqTelemetry cfg r c = { c with
      freq := if r.cmd = cfg.catalog.freqReport ∨ r.cmd = cfg.catalog.freqQuery then r.nv else c.freq } := by
  unfold freqTelemetry; simp only [Bool.or_eq_true, beq_iff_eq]; split <;> rfl

/-- What Telemetry does to the three cached fields (42_controller.md R162). -/
theorem telemetry_fields (cfg : Config) (r : ExchangeResult) (c : Controller) :
    (telemetry cfg r c).freq =
        (if r.status = .okWithData ∧ (r.cmd = cfg.catalog.freqReport ∨ r.cmd = cfg.catalog.freqQuery) then r.nv else c.freq)
      ∧ (telemetry cfg r c).modulation =
        (if r.status = .okWithData ∧ (r.cmd = cfg.catalog.modeReport ∨ r.cmd = cfg.catalog.modeQuery) then
          match r.data with
          | [] => c.modulation
          | b :: _ => modDecode (modelOf cfg c) b
        else c.modulation)
      ∧ (telemetry cfg r c).filter =
        (if r.status = .okWithData ∧ (r.cmd = cfg.catalog.modeReport ∨ r.cmd = cfg.catalog.modeQuery) then
          match r.data with
          | _ :: f :: _ => filDecode cfg f
          | _ => c.filter
        else c.filter) := by
  unfold telemetry
  by_cases h1 : r.status = .okWithData
  · simp only [Status.dataClass, h1, beq_self_eq_true, if_true, true_and, freqTelemetry_spec]
    unfold modeTelemetry
    simp only [Bool.or_eq_true, beq_iff_eq]
    by_cases h2 : r.cmd = cfg.catalog.modeReport ∨ r.cmd = cfg.catalog.modeQuery
    · rw [if_pos h2]; simp only [if_pos h2]
      rcases hd : r.data with _ | ⟨b, _ | ⟨f, rest⟩⟩ <;> exact ⟨rfl, rfl, rfl⟩
    · rw [if_neg h2]; simp [if_neg h2]
  · simp [Status.dataClass, h1]

/-- A field that only FirstTick and Telemetry write has after the tick the value they give it. -/
theorem slotAfterTick_untouched {α : Type} (F : Controller → α)
    (hseq : ∀ c a b d e f g h, F
      { c with seqActive := a, mode := b, seqIdx := d, ackPending := e, ackSentAt := f, verifyPending := g, verifyFrom := h } = F c)
    (hpoll : ∀ c a b d e, F { c with idInFlight := a, idSentAt := b, polled := d, lastPollAt := e } = F c)
    (hverify : ∀ c a, F { c with verifyPending := a } = F c)
    (hid : ∀ c a b, F { c with idInFlight := a, power := b } = F c)
    (hack : ∀ c a b, F { c with ackPending := a, nak := b } = F c)
    (cfg : Config) (now : Time) (r : ExchangeResult) (c : Controller) :
    F (slotAfterTick cfg now r c) = F (telemetry cfg r (firstTick now c)) := by
  unfold slotAfterTick digest
  rw [pollAfter_spec, hpoll, verifyAfter_spec, hverify, sequenceAfter_spec, hseq, identityStep_spec, hid, ackAndNak_spec, hack]

/-- The cached telemetry fields after a tick. -/
theorem slotAfterTick_telemetry (now r cfg c) :
    (slotAfterTick cfg now r c).freq = (telemetry cfg r (firstTick now c)).freq
      ∧ (slotAfterTick cfg now r c).modulation = (telemetry cfg r (firstTick now c)).modulation
      ∧ (slotAfterTick cfg now r c).filter = (telemetry cfg r (firstTick now c)).filter := by
  refine ⟨slotAfterTick_untouched (·.freq) ?_ ?_ ?_ ?_ ?_ .., slotAfterTick_untouched (·.modulation) ?_ ?_ ?_ ?_ ?_ ..,
    slotAfterTick_untouched (·.filter) ?_ ?_ ?_ ?_ ?_ ..⟩ <;> intros <;> rfl

/-- The saturating NAK count never returns to 0 (42_controller.md R160). -/
theorem saturatingInc_ne_zero (n : BitVec 8) : saturatingInc n ≠ 0 := by revert n; decide

/-- Reading a message leaves the sequence, its cursor and the modes as they were. -/
theorem digest_sequence (cfg now r c) :
    (digest cfg now r c).seqActive = c.seqActive ∧ (digest cfg now r c).seqIdx = c.seqIdx
      ∧ (digest cfg now r c).seq = c.seq ∧ (digest cfg now r c).target = c.target ∧ (digest cfg now r c).mode = c.mode := by
  unfold digest; rw [identityStep_spec, ackAndNak_spec, telemetry_spec]; exact ⟨rfl, rfl, rfl, rfl, rfl⟩

theorem digest_nak (cfg now r c) : (digest cfg now r c).nak = (ackAndNak cfg now r (telemetry cfg r c)).nak := by
  unfold digest; rw [identityStep_spec]

/-- A NOT_OK reply during a sequence leaves the NAK count above 0 (42_controller.md R160). -/
theorem digest_nak_ne_zero {cfg now r} {c : Controller} (h : c.seqActive = true) (hr : r.status = .notOk) :
    (digest cfg now r c).nak ≠ 0 := by
  rw [digest_nak]
  have : (telemetry cfg r c).seqActive = true := by rw [telemetry_spec]; exact h
  generalize telemetry cfg r c = d at this
  have hn : (nakStep r (ackStep r d)).nak ≠ 0 := by
    have : (ackStep r d).seqActive = true := by unfold ackStep; split <;> exact this
    unfold nakStep
    simp only [this, hr, beq_self_eq_true, Bool.and_self, if_true]
    exact saturatingInc_ne_zero _
  unfold ackAndNak ackTimeoutStep
  split
  · exact saturatingInc_ne_zero _
  · exact hn

/-- An ack is awaited, the message read does not bring it, and its time is over (42_controller.md R159, R185). -/
abbrev AckTimedOut (cfg : Config) (now : Time) (r : ExchangeResult) (c : Controller) : Prop :=
  (c.ackPending = true ∧ r.status ≠ .ok ∧ r.status ≠ .notOk)
    ∧ ∃ limit, cfg.ackTimeoutMs = some limit ∧ limit ≤ (now - c.ackSentAt).toNat

theorem ackTimedOut_iff (cfg : Config) (now : Time) (c : Controller) :
    ackTimedOut cfg now c = true ↔ ∃ limit, cfg.ackTimeoutMs = some limit ∧ limit ≤ (now - c.ackSentAt).toNat := by
  unfold ackTimedOut
  cases cfg.ackTimeoutMs <;> simp [atLeast_iff]

/-- What AckAndNak leaves of the ack wait and the NAK count (42_controller.md R159, R160, R185). -/
theorem ackAndNak_fields (cfg : Config) (now : Time) (r : ExchangeResult) (c : Controller) :
    ((ackAndNak cfg now r c).ackPending = true ↔ (c.ackPending = true ∧ r.status ≠ .ok ∧ r.status ≠ .notOk)
        ∧ ¬ (c.seqActive = true ∧ AckTimedOut cfg now r c))
      ∧ (c.seqActive = true ∧ (r.status = .notOk ∨ AckTimedOut cfg now r c) → (ackAndNak cfg now r c).nak = saturatingInc c.nak)
      ∧ (¬ (c.seqActive = true ∧ (r.status = .notOk ∨ AckTimedOut cfg now r c)) → (ackAndNak cfg now r c).nak = c.nak) := by
  simp only [AckTimedOut, ← ackTimedOut_iff]
  unfold ackAndNak ackTimeoutStep nakStep ackStep Status.endsAckWait
  by_cases h₁ : r.status = .notOk
  · by_cases h₂ : c.seqActive = true <;> by_cases h₃ : c.ackPending = true <;> simp [h₁, h₂, h₃]
  · by_cases h₄ : r.status = .ok
    · by_cases h₂ : c.seqActive = true <;> by_cases h₃ : c.ackPending = true <;> simp [h₄, h₂, h₃]
    · by_cases h₅ : ackTimedOut cfg now c = true <;> by_cases h₂ : c.seqActive = true <;>
        by_cases h₃ : c.ackPending = true <;> simp [h₁, h₄, h₂, h₃, h₅]

/-- Whether the identity query is still in flight after Identity (42_controller.md R161, R163, R164). -/
theorem identityStep_inFlight (cfg : Config) (now : Time) (r : ExchangeResult) (c : Controller) :
    (identityStep cfg now r c).idInFlight = true ↔ c.idInFlight = true ∧ ¬ (r.status = .okWithData ∧ r.cmd = (modelOf cfg c).idQuery)
      ∧ r.status ≠ .notOk ∧ (now - c.idSentAt).toNat < cfg.idWaitMs := by
  unfold identityStep
  simp only [isIdentityReply, Status.dataClass, Bool.and_eq_true, beq_iff_eq, atLeast_iff]
  split
  · simp only [Bool.false_eq_true, false_iff]; tauto
  · split
    · simp only [Bool.false_eq_true, false_iff]; tauto
    · split
      · simp only [Bool.false_eq_true, false_iff]; omega
      · rename_i h₁ h₂ h₃
        constructor
        · intro h; exact ⟨h, h₁, fun hx => h₂ ⟨h, hx⟩, by by_contra hlt; exact h₃ ⟨h, by omega⟩⟩
        · exact fun h => h.1

/-- A controller in form up to the NAK count: what Telemetry, AckAndNak and Identity keep. -/
def DigestOk (cfg : Config) (c : Controller) : Prop :=
  isFraming c.addr = false ∧ isReservedAddress cfg c.addr = false ∧ c.model < cfg.models.length
    ∧ c.seqIdx ≤ c.seq.length ∧ c.freq < 2 ^ 34 ∧ (c.ackPending = true → c.seqActive = true)
    ∧ (c.idInFlight = true → c.polled = true ∧ c.lastPowerOnAt ≠ none)
    ∧ (c.seqActive = true → c.mode = .undefined ∧ c.target ≠ .undefined)

theorem digest_ok {cfg : Config} {now : Time} {r : ExchangeResult} {c : Controller} (hr : r.nv < 2 ^ 34)
    (h : ControllerOk cfg c) : DigestOk cfg (digest cfg now r c) := by
  obtain ⟨h1, h2, h3, h4, h5, h6, h7, h8⟩ := h
  have t1 : DigestOk cfg (telemetry cfg r c) := by
    have hf : (telemetry cfg r c).freq < 2 ^ 34 := by
      rw [(telemetry_fields cfg r c).1]; split <;> assumption
    rw [telemetry_spec]
    exact ⟨h1, h2, h3, h4, hf, h6, h7, fun h => ⟨(h8 h).1, (h8 h).2.1⟩⟩
  have t2 : ∀ d, DigestOk cfg d → DigestOk cfg (ackAndNak cfg now r d) := by
    rintro d ⟨h1, h2, h3, h4, h5, h6, h7, h8⟩
    have ha : (ackAndNak cfg now r d).ackPending = true → d.ackPending = true := by
      unfold ackAndNak ackTimeoutStep nakStep ackStep
      by_cases x : (d.ackPending && r.status.endsAckWait) = true
      · rw [if_pos x]; split <;> split <;> simp
      · rw [if_neg x]; split <;> split <;> simp
    rw [ackAndNak_spec]
    exact ⟨h1, h2, h3, h4, h5, fun h => h6 (ha h), h7, h8⟩
  have t3 : ∀ d, DigestOk cfg d → DigestOk cfg (identityStep cfg now r d) := by
    rintro d ⟨h1, h2, h3, h4, h5, h6, h7, h8⟩
    have ha : (identityStep cfg now r d).idInFlight = true → d.idInFlight = true := by
      unfold identityStep
      split
      · simp
      · split
        · simp
        · split
          · simp
          · exact id
    rw [identityStep_spec]
    exact ⟨h1, h2, h3, h4, h5, h6, fun h => h7 (ha h), h8⟩
  exact t3 _ (t2 _ t1)

/-- SequenceStep restores the form in full: a NAK ends the sequence (42_controller.md R165). -/
theorem sequenceAfter_ok {cfg : Config} {now : Time} {c : Controller} (h : DigestOk cfg c) :
    ControllerOk cfg (sequenceAfter now c) := by
  obtain ⟨h1, h2, h3, h4, h5, h6, h7, h8⟩ := h
  unfold sequenceAfter
  split
  · rename_i ha
    split
    · exact ⟨h1, h2, h3, h4, h5, (fun h => by cases h), h7, (fun h => by cases h)⟩
    · rename_i hn
      have hn' : c.nak = 0 := by simpa using hn
      split
      · exact ⟨h1, h2, h3, h4, h5, h6, h7, fun h => ⟨(h8 h).1, (h8 h).2, hn'⟩⟩
      · rename_i hp
        split
        · rename_i hi
          exact ⟨h1, h2, h3, hi, h5, fun _ => ha, h7, fun h => ⟨(h8 h).1, (h8 h).2, hn'⟩⟩
        · exact ⟨h1, h2, h3, h4, h5, fun h => absurd h hp, h7, (fun h => by cases h)⟩
  · rename_i ha
    exact ⟨h1, h2, h3, h4, h5, h6, h7, fun h => absurd h ha⟩

/-- A tick keeps its controller in form. -/
theorem slotAfterTick_ok {cfg : Config} {now : Time} {r : ExchangeResult} {c : Controller} (hr : r.nv < 2 ^ 34)
    (h : ControllerOk cfg c) :
    ControllerOk cfg (slotAfterTick cfg now r c) := by
  have h0 : ControllerOk cfg (firstTick now c) := by
    obtain ⟨h1, h2, h3, h4, h5, h6, h7, h8⟩ := h
    rw [firstTick_spec]
    exact ⟨h1, h2, h3, h4, h5, h6, fun h => ⟨(h7 h).1, by simp⟩, h8⟩
  have hl : (firstTick now c).lastPowerOnAt ≠ none := by rw [firstTick_spec]; simp
  have h1 := sequenceAfter_ok (now := now) (digest_ok (now := now) hr h0)
  have hl1 : (sequenceAfter now (digest cfg now r (firstTick now c))).lastPowerOnAt ≠ none := by
    rw [sequenceAfter_spec]; show (digest cfg now r
      (firstTick now c)).lastPowerOnAt ≠ none; rw [digest_lastPowerOnAt]; exact hl
  unfold slotAfterTick
  generalize sequenceAfter now (digest cfg now r (firstTick now c)) = d at h1 hl1
  have h2 : ControllerOk cfg (verifyAfter cfg now d) := by rw [verifyAfter_spec]; exact h1
  have hl2 : (verifyAfter cfg now d).lastPowerOnAt ≠ none := by rw [verifyAfter_spec]; exact hl1
  generalize verifyAfter cfg now d = e at h2 hl2
  obtain ⟨h1, h2, h3, h4, h5, h6, h7, h8⟩ := h2
  unfold pollAfter
  split
  · exact ⟨h1, h2, h3, h4, h5, h6, fun _ => ⟨rfl, hl2⟩, h8⟩
  · exact ⟨h1, h2, h3, h4, h5, h6, h7, h8⟩

/-- The form of the slots, slot by slot. -/
theorem ctrlOk_iff (s : State) :
    CtrlOk s ↔ s.ctrl.length = s.cfg.maxControllers ∧ ∀ j, (s.ctl j).live = true → ControllerOk s.cfg (s.ctl j) := by
  unfold CtrlOk
  constructor
  · rintro ⟨h1, h2⟩
    exact ⟨h1, fun j hj => h2 _ (State.ctl_mem (State.lt_of_live hj)) hj⟩
  · rintro ⟨h1, h2⟩
    refine ⟨h1, fun c hc hl => ?_⟩
    obtain ⟨j, hj, rfl⟩ := List.getElem_of_mem hc
    have : s.ctl j = s.ctrl[j] := by simp [State.ctl, List.getD_eq_getElem?_getD, hj]
    rw [← this] at hl ⊢; exact h2 j hl

/-- A tick has at most five commands to send (70_reset_and_hazards.md R245). -/
theorem tickCommands_length_le (cfg now r c) : (tickCommands cfg now r c).length ≤ 5 := by
  have hseq : ∀ d, (sequenceCommand d).length ≤ 1 := fun d => by
    unfold sequenceCommand
    split
    · exact Option.length_toList_le
    · exact Nat.zero_le _
  have h := hseq (digest cfg now r (firstTick now c))
  unfold tickCommands
  dsimp only
  simp only [List.length_append]
  split <;> split <;> split <;> simp only [List.length_cons, List.length_nil] <;> omega

end Sys2Proof.Machine
end

