-- ==== Sys2Proof/Machine/Assembler.lean ====
section
/-! DEFINITION. The assembler text of a host request (30_encoding.md R99). No step of the machine reads it. -/

namespace Sys2Proof.Machine

/-- A byte in assembler text: two hexadecimal digits after 0x (30_encoding.md R99). -/
def hexText (b : Byte) : String :=
  "0x" ++ String.ofList ([Nat.digitChar (b.toNat / 16), Nat.digitChar (b.toNat % 16)].map Char.toUpper)

/-- A byte list in assembler text: in braces, its length implied (30_encoding.md R99). -/
def listText (l : List Byte) : String :=
  String.ofList [Char.ofNat 123] ++ " ".intercalate (l.map hexText) ++ String.ofList [Char.ofNat 125]

/-- A PowerRequest in assembler text (30_encoding.md R99). -/
def requestText : PowerRequest → String
  | .on => "ON"
  | .off => "OFF"
  | .toggle => "TOGGLE"

/-- A SET_MODE operand in assembler text (30_encoding.md R99). -/
def modeText (m : Byte) : Option String :=
  if m == 0#8 then some "VOICE" else if m == 1#8 then some "DATA" else none

/-- The mnemonic of an opcode (30_encoding.md R88). -/
def mnemonicText : Opcode → String
  | .readRaw => "READ_RAW"
  | .readAddr => "READ_ADDR"
  | .writeFast => "WRITE_FAST"
  | .writeChecked => "WRITE_CHECKED"
  | .writePowerOn => "WRITE_POWERON"
  | .regAddr => "REG_ADDR"
  | .unregAddr => "UNREG_ADDR"
  | .isKnown => "IS_KNOWN"
  | .ctrlCreate => "CTRL_CREATE"
  | .ctrlDestroy => "CTRL_DESTROY"
  | .tick => "TICK"
  | .getPower => "GET_POWER"
  | .setPower => "SET_POWER"
  | .getMode => "GET_MODE"
  | .setMode => "SET_MODE"
  | .getFreq => "GET_FREQ"
  | .getModulation => "GET_MODULATION"
  | .getRxFilter => "GET_RXFILTER"
  | .setAddress => "SET_ADDRESS"
  | .getAddress => "GET_ADDRESS"
  | .pushDateTime => "PUSH_DATETIME"

/-- The operands in assembler text; `none` for a code that has no name (30_encoding.md R99; log 27). -/
def operandTexts : Instr → Option (List String)
  | .readRaw => some []
  | .readAddr a => some [hexText a]
  | .writeFast a cmd data => some [hexText a, listText cmd, listText data]
  | .writeChecked a cmd data => some [hexText a, listText cmd, listText data]
  | .writePowerOn a cmd data => some [hexText a, listText cmd, listText data]
  | .regAddr a => some [hexText a]
  | .unregAddr a => some [hexText a]
  | .isKnown a => some [hexText a]
  | .ctrlCreate k a md => some [hexText k, hexText a, hexText md]
  | .ctrlDestroy k => some [hexText k]
  | .tick k now => some [hexText k, toString now.toNat]
  | .getPower k => some [hexText k]
  | .setPower k q now => (powerRequestOf q).map fun r => [hexText k, requestText r, toString now.toNat]
  | .getMode k => some [hexText k]
  | .setMode k m => (modeText m).map fun t => [hexText k, t]
  | .getFreq k => some [hexText k]
  | .getModulation k => some [hexText k]
  | .getRxFilter k => some [hexText k]
  | .setAddress k a => some [hexText k, hexText a]
  | .getAddress k => some [hexText k]
  | .pushDateTime k time date utc => some [hexText k, listText time, listText date, listText utc]

/-- The assembler line of a request (30_encoding.md R99). -/
def assemblerLine (i : Instr) : Option String :=
  (operandTexts i).map fun ts =>
    if ts.isEmpty then mnemonicText i.opcode else mnemonicText i.opcode ++ " " ++ ", ".intercalate ts

end Sys2Proof.Machine
end

