-- ==== Sys2Proof/Tests/Slice0.lean ====
section
/-! SUPPORT. Tests: ill-formed terms that each check refuses, requests written out from the opcode map, and small steps with
the expected values of 95_test_vectors.md. -/

namespace Sys2Proof.Tests

open Sys2Proof.Machine

-- One thread: each test is a kernel evaluation with a stack of its own.
set_option Elab.async false

/-! ### Helpers -/

/-- The reference configuration with short waits. -/
def small : Config := { refConfig with readPollLimit := 2, echoPollLimit := 2, wakePreambleLen := 3 }

/-- Block reset with the bytes given waiting in `RX`. -/
def bus (rx : List Byte) : State := State.resetWith small rx

/-- A bus with two known addresses. -/
def known (rx : List Byte) : State := { bus rx with reg := [0x94, 0xA4, 0xFF, 0xFF] }

/-- A buffered message of a source, as 95_test_vectors.md section 2.3 writes it. -/
def entry (src b : Byte) : ExchangeResult := ⟨.okWithData, src, [0x00], [b], b.toNat⟩

/-- A radio that has been polled, with its power on. -/
def radio : Controller :=
  { Controller.blank with live := true, addr := 0x94, power := .on, polled := true, lastPowerOnAt := some 0 }

/-- The radio with a running mode-change sequence of two commands, the first sent. -/
def running : Controller :=
  { radio with seqActive := true, seq := [⟨[0x06], []⟩, ⟨[0x06], []⟩], seqIdx := 1, ackPending := true, target := .data }

/-- Block reset with one controller in slot 0. -/
def slot (c : Controller) (rx : List Byte) : State := { bus rx with ctrl := [c, .blank, .blank, .blank], reg := [0x94, 0xFF, 0xFF, 0xFF] }

/-- The state after an outcome. -/
def after (o : Host.Outcome State Fault Refusal) : Option State :=
  match o with
  | .next t => some t
  | .fault _ => none
  | .refused _ => none

/-- The answer of an outcome. -/
def answer (o : Host.Outcome State Fault Refusal) : Option (List Byte) := (after o).bind fun t => t.responses.getLast?

/-- Slot 0 after an outcome. -/
def slotAfter (o : Host.Outcome State Fault Refusal) : Option Controller := (after o).map fun t => t.ctl 0

/-- The result of an operation of the engine, its state left out. -/
def resultOf (x : Except Fault (ExchangeResult × State)) : Option ExchangeResult :=
  match x with
  | .ok (r, _) => some r
  | .error _ => none

/-- What one step answers to a request. -/
def ask (s : State) (request : List Byte) : Option (List Byte) := answer (step { s with requests := [request] })

/-- The XR of `NOMSG` under the reference addresses. -/
def noMsg : List Byte := [0x03, 0xFF, 0, 0, 0, 0, 0, 0, 0, 0, 0, 0]

/-! ### Ill-formed terms, one for each check -/

/-- A list one byte too long for its length byte. -/
def tooLong : List Byte := List.replicate 256 0

theorem test_wf_fast_cmd : (Instr.writeFast 0x94 tooLong []).wellFormed = false := by decide +kernel
theorem test_wf_fast_data : (Instr.writeFast 0x94 [0x03] tooLong).wellFormed = false := by decide +kernel
theorem test_wf_checked_cmd : (Instr.writeChecked 0x94 tooLong []).wellFormed = false := by decide +kernel
theorem test_wf_checked_data : (Instr.writeChecked 0x94 [0x03] tooLong).wellFormed = false := by decide +kernel
theorem test_wf_powerOn_cmd : (Instr.writePowerOn 0x94 tooLong []).wellFormed = false := by decide +kernel
theorem test_wf_powerOn_data : (Instr.writePowerOn 0x94 [0x03] tooLong).wellFormed = false := by decide +kernel
theorem test_wf_time : (Instr.pushDateTime 0 tooLong [] []).wellFormed = false := by decide +kernel
theorem test_wf_date : (Instr.pushDateTime 0 [] tooLong []).wellFormed = false := by decide +kernel
theorem test_wf_utc : (Instr.pushDateTime 0 [] [] tooLong).wellFormed = false := by decide +kernel
theorem test_wf_longest : (Instr.writeFast 0x94 (List.replicate 255 0) (List.replicate 255 0)).wellFormed = true := by decide +kernel

theorem test_cfg_reference : refConfig.wellFormed = true := by decide
theorem test_cfg_small : small.wellFormed = true := by decide
theorem test_cfg_same_addresses : ({ small with addrAll := 0xE0 } : Config).wellFormed = false := by decide
theorem test_cfg_framing_address : ({ small with addrNone := 0xFE } : Config).wellFormed = false := by decide
theorem test_cfg_body_length :
    ({ small with catalog := { refCatalog with freqQuery := [0x19, 0x00, 0x00] } } : Config).wellFormed = false := by decide
theorem test_cfg_body_framing :
    ({ small with catalog := { refCatalog with freqQuery := [0xFD] } } : Config).wellFormed = false := by decide
theorem test_cfg_body_marker :
    ({ small with catalog := { refCatalog with freqQuery := [0xFB] } } : Config).wellFormed = false := by decide
theorem test_cfg_body_split :
    ({ small with catalog := { refCatalog with freqQuery := [0x19] } } : Config).wellFormed = false := by decide
theorem test_cfg_data_length :
    ({ small with catalog := { refCatalog with pwrOn := ⟨[0x18, 0x01], List.replicate 10 0⟩ } } : Config).wellFormed = false := by decide
theorem test_cfg_data_framing :
    ({ small with catalog := { refCatalog with pwrOn := ⟨[0x18, 0x01], [0xFE]⟩ } } : Config).wellFormed = false := by decide
theorem test_cfg_capacity : ({ small with registryCap := 0 } : Config).wellFormed = false := by decide
theorem test_cfg_limit : ({ small with echoPollLimit := 0 } : Config).wellFormed = false := by decide
theorem test_cfg_dateTime : ({ small with dtLenDate := 10 } : Config).wellFormed = false := by decide
theorem test_cfg_key :
    ({ small with models := [{ refModel with modTable := [(0x17, .lsb)] }] } : Config).wellFormed = false := by decide

/-! ### Requests written out from the opcode map (30_encoding.md R88, R89) -/

theorem test_decode_readRaw : decode [0x01] = .ok .readRaw := by decide
theorem test_decode_readAddr : decode [0x02, 0x94] = .ok (.readAddr 0x94) := by decide
theorem test_decode_writeFast : decode [0x10, 0x94, 0x01, 0x05, 0x02, 0xAA, 0xBB] = .ok (.writeFast 0x94 [0x05] [0xAA, 0xBB]) := by decide
theorem test_decode_writeChecked : decode [0x11, 0x94, 0x02, 0x19, 0x00, 0x00] = .ok (.writeChecked 0x94 [0x19, 0x00] []) := by decide
theorem test_decode_writePowerOn : decode [0x12, 0x94, 0x02, 0x18, 0x01, 0x00] = .ok (.writePowerOn 0x94 [0x18, 0x01] []) := by decide
theorem test_decode_regAddr : decode [0x20, 0xA4] = .ok (.regAddr 0xA4) := by decide
theorem test_decode_unregAddr : decode [0x21, 0xA4] = .ok (.unregAddr 0xA4) := by decide
theorem test_decode_isKnown : decode [0x22, 0xA4] = .ok (.isKnown 0xA4) := by decide
theorem test_decode_ctrlCreate : decode [0x40, 0x01, 0x94, 0x02] = .ok (.ctrlCreate 0x01 0x94 0x02) := by decide
theorem test_decode_ctrlDestroy : decode [0x41, 0x01] = .ok (.ctrlDestroy 0x01) := by decide
theorem test_decode_tick : decode [0x42, 0x03, 0xE8, 0x03, 0x00, 0x80] = .ok (.tick 0x03 0x800003E8) := by decide
theorem test_decode_getPower : decode [0x43, 0x01] = .ok (.getPower 0x01) := by decide
theorem test_decode_setPower : decode [0x44, 0x01, 0x02, 0xE8, 0x03, 0x00, 0x00] = .ok (.setPower 0x01 0x02 1000) := by decide
theorem test_decode_getMode : decode [0x45, 0x01] = .ok (.getMode 0x01) := by decide
theorem test_decode_setMode : decode [0x46, 0x01, 0x00] = .ok (.setMode 0x01 0x00) := by decide
theorem test_decode_getFreq : decode [0x47, 0x01] = .ok (.getFreq 0x01) := by decide
theorem test_decode_getModulation : decode [0x48, 0x01] = .ok (.getModulation 0x01) := by decide
theorem test_decode_getRxFilter : decode [0x49, 0x01] = .ok (.getRxFilter 0x01) := by decide
theorem test_decode_setAddress : decode [0x4A, 0x01, 0xA4] = .ok (.setAddress 0x01 0xA4) := by decide
theorem test_decode_getAddress : decode [0x4B, 0x01] = .ok (.getAddress 0x01) := by decide
theorem test_decode_pushDateTime :
    decode [0x4C, 0x00, 0x01, 0x12, 0x00, 0x02, 0x34, 0x56] = .ok (.pushDateTime 0x00 [0x12] [] [0x34, 0x56]) := by decide

/-- V-X1, V-X2: reserved opcodes. -/
theorem test_decode_reserved : decode [0x13, 0x94, 0x01, 0x03, 0x00] = .error .reservedOpcode ∧ decode [0x05] = .error .reservedOpcode := by
  decide
/-- V-X3, V-X4, V-X5, V-X25: wrong lengths. -/
theorem test_decode_length :
    decode [0x02] = .error .wrongLength ∧ decode [0x01, 0x00] = .error .wrongLength
      ∧ decode [0x10, 0x94, 0x01, 0x03, 0x01] = .error .wrongLength ∧ decode [0x42, 0x00, 0xE8, 0x03, 0x00] = .error .wrongLength := by
  decide
/-- A table word is read with bit 0 in byte 0 (30_encoding.md R88), the operand bytes above it 0. -/
theorem test_table_word :
    decodeTableWord 8 0x40 = some (.ctrlCreate 0 0 0) ∧ decodeTableWord 16 0x9402 = some (.readAddr 0x94) := by decide
/-- The next step runs the instruction placed. -/
theorem test_fetch : answer (step (State.reset.withFetchWord 16 0x9422)) = some [0x00] := by decide

/-! ### Reads (95_test_vectors.md sections 2.1 to 2.3) -/

/-- V-R1 and V-R6: an OK marker, and a frame to another destination. -/
theorem test_readRaw :
    ask (bus [0xFE, 0xFE, 0xE0, 0x94, 0xFB, 0xFD]) [0x01] = some [0x00, 0x94, 0, 0, 0, 0, 0, 0, 0, 0, 0, 0]
      ∧ ask (bus [0xFE, 0xFE, 0x94, 0xE0, 0x03, 0xFD]) [0x01] = some noMsg := by decide
/-- V-R3: a frequency report. -/
theorem test_readRaw_frequency :
    ask (bus [0xFE, 0xFE, 0xE0, 0x94, 0x00, 0x00, 0x40, 0x07, 0x14, 0x00, 0xFD]) [0x01]
      = some [0x01, 0x94, 0x01, 0x00, 0x05, 0x00, 0x40, 0x07, 0x14, 0x00, 0x90, 0xC0, 0xD6, 0, 0, 0, 0, 0] := by decide
/-- V-R12 and V-R21: ten data bytes, and a 4-byte command. -/
theorem test_classify :
    resultOf (readRaw (bus [0xFE, 0xFE, 0xE0, 0x94, 0x00, 1, 2, 3, 4, 5, 6, 7, 8, 9, 0x10, 0xFD])) = some (noMessage small)
      ∧ resultOf (readRaw (bus [0xFE, 0xFE, 0xE0, 0x94, 0x1A, 0x05, 0x01, 0x70, 1, 2, 3, 0xFD]))
        = some ⟨.okWithData, 0x94, [0x1A, 0x05, 0x01, 0x70], [1, 2, 3], 0⟩ := by decide
/-- V-B3, V-B5, V-B7, V-B8 and V-B5 under `wrap32`. -/
theorem test_numVal :
    numVal .exact [0x99, 0x99] = 9999 ∧ numVal .exact [0x99, 0x99, 0x99, 0x99, 0x99] = 9999999999 ∧ numVal .exact [0x1F] = 31
      ∧ numVal .exact [0xAB, 0xCD] = 11233 ∧ numVal .wrap32 [0x99, 0x99, 0x99, 0x99, 0x99] = 1410065407 := by decide
/-- V-RF1 and V-RF2: a NAK from another address passes through, an OK is dropped. -/
theorem test_readAddr_other :
    ask (known [0xFE, 0xFE, 0xE0, 0xA4, 0xFA, 0xFD]) [0x02, 0x94] = some [0x02, 0xA4, 0, 0, 0, 0, 0, 0, 0, 0, 0, 0]
      ∧ ask (known [0xFE, 0xFE, 0xE0, 0xA4, 0xFB, 0xFD]) [0x02, 0x94] = some noMsg := by decide
/-- V-RF4 and V-RF6: a known address's message is buffered, and a buffered one is taken out. -/
theorem test_readAddr_buffer :
    (after (exec (.readAddr 0x94) (known [0xFE, 0xFE, 0xE0, 0xA4, 0x00, 0x01, 0xFD]))).map (·.pend) = some [entry 0xA4 1]
      ∧ (after (exec (.readAddr 0x98) { known [] with pend := [entry 0xA4 1, entry 0x98 2, entry 0xA4 3] })).map (·.pend)
        = some [entry 0xA4 1, entry 0xA4 3] := by decide

/-! ### Writes (section 2.4) -/

/-- V-W1: a Fast write leaves its echo. -/
theorem test_writeFast :
    (after (exec (.writeFast 0x94 [0x03] []) { known [] with loopback := true })).map (·.rx) = some [0xFE, 0xFE, 0x94, 0xE0, 0x03, 0xFD] := by
  decide
/-- V-W8: BUS_BUSY after the drain. -/
theorem test_writeFast_busy :
    ask (known [0xFE, 0xFE, 0xE0, 0xA4, 0x00, 0x01, 0xFD, 0xFE]) [0x10, 0x94, 0x01, 0x03, 0x00]
      = some [0x04, 0xFF, 0x01, 0x03, 0, 0, 0, 0, 0, 0, 0, 0, 0] := by decide
/-- V-W2 and V-W3: the echo decides. -/
theorem test_writeChecked :
    resultOf (busWrite .checked 0x94 [0x03] [] { known [] with loopback := true }) = some ⟨.ok, 0xFF, [0x03], [], 0⟩
      ∧ resultOf (busWrite .checked 0x94 [0x03] [] (known [])) = some ⟨.hardwareFault, 0xFF, [0x03], [], 0⟩ := by decide
/-- V-W4: a byte read back wrong (the echo arrives at the first look at `RX` after the flush). -/
theorem test_writeChecked_conflict :
    resultOf (busWrite .checked 0x94 [0x03] []
      { known [] with arrivals := List.replicate 9 [] ++ [[0xFE, 0xFE, 0x94, 0xE0, 0x02, 0xFD]] })
      = some ⟨.busConflict, 0xFF, [0x03], [], 0⟩ := by decide
/-- V-W12, with a wake preamble of 3: the bytes transmitted. -/
theorem test_writePowerOn :
    (after (exec (.writePowerOn 0x94 [0x18, 0x01] []) { known [] with loopback := true })).map (·.tx)
      = some ([0xFE, 0xFE, 0xFE, 0xFE, 0xFE, 0x94, 0xE0, 0x18, 0x01, 0xFD].map TxEvent.byte ++ [.flush]) := by decide
/-- V-X6, V-X9, V-X10, V-X13, V-X14: the refusals, the lowest reason first. -/
theorem test_write_refused :
    ask (bus []) [0x10, 0x94, 0x03, 0x19, 0x00, 0x01, 0x00] = some [0x7F, 0x06]
      ∧ ask (bus []) [0x10, 0x94, 0x01, 0x00, 0x0A, 0, 1, 2, 3, 4, 5, 6, 7, 8, 9] = some [0x7F, 0x07]
      ∧ ask (bus []) [0x10, 0xFE, 0x01, 0x03, 0x00] = some [0x7F, 0x08] ∧ ask (bus []) [0x10, 0xFF, 0x01, 0x03, 0x00] = some [0x7F, 0x09]
      ∧ ask (bus []) [0x10, 0xFF, 0x03, 0xFE, 0x00, 0x00, 0x00] = some [0x7F, 0x06] := by decide

/-! ### The registry (section 2.6) -/

/-- V-G4 and V-G7: a full registry, and the lowest free slot. -/
theorem test_regAddr :
    (registerAddress 0x60 { bus [] with reg := [0x94, 0xA4, 0x70, 0x98] }).reg = [0x94, 0xA4, 0x70, 0x98]
      ∧ (registerAddress 0x60 { bus [] with reg := [0x94, 0xFF, 0x70, 0x98] }).reg = [0x94, 0x60, 0x70, 0x98] := by decide
/-- V-G6. -/
theorem test_unregAddr : (unregisterAddress 0xA4 { bus [] with reg := [0x94, 0xA4, 0x70, 0x98] }).reg = [0x94, 0xFF, 0x70, 0x98] := by
  decide
/-- V-G5 and V-G9. -/
theorem test_isKnown :
    ask (known []) [0x22, 0x94] = some [0x01] ∧ ask (known []) [0x22, 0x60] = some [0x00] ∧ ask (known []) [0x22, 0xFF] = some [0x00] := by
  decide

/-! ### Controllers (sections 2.5 and 2.7 to 2.10) -/

/-- P3 step 1. -/
theorem test_ctrlCreate :
    slotAfter (exec (.ctrlCreate 0 0x94 0) (bus [])) = some { Controller.blank with live := true, addr := 0x94 }
      ∧ (after (exec (.ctrlCreate 0 0x94 0) (bus []))).map (·.reg) = some [0x94, 0xFF, 0xFF, 0xFF] := by decide
/-- V-X15 to V-X20. -/
theorem test_ctrlCreate_refused :
    ask (slot radio []) [0x40, 0x04, 0x94, 0x00] = some [0x7F, 0x03] ∧ ask (slot radio []) [0x40, 0x00, 0x94, 0x00] = some [0x7F, 0x04]
      ∧ ask (slot radio []) [0x40, 0x01, 0x94, 0x01] = some [0x7F, 0x05] ∧ ask (slot radio []) [0x40, 0x01, 0xFE, 0x00] = some [0x7F, 0x08]
      ∧ ask (slot radio []) [0x40, 0x01, 0xE0, 0x00] = some [0x7F, 0x09] ∧ ask (slot radio []) [0x40, 0x05, 0x94, 0x07] = some [0x7F, 0x03] := by
  decide
/-- V-A2. -/
theorem test_ctrlDestroy :
    slotAfter (exec (.ctrlDestroy 0) (slot radio [])) = some { radio with live := false }
      ∧ (after (exec (.ctrlDestroy 0) (slot radio []))).map (·.reg) = some [0xFF, 0xFF, 0xFF, 0xFF] := by decide
/-- V-A1. -/
theorem test_setAddress :
    slotAfter (exec (.setAddress 0 0xA4) (slot radio [])) = some { radio with addr := 0xA4 }
      ∧ (after (exec (.setAddress 0 0xA4) (slot radio []))).map (·.reg) = some [0xA4, 0xFF, 0xFF, 0xFF] := by decide
/-- P3 step 6. -/
theorem test_getters :
    ask (slot radio []) [0x43, 0x00] = some [0x02] ∧ ask (slot radio []) [0x45, 0x00] = some [0x02]
      ∧ ask (slot { radio with freq := 14074000 } []) [0x47, 0x00] = some [0x90, 0xC0, 0xD6, 0, 0, 0, 0, 0]
      ∧ ask (slot { radio with modulation := .dv } []) [0x48, 0x00] = some [0x17]
      ∧ ask (slot { radio with filter := .fil1 } []) [0x49, 0x00] = some [0x01] ∧ ask (slot radio []) [0x4B, 0x00] = some [0x94] := by decide
/-- V-C5: an identity reply turns the power state On and sends the follow-up queries and the first identity query. -/
theorem test_tick_identity :
    (after (exec (.tick 0 0) (slot { Controller.blank with live := true, addr := 0x94 } [0xFE, 0xFE, 0xE0, 0x94, 0x19, 0x00, 0x94, 0xFD]))).map
        (fun t => ((t.ctl 0).power, (t.ctl 0).idInFlight, t.tx))
      = some (.on, true, sentTo small 0x94 [query [0x03], query [0x04], query [0x19, 0x00]]) := by decide
/-- V-C8 and V-S5: telemetry, and a NAK from another address that aborts a sequence. -/
theorem test_tick_telemetry :
    (slotAfter (exec (.tick 0 0) (slot radio [0xFE, 0xFE, 0xE0, 0x94, 0x01, 0x03, 0x02, 0xFD]))).map (fun c => (c.modulation, c.filter))
        = some (.linear 0x03 .cw, .fil2)
      ∧ (slotAfter (exec (.tick 0 10) (slot running [0xFE, 0xFE, 0xE0, 0xA4, 0xFA, 0xFD]))).map (fun c => (c.nak, c.seqActive, c.mode))
        = some (1, false, .undefined) := by decide
/-- Section 2.8: from Off, ON and OFF. -/
theorem test_setPower :
    ask (slot { radio with power := .off } []) [0x44, 0x00, 0x00, 0xE8, 0x03, 0x00, 0x00] = some [0x01]
      ∧ (slotAfter (exec (.setPower 0 0 1000) (slot { radio with power := .off } []))).map (·.lastPowerOnAt) = some (some 1000)
      ∧ ask (slot { radio with power := .off } []) [0x44, 0x00, 0x01, 0xE8, 0x03, 0x00, 0x00] = some [0x00]
      ∧ ask (slot radio []) [0x44, 0x00, 0x02, 0xE8, 0x03, 0x00, 0x00] = some [0x03] := by decide
/-- V-S1, its first step: the sequence is loaded. -/
theorem test_setMode :
    (slotAfter (exec (.setMode 0 0) (slot radio []))).map (fun c => (c.seq, c.seqIdx, c.seqActive, c.target, c.mode))
      = some ([⟨[0x06], [0x17, 0x01]⟩], 0, true, .voice, .undefined) := by decide
/-- V-D1 and V-D2: sent only while the power is on. -/
theorem test_pushDateTime :
    (slotAfter (exec (.pushDateTime 0 [0x12, 0x30] [0x20, 0x26, 0x11, 0x11] [0, 0, 0]) (slot { radio with power := .off } []))).map
        (fun c => (c.dtTime, c.dtSent)) = some ([0x12, 0x30], false)
      ∧ (after (exec (.pushDateTime 0 [0x12, 0x30] [0x20, 0x26, 0x11, 0x11] [0, 0, 0]) { slot radio [] with loopback := true })).map (·.tx)
        = some (sentTo small 0x94 [⟨[0x1A, 0x05, 0x01, 0x70], [0, 0, 0]⟩, ⟨[0x1A, 0x05, 0x01, 0x66], [0x12, 0x30]⟩,
          ⟨[0x1A, 0x05, 0x01, 0x65], [0x20, 0x26, 0x11, 0x11]⟩]) := by decide
/-- V-X21 to V-X24, V-X26 to V-X28. -/
theorem test_controller_refused :
    ask (slot radio []) [0x43, 0x01] = some [0x7F, 0x04] ∧ ask (slot radio []) [0x43, 0x09, 0x00] = some [0x7F, 0x02]
      ∧ ask (slot radio []) [0x44, 0x00, 0x03, 0, 0, 0, 0] = some [0x7F, 0x05] ∧ ask (slot radio []) [0x46, 0x00, 0x02] = some [0x7F, 0x05]
      ∧ ask (slot radio []) [0x4C, 0x00, 0x03, 0x12, 0x30, 0x00, 0x04, 0x20, 0x26, 0x11, 0x11, 0x03, 0, 0, 0] = some [0x7F, 0x07]
      ∧ ask (slot radio []) [0x4C, 0x00, 0x02, 0x12, 0xFD, 0x04, 0x20, 0x26, 0x11, 0x11, 0x03, 0, 0, 0] = some [0x7F, 0x08]
      ∧ ask (slot radio []) [0x4A, 0x00, 0xFF] = some [0x7F, 0x09] := by decide

end Sys2Proof.Tests
end

