-- ==== Sys2Proof/Tests/Witnesses0.lean ====
section
/-! SUPPORT. For every statement of Certificates/Slice0/Obligations.lean with hypotheses, operands and a state that meet them, one witness
for each clause at a boundary of its range. -/

namespace Sys2Proof.Tests

open Sys2Proof.Machine

-- One thread: each test is a kernel evaluation with a stack of its own.
set_option Elab.async false

/-- A frame to a destination, from a source. -/
def framed (dst src : Byte) (body : List Byte) : List Byte := [0xFE, 0xFE, dst, src] ++ body ++ [0xFD]

/-- The outcome is a next state. -/
def goesOn (o : Host.Outcome State Fault Refusal) : Bool := (after o).isSome

theorem goesOn_next {o : Host.Outcome State Fault Refusal} (h : goesOn o = true) : ∃ t, o = .next t := by
  cases o with
  | next t => exact ⟨t, rfl⟩
  | fault f => cases h
  | refused r => cases h

theorem test_witness_DecodeEncodeRoundTrip :
    (Instr.pushDateTime 0xFF (List.replicate 255 0xFF) [] [0x01]).wellFormed = true ∧ (Instr.tick 0xFF 0xFFFFFFFF).wellFormed = true := by
  decide +kernel
theorem test_witness_EncodeDecodeRoundTrip : decode [0x10, 0x94, 0x01, 0x05, 0x00] = .ok (.writeFast 0x94 [0x05] []) := by decide
theorem test_witness_RequestLengthDecides :
    Opcode.ofByte 0x4C = some .pushDateTime
      ∧ [0x4C, 0x00, 0x00, 0x00, 0x01, 0x09].length = requestLength [0x4C, 0x00, 0x00, 0x00, 0x01, 0x09]
      ∧ [0x4C, 0x00, 0x00, 0x00, 0x01].length ≠ requestLength [0x4C, 0x00, 0x00, 0x00, 0x01] := by decide
theorem test_witness_WriteOpcodes :
    (bus []).cfg.wellFormed = true ∧ ({ bus [] with requests := [[0x13, 0x94], [0x01]] } : State).requests = (0x13#8 :: [0x94]) :: [[0x01]] := by
  decide
theorem test_witness_StepRunsDecodedRequest :
    (slot radio []).cfg.wellFormed = true ∧ ({ slot radio [] with requests := [[0x43, 0x00], [0x01]] } : State).requests = [0x43, 0x00] :: [[0x01]]
      ∧ decode [0x43, 0x00] = .ok (.getPower 0) := by decide
theorem test_witness_StepAnswersUndecodable :
    (bus []).cfg.wellFormed = true ∧ decode [0x05] = .error .reservedOpcode ∧ decode [] = .error .wrongLength ∧ (bus []).requests = [] := by
  decide
theorem test_witness_ConfigurationCheck :
    (match step { bus [] with cfg := { small with pendingCap := 0 } } with
      | .refused .illFormedConfig => true
      | _ => false) = true ∧ goesOn (step (bus [])) = true := by decide
theorem test_witness_ResultEncoding : (2 ^ 64 - 1 : Nat) < 2 ^ 64 := by norm_num
theorem test_witness_ReceiveStaysIdle : 0xFE#8 ∉ [0x01#8, 0xFD, 0xE0, 0xFF] ∧ [0x01#8, 0xFD] <+: [0x01#8, 0xFD, 0xE0, 0xFF] := by decide
theorem test_witness_FrameClassification : ([0xFE#8, 0xFE, 0xE0, 0x94, 0xFD] : List Byte).length < 6 := by decide
theorem test_witness_NumericDecode :
    ([] : List Byte).length ≠ 1 ∧ ([] : List Byte).length ≠ 2 ∧ ([] : List Byte).length ≠ 5
      ∧ [1#8, 2, 3].length ≠ 1 ∧ [1#8, 2, 3].length ≠ 2 ∧ [1#8, 2, 3].length ≠ 5 := by decide
theorem test_witness_BcdDecodeInvertsEncode : 9999 ≤ 9999 ∧ 9999999999 ≤ 9999999999 := ⟨le_rfl, le_rfl⟩
theorem test_witness_CommandLength : (0x14#8 ≠ 0x1A#8) ∧ ([0x05#8, 0x01] : List Byte).head? = ([0x05#8] : List Byte).head? := by decide

/-- Both destinations, no data and nine data bytes, each command length. -/
theorem test_witness_WireRoundTrip :
    small.wellFormed = true
      ∧ cmdLen small.compound ([0x03] ++ []) = 1 ∧ cmdLen small.compound ([0x14, 0x01] ++ [0x02, 0x55]) = 2
      ∧ cmdLen small.compound ([0x1A, 0x05, 0x01, 0x70] ++ [1, 2, 3, 4, 5, 6, 7, 8, 9]) = 4
      ∧ 0xFE#8 ∉ [0x1A#8, 0x05, 0x01, 0x70] ++ [1, 2, 3, 4, 5, 6, 7, 8, 9] ∧ 0xFD#8 ∉ [0x1A#8, 0x05, 0x01, 0x70] ++ [1, 2, 3, 4, 5, 6, 7, 8, 9]
      ∧ (bus (framed 0x00 0x94 [0x03])).rx = [0xFE, 0xFE, small.addrAll, 0x94] ++ [0x03] ++ [] ++ [0xFD] ++ []
      ∧ (bus (framed 0xE0 0xFF [0x1A, 0x05, 0x01, 0x70, 1, 2, 3, 4, 5, 6, 7, 8, 9] ++ [0x01])).rx
        = [0xFE, 0xFE, small.addrMaster, 0xFF] ++ [0x1A, 0x05, 0x01, 0x70] ++ [1, 2, 3, 4, 5, 6, 7, 8, 9] ++ [0xFD] ++ [0x01] := by decide

/-- A buffer with three entries, two of one source. -/
def buffered : State := { known (framed 0xE0 0x94 [0xFB]) with pend := [entry 0xA4 1, entry 0x98 2, entry 0xA4 3] }
/-- A full buffer. -/
def full (rx : List Byte) : State := { known rx with pend := [entry 0xA4 1, entry 0x98 2, entry 0xA4 3, entry 0x70 4] }

theorem test_witness_BufferedRead :
    buffered.pend = [entry 0xA4 1] ++ entry 0x98 2 :: [entry 0xA4 3] ∧ (∀ x ∈ [entry 0xA4 1], x.src ≠ 0x98) ∧ (entry 0x98 2).src = 0x98 := by
  decide
theorem test_witness_ReadBackpressure :
    (full [0xFE]).pend.length = small.pendingCap ∧ ∀ x ∈ (full [0xFE]).pend, x.src ≠ 0x94 := by decide
/-- The premises, with the buffer one short of full; and a raw result for each of the clauses. -/
theorem test_witness_ReadSortsByAddress :
    buffered.pend.length < small.pendingCap ∧ (∀ x ∈ buffered.pend, x.src ≠ 0x94)
      ∧ resultOf (readRaw (known (framed 0xE0 0x94 [0xFB]))) = some ⟨.ok, 0x94, [], [], 0⟩
      ∧ resultOf (readRaw (known (framed 0xE0 0xA4 [0xFA]))) = some ⟨.notOk, 0xA4, [], [], 0⟩
      ∧ resultOf (readRaw (known (framed 0xE0 0xA4 [0xFB]))) = some ⟨.ok, 0xA4, [], [], 0⟩
      ∧ resultOf (readRaw (known (framed 0xE0 0xA4 [0x00, 0x01]))) = some (entry 0xA4 1) ∧ regKnown 0xA4 (known []) = true
      ∧ resultOf (readRaw (known (framed 0xE0 0x98 [0x00, 0x02]))) = some (entry 0x98 2) ∧ regKnown 0x98 (known []) = false := by decide

/-- One operand tuple for each clause: the lengths 3 and 1 (of a compound command), ten data bytes, a framing byte in each place, a marker,
the sentinel, and an accepted pair with nine data bytes. -/
theorem test_witness_WriteRefusals :
    (¬ ([0x19#8, 0x00, 0x01].length = 1 ∨ [0x19#8, 0x00, 0x01].length = 2 ∨ [0x19#8, 0x00, 0x01].length = 4))
      ∧ cmdLen small.compound ([0x19] ++ []) ≠ [0x19#8].length
      ∧ cmdLen small.compound ([0x00] ++ List.replicate 10 0) = 1 ∧ 9 < (List.replicate 10 (0 : Byte)).length
      ∧ cmdLen small.compound ([0x03] ++ [0xFD]) = 1 ∧ (∃ b ∈ 0x94#8 :: ([0x03#8] ++ [0xFD]), b = 0xFE#8 ∨ b = 0xFD#8)
      ∧ cmdLen small.compound ([0xFA] ++ []) = 1 ∧ [0xFA#8].head? = some 0xFA#8
      ∧ (¬ ∃ b ∈ 0xFF#8 :: ([0x03#8] ++ []), b = 0xFE#8 ∨ b = 0xFD#8) ∧ (0xFF : Byte) = small.addrNone
      ∧ WriteAccepted small 0x94 [0x00] (List.replicate 9 0) := by decide
theorem test_witness_WriteResults :
    WriteAccepted small 0x00 [0x03] [] ∧ WriteAccepted small 0xE0 [0x1A, 0x05, 0x01, 0x70] [1, 2, 3, 4, 5, 6, 7, 8, 9] := by decide
theorem test_witness_WriteBusBusy :
    WriteAccepted small 0x94 [0x03] []
      ∧ (match drain (known (framed 0xE0 0xA4 [0x00, 0x01] ++ [0xFE])) with
        | .ok d => decide ((busAct d).rx ≠ [])
        | .error _ => false) = true
      ∧ (full [0xFE]).pend.length = small.pendingCap ∧ (full [0xFE]).rx ≠ [] := by decide
theorem test_witness_FastWriteOnQuietBus :
    WriteAccepted small 0x94 [0x03] [] ∧ (known []).rx = [] ∧ NothingArrives { known [] with arrivals := [[], []] } := by decide
/-- The frame of the write of the witnesses below, to the radio. -/
def sent : List Byte := [0xFE, 0xFE, 0x94, 0xE0, 0x03, 0xFD]
/-- A line that brings the bytes given during poll tick k after the transmission of `sent`. -/
def bringsAt (k : Nat) (bytes : List Byte) : State :=
  { known [] with arrivals := List.replicate (sent.length + 3 + 2 * k) [] ++ [bytes] }

/-- An echo at once, one byte for byte behind the pushes, and one that is whole only during the last poll tick. -/
theorem test_witness_VerifiedWriteOnEchoingBus :
    WriteMode.checked ≠ .fast ∧ WriteMode.powerOn ≠ .fast ∧ WriteAccepted small 0x94 [0x03] [] ∧ (known []).rx = []
      ∧ HealthyEcho sent 0 { known [] with loopback := true } ∧ EchoesAtOnce { known [] with loopback := true }
      ∧ HealthyEcho sent 9 { known [] with arrivals := [[], [], []] ++ sent.map fun b => [b] }
      ∧ HealthyEcho sent (sent.length + 4 + 2 * small.echoPollLimit) (bringsAt small.echoPollLimit sent) := by
  unfold HealthyEcho; decide
/-- As many bytes as were sent, one fewer, one more, and a wrong one; at once, during the last poll tick, and after it. -/
theorem test_witness_EchoVerdict :
    WriteMode.checked ≠ .fast ∧ WriteAccepted small 0x94 [0x03] [] ∧ (bringsAt 0 sent).rx = [] ∧ (bringsAt 0 sent).loopback = false
      ∧ (∀ k ≤ small.echoPollLimit + 1, ∀ bytes ∈ [sent, sent.dropLast, sent ++ [0xFE]], arrivingWithin 2 (bringsAt k bytes) = [])
      ∧ sent.length ≤ (arrivingWithin (sent.length + 4 + 2 * small.echoPollLimit) (bringsAt small.echoPollLimit sent)).length
      ∧ sent.dropLast.length < sent.length ∧ sent.take sent.length = sent ∧ (sent ++ [0xFE]).take sent.length = sent
      ∧ ([0xFE, 0xFE, 0x94, 0xE0, 0x02, 0xFD] : List Byte).take sent.length ≠ sent := by decide
/-- For the three answers of EchoVerdict: the echo in time, too late, and wrong. -/
theorem test_witness_EchoVerdict_answers :
    (answer (exec (.writeChecked 0x94 [0x03] []) (bringsAt small.echoPollLimit sent))).bind List.head? = some 0x00
      ∧ (answer (exec (.writeChecked 0x94 [0x03] []) (bringsAt (small.echoPollLimit + 1) sent))).bind List.head? = some 0x06
      ∧ (answer (exec (.writeChecked 0x94 [0x03] []) (bringsAt 1 [0xFE, 0xFE, 0x94, 0xE0, 0x02, 0xFD]))).bind List.head? = some 0x05 := by
  decide
/-- A frame of each kind: with data, the markers, no data, a command cut short, ten data bytes after the longest command, no body at all,
and bytes that complete no frame. -/
theorem test_witness_WriteDrainsOneMessage :
    WriteAccepted small 0x94 [0x03] [] ∧ small.wellFormed = true ∧ isFraming 0xA4 = false ∧ NothingArrives (known [])
      ∧ buffered.pend.length < small.pendingCap ∧ regKnown 0xA4 (known []) = true ∧ regKnown 0x98 (known []) = false
      ∧ wireValid small.compound [0x00] [0x01] = true ∧ (known (framed 0xE0 0xA4 [0x00, 0x01])).rx = rawFrame small.addrMaster 0xA4 [0x00] [0x01]
      ∧ (known (framed 0x00 0xA4 [0xFB])).rx = [0xFE, 0xFE, small.addrAll, 0xA4, 0xFB, 0xFD]
      ∧ (known (framed 0xE0 0xA4 [0xFA])).rx = [0xFE, 0xFE, small.addrMaster, 0xA4, 0xFA, 0xFD]
      ∧ (∀ body ∈ [[], [0x03], [0x14], List.replicate 11 0x03, List.replicate 13 0x03],
        (∀ b ∈ body, isFraming b = false) ∧ body.length ≤ 13 ∧ (classify small (framed 0xE0 0xA4 body)).status ≠ .okWithData)
      ∧ (known [0xFE, 0xFE, 0xE0, 0xFD]).rx = [0xFE, 0xFE, small.addrMaster, 0xFD] ∧ (known [0xFE, 0xFE, 0xE0, 0xA4]).rx ≠ []
      ∧ ∀ q ∈ [0xFE#8, 0xFE, 0xE0, 0xA4].inits, (fsmRun small q).1 ≠ .stop := by decide
/-- A radio's address, the two accepted destinations, and a full buffer. -/
theorem test_witness_FastEchoHazard :
    WriteAccepted small 0x94 [0x03] [] ∧ WriteAccepted small 0x00 [0x03] [] ∧ WriteAccepted small 0xE0 [0x03] [] ∧ small.wellFormed = true
      ∧ (full []).rx = [] ∧ EchoesAtOnce { full [] with loopback := true } ∧ (0x94 : Byte) ≠ small.addrAll ∧ (0x94 : Byte) ≠ small.addrMaster
      ∧ (full []).pend.length = small.pendingCap := by decide

/-- The sentinel, a present address, a full registry, and a free slot behind a taken one. -/
theorem test_witness_RegisterAddress :
    0x94#8 ∈ (known []).reg ∧ small.addrNone ∉ ({ known [] with reg := [0x94, 0xA4, 0x70, 0x98] } : State).reg
      ∧ (0x60#8 ≠ small.addrNone) ∧ 0x60#8 ∉ (known []).reg ∧ (known []).reg = [0x94, 0xA4] ++ small.addrNone :: [0xFF]
      ∧ small.addrNone ∉ [0x94#8, 0xA4] := by decide
theorem test_witness_RegisterTwice : regKnown 0x94 (known []) = true ∧ regKnown 0x60 (known []) = false := by decide
theorem test_witness_UnregisterAddress : (0xFF : Byte) = small.addrNone ∧ (0xA4 : Byte) ≠ small.addrNone := by decide
theorem test_witness_KnownAfterRegistering :
    (0x60 : Byte) ≠ small.addrNone ∧ 0x60#8 ∉ (known []).reg ∧ small.addrNone ∈ (known []).reg ∧ 0x94#8 ∈ (known []).reg := by decide

theorem test_witness_ControllerCreation :
    (3#8).toNat < small.maxControllers ∧ (bus []).ctrl.length = small.maxControllers ∧ ((bus []).ctl 3).live = false
      ∧ (0#8).toNat < small.models.length ∧ isFraming 0x94 = false ∧ isReservedAddress small 0x94 = false ∧ small.addrNone ∈ (bus []).reg := by
  decide
theorem test_witness_ControllerCreationRefusals :
    small.maxControllers ≤ (4#8).toNat ∧ (0#8).toNat < small.maxControllers ∧ ((slot radio []).ctl 0).live = true
      ∧ ((slot radio []).ctl 3).live = false ∧ (3#8).toNat < small.maxControllers ∧ small.models.length ≤ (1#8).toNat
      ∧ (0#8).toNat < small.models.length ∧ (0x00 : Byte) = small.addrAll ∧ (0xE0 : Byte) = small.addrMaster ∧ (0xFF : Byte) = small.addrNone := by
  decide
/-- A live slot, as the controller statements ask for: of ControllerDestruction, GettersAnswer, TickSlotAndSends, TickControlFields, TickPowerState
and TickTelemetry it is the one hypothesis. -/
theorem test_witness_SlotLive : SlotLive 0 (slot radio []) ∧ SlotLive 0 (slot running []) := by decide
theorem test_witness_SetAddress :
    SlotLive 0 (slot radio []) ∧ isFraming 0xA4 = false ∧ isReservedAddress small 0xA4 = false ∧ small.addrNone ∈ (slot radio []).reg
      ∧ ((slot radio []).ctl 0).addr ≠ 0xA4 := by decide
theorem test_witness_SlotChecks :
    slotOf (.tick 4 0) = some 4 ∧ (Instr.tick 4 0).opcode ≠ .ctrlCreate ∧ small.maxControllers ≤ 4 ∧ 3 < small.maxControllers
      ∧ ((slot radio []).ctl 3).live = false := by decide
/-- The first code past each enumeration, the framing bytes, the reserved addresses, and a group of each kind that is refused; a
catalog with a body that a group can change gives reason 0x06. -/
theorem test_witness_ControllerOperandRefusals :
    SlotLive 0 (slot radio []) ∧ 2 < (3#8).toNat ∧ 1 < (2#8).toNat
      ∧ cmdLen small.compound (small.catalog.dtUtc ++ [0, 0, 0]) = small.catalog.dtUtc.length
      ∧ cmdLen small.compound (small.catalog.dtTime ++ [0x12]) = small.catalog.dtTime.length
      ∧ cmdLen small.compound (small.catalog.dtDate ++ [0x20, 0x26, 0x11, 0x11]) = small.catalog.dtDate.length
      ∧ [0x12#8].length ≠ small.dtLenTime ∧ [0x12#8, 0xFD].length = small.dtLenTime
      ∧ cmdLen [0x14] ([0x1A] ++ [0x05, 0, 0]) ≠ [0x1A#8].length := by decide
theorem test_witness_SetModeStartsSequence : SlotLive 0 (slot radio []) ∧ (0#8).toNat ≤ 1 ∧ (1#8).toNat ≤ 1 := by decide
/-- Each clause: On while On, Off while Off, a power-on and a power-off, by request and by Toggle. -/
theorem test_witness_SetPower :
    SlotLive 0 (slot radio []) ∧ SlotLive 0 (slot { radio with power := .off } []) ∧ (2#8).toNat ≤ 2 ∧ ((slot radio []).ctl 0).power = .on
      ∧ ((slot { radio with power := .off } []).ctl 0).power = .off ∧ (slot radio []).rx = [] ∧ NothingArrives (slot radio []) := by decide
theorem test_witness_PushDateTime :
    SlotLive 0 (slot radio []) ∧ GroupsAccepted small [0x12, 0x30] [0x20, 0x26, 0x11, 0x11] [0, 0, 0] ∧ ((slot radio []).ctl 0).power = .on
      ∧ ((slot { radio with power := .unknown } []).ctl 0).power ≠ .on ∧ (slot radio []).rx = [] ∧ NothingArrives (slot radio []) := by decide

/-- For TickSlotAndSends' last clause: nothing is left to come after the read. -/
theorem test_witness_TickSlotAndSends :
    SlotLive 0 (slot radio []) ∧ (match readFor 0x94 ((slot radio []).modCtl 0 (firstTick 5)) with
      | .ok (_, u) => decide (stream u = [])
      | .error _ => false) = true ∧ (slot radio []).loopback = false := by decide
/-- For TickControlFields: an identity reply to a radio not On with a query in flight; a sequence with an OK, a NOT_OK and its end; an ack
timeout at its limit; and a due identity query. -/
theorem test_witness_TickControlFields :
    let asked : Controller := { radio with power := .unknown, idInFlight := true, idSentAt := 10 }
    let patient : Controller := { running with ackSentAt := 10 }
    SlotLive 0 (slot asked (framed 0xE0 0x94 [0x19, 0x00, 0x94])) ∧ (modelOf small asked).idQuery = [0x19, 0x00]
      ∧ resultOf (readFor 0x94 ((slot asked (framed 0xE0 0x94 [0x19, 0x00, 0x94])).modCtl 0 (firstTick 11)))
        = some ⟨.okWithData, 0x94, [0x19, 0x00], [0x94], 0x94⟩
      ∧ slotAfter (exec (.tick 0 11) (slot asked (framed 0xE0 0x94 [0x19, 0x00, 0x94]))) = some { asked with power := .on, idInFlight := false }
      ∧ slotAfter (exec (.tick 0 11) (slot running (framed 0xE0 0x94 [0xFB]))) = some { running with seqIdx := 2, ackSentAt := 11 }
      ∧ slotAfter (exec (.tick 0 11) (slot { running with seqIdx := 2 } (framed 0xE0 0x94 [0xFB])))
        = some { running with
          seqIdx := 2, ackPending := false, seqActive := false, mode := .data, verifyPending := true, verifyFrom := 11 }
      ∧ (slotAfter (exec (.tick 0 15) { slot patient [] with cfg := { small with ackTimeoutMs := some 5 } })).map
          (fun d => (d.seqActive, d.ackPending, d.nak, d.mode)) = some (false, false, 1, .undefined)
      ∧ (slotAfter (exec (.tick 0 14) { slot patient [] with cfg := { small with ackTimeoutMs := some 5 } })).map
          (fun d => (d.seqActive, d.ackPending, d.nak, d.idInFlight)) = some (true, true, 0, false)
      ∧ small.idIntervalMs ≤ (5000#32 - radio.lastPollAt).toNat
      ∧ slotAfter (exec (.tick 0 5000) (slot radio [])) = some { radio with idInFlight := true, idSentAt := 5000, lastPollAt := 5000 } := by
  decide
/-- A mode report, for TickTelemetry's last clause. -/
theorem test_witness_TickTelemetry :
    SlotLive 0 (slot radio (framed 0xE0 0x94 [0x01, 0x03, 0x02]))
      ∧ resultOf (readFor 0x94 ((slot radio (framed 0xE0 0x94 [0x01, 0x03, 0x02])).modCtl 0 (firstTick 0)))
        = some ⟨.okWithData, 0x94, [0x01], [0x03, 0x02], 302⟩ ∧ ([0x01] : List Byte) = small.catalog.modeReport := by decide
theorem test_witness_NakAbortsSequence :
    SlotLive 0 (slot running (framed 0xE0 0xA4 [0xFA])) ∧ ((slot running (framed 0xE0 0xA4 [0xFA])).ctl 0).seqActive = true
      ∧ resultOf (readFor 0x94 ((slot running (framed 0xE0 0xA4 [0xFA])).modCtl 0 (firstTick 10))) = some ⟨.notOk, 0xA4, [], [], 0⟩ := by decide
/-- The four clauses: the last time inside the window, the first outside it, a slot that is Off, and a run to the first time clause (d)
speaks of, under a configuration with short times. -/
theorem test_witness_BootWindowOnQuietBus :
    let fresh : Controller := { Controller.blank with live := true, addr := 0x94 }
    let asked : Controller := { fresh with lastPowerOnAt := some 0, idInFlight := true, idSentAt := 4900 }
    SlotLive 0 (slot fresh []) ∧ QuietBus (slot fresh []) ∧ (slot fresh []).rx = [] ∧ (∀ e ∈ (slot fresh []).pend, e.src ≠ 0x94)
      ∧ fresh.power = .unknown ∧ fresh.lastPowerOnAt = none ∧ fresh.idInFlight = false
      ∧ (4999#32 - 0#32).toNat < (modelOf small fresh).bootWindow ∧ (modelOf small fresh).bootWindow ≤ (5000#32 - 0#32).toNat
      ∧ SlotLive 0 (slot asked []) ∧ asked.idInFlight = true ∧ small.idWaitMs ≤ (5000#32 - asked.idSentAt).toNat
      ∧ SlotLive 0 (slot { asked with power := .off } [])
      ∧ (let hasty : Config := { small with idIntervalMs := 5, idWaitMs := 10, models := [{ refModel with bootWindow := 10 }] }
        (modelOf hasty fresh).bootWindow + hasty.idIntervalMs + 2 * hasty.idWaitMs ≤ 35 ∧ SlotLive 0 { slot fresh [] with cfg := hasty }
        ∧ fresh.polled = false ∧ fresh.seqActive = false
        ∧ (0 :: [9, 18, 27] ++ [35]).IsChain (fun before after => before ≤ after ∧ after < before + hasty.idWaitMs)
        ∧ ((tickRun 0 ((0 :: [9, 18, 27] ++ [35]).map fun x => 0#32 + BitVec.ofNat 32 x) { slot fresh [] with cfg := hasty }).map
          fun t => (t.ctl 0).power) = some .off) := by decide

/-- Both sides of the invariant's step statement: a state in form with a live controller and a buffered entry, and a step of it. -/
theorem test_witness_StepKeepsInvariant :
    Inv { slot running [] with pend := [entry 0xA4 1], requests := [[0x42, 0x00, 0x0A, 0, 0, 0]] }
      ∧ ∃ t, step { slot running [] with pend := [entry 0xA4 1], requests := [[0x42, 0x00, 0x0A, 0, 0, 0]] } = .next t :=
  ⟨by decide, goesOn_next (by decide)⟩
/-- A raw read that sees at most two bytes between its poll ticks meets `BoundedArrival` with bound 2, and no less. -/
theorem test_witness_BoundedArrivalBoundsBytes :
    let s : State := { known [] with arrivals := [[], [0xFE], [], [0xFE], [0xE0]] }
    ∃ t, exec .readRaw s = .next t ∧ BoundedArrival 2 s t ∧ ¬ BoundedArrival 1 s t := ⟨_, rfl, by decide, by decide⟩
theorem test_witness_BytesLeaveInOrder :
    (known (framed 0xE0 0xA4 [0x00, 0x01] ++ [0xFE])).loopback = false
      ∧ ∃ t, exec (.writeFast 0x94 [0x03] []) (known (framed 0xE0 0xA4 [0x00, 0x01] ++ [0xFE])) = .next t :=
  ⟨by decide, goesOn_next (by decide)⟩
theorem test_witness_SlotIsolation :
    slotOf (.tick 0 10) ≠ some 1 ∧ ∃ t, exec (.tick 0 10) (slot running (framed 0xE0 0xA4 [0xFA])) = .next t :=
  ⟨by decide, goesOn_next (by decide)⟩
theorem test_witness_DateTimeOnlyByPush :
    (∃ t, exec (.tick 0 10) (slot radio []) = .next t) ∧ slotOf (.tick 0 10) ≠ some 1 ∧ (Instr.tick 0 10).opcode ≠ .pushDateTime
      ∧ (Instr.tick 0 10).opcode ≠ .ctrlCreate := ⟨goesOn_next (by decide), by decide, by decide, by decide⟩
theorem test_witness_RefusalChangesNothing :
    ∃ t, exec (.getPower 9) (slot radio []) = .next t ∧ t.responses = (slot radio []).responses ++ [[0x7F, 0x03]] := ⟨_, rfl, rfl⟩
theorem test_witness_CatalogPairsAlwaysAccepted : small.wellFormed = true ∧ ⟨[0x18, 0x01], []⟩ ∈ catalogPairs small := by decide

end Sys2Proof.Tests
end

/-! Whole operations, proved once for every instruction: each of them completes with one response, and the bytes that arrive in it are
bounded by the poll ticks it takes (00_scope.md R7, R16, R21). -/

namespace Sys2Proof.Machine

/-! ### What an operation has carried out before it answers -/

/-- From s to t, within `budget` poll ticks, the configuration, the line and the host's requests and responses are the same, and the
transmit log only grew. -/
structure Carried (budget : Nat) (s t : State) : Prop where
  cfg : t.cfg = s.cfg
  loopback : t.loopback = s.loopback
  requests : t.requests = s.requests
  responses : t.responses = s.responses
  tx : s.tx <+: t.tx
  pollsLe : s.polls ≤ t.polls
  polls : t.polls ≤ s.polls + budget

theorem Carried.refl (budget : Nat) (s : State) : Carried budget s s :=
  ⟨rfl, rfl, rfl, rfl, ⟨[], List.append_nil _⟩, le_rfl, Nat.le_add_right _ _⟩

theorem Carried.trans {m n : Nat} {s t u : State} (h₁ : Carried m s t) (h₂ : Carried n t u) : Carried (m + n) s u :=
  ⟨h₂.cfg.trans h₁.cfg, h₂.loopback.trans h₁.loopback, h₂.requests.trans h₁.requests, h₂.responses.trans h₁.responses,
    h₁.tx.trans h₂.tx, h₁.pollsLe.trans h₂.pollsLe, by have := h₁.polls; have := h₂.polls; omega⟩

theorem Carried.mono {m n : Nat} {s t : State} (h : Carried m s t) (hmn : m ≤ n) : Carried n s t :=
  { h with polls := h.polls.trans (Nat.add_le_add_left hmn _) }

theorem carried_setCtl (k : Nat) (c : Controller) (s : State) : Carried 0 s (s.setCtl k c) :=
  ⟨rfl, rfl, rfl, rfl, ⟨[], List.append_nil _⟩, le_rfl, le_rfl⟩

theorem carried_modCtl (k : Nat) (f : Controller → Controller) (s : State) : Carried 0 s (s.modCtl k f) := carried_setCtl k _ s

theorem carried_registerAddress (a : Byte) (s : State) : Carried 0 s (registerAddress a s) := by
  rw [registerAddress_spec]; exact ⟨rfl, rfl, rfl, rfl, ⟨[], List.append_nil _⟩, le_rfl, le_rfl⟩

theorem carried_unregisterAddress (a : Byte) (s : State) : Carried 0 s (unregisterAddress a s) := by
  rw [unregisterAddress_spec]; exact ⟨rfl, rfl, rfl, rfl, ⟨[], List.append_nil _⟩, le_rfl, le_rfl⟩

/-- The writes of a controller carry out within the drains and readbacks of their number (70_reset_and_hazards.md R245). -/
theorem Writes.carried {mode : WriteMode} {a : Byte} {commands : List Command} {k : Nat} {s t : State}
    (h : Writes mode a commands s t) (hm : OnlySlotMoved k s t) :
    Carried (commands.length * (s.cfg.readPollLimit + echoLimit s.cfg mode)) s t := by
  obtain ⟨l, -, htx⟩ := h.tx
  exact ⟨hm.cfg, hm.loopback, hm.requests, hm.responses, ⟨_, htx.symm⟩, h.pollsLe, h.polls⟩

theorem readRaw_carried (s : State) : ∃ r t, readRaw s = .ok (r, t) ∧ Carried s.cfg.readPollLimit s t := by
  obtain ⟨r, t, -, hrun, hm, -, hlo, hhi, -⟩ := readRaw_spec s
  exact ⟨r, t, hrun, hm.cfg, hm.loopback, hm.requests, hm.responses, by rw [hm.tx], hlo, hhi⟩

theorem readFor_carried (a : Byte) (s : State) : ∃ r t, readFor a s = .ok (r, t) ∧ Carried s.cfg.readPollLimit s t := by
  obtain ⟨r, t, -, hrun, hm, htx, -, -, hlo, hhi, -⟩ := readFor_spec a s
  exact ⟨r, t, hrun, hm.cfg, hm.loopback, hm.requests, hm.responses, by rw [htx], hlo, hhi⟩

theorem busWrite_carried (mode : WriteMode) (a : Byte) (cmd data : List Byte) (s : State) :
    ∃ r t, busWrite mode a cmd data s = .ok (r, t) ∧ Carried (s.cfg.readPollLimit + echoLimit s.cfg mode) s t := by
  obtain ⟨status, t, hrun, hm, -, hlo, hhi, htx⟩ := busWrite_spec mode a cmd data s
  refine ⟨_, t, hrun, hm.cfg, hm.loopback, hm.requests, hm.responses, ?_, hlo, by omega⟩
  rcases htx with ⟨-, hsame⟩ | ⟨-, hsent⟩
  · rw [hsame]
  · exact ⟨_, hsent.symm⟩

/-- A tick is one read and at most five Fast writes (42_controller.md R156, 70_reset_and_hazards.md R245). -/
theorem tickSlot_carried (k : Nat) (now : Time) (s : State) (hk : k < s.ctrl.length) :
    ∃ r t, tickSlot k now s = .ok (r, t) ∧ Carried (s.cfg.readPollLimit + 5 * s.cfg.readPollLimit) s t := by
  obtain ⟨r, u, t, -, hrun, hread, hutx, -, -, hlo, hhi, -, hm, -, hw⟩ := tickSlot_spec k now s hk
  have hcfg : u.cfg = s.cfg := hread.cfg
  obtain ⟨l, -, htx⟩ := hw.tx
  have hwrites : t.polls ≤ u.polls + 5 * s.cfg.readPollLimit := by
    calc t.polls ≤ u.polls + (tickCommands s.cfg now r (s.ctl k)).length * s.cfg.readPollLimit := by
          simpa [hcfg, echoLimit] using hw.polls
      _ ≤ u.polls + 5 * s.cfg.readPollLimit := by gcongr; exact tickCommands_length_le ..
  exact ⟨r, t, hrun, hm.cfg, hm.loopback, hm.requests, hm.responses, ⟨_, by rw [← hutx]; exact htx.symm⟩, hlo.trans hw.pollsLe,
    by omega⟩

/-- A power request is at most one verified write (42_controller.md R169 to R172). -/
theorem requestPower_carried (k : Nat) (q : PowerRequest) (now : Time) (s : State) (hk : k < s.ctrl.length) :
    ∃ t, requestPower k q now s = .ok t ∧ Carried (s.cfg.readPollLimit + s.cfg.echoPollLimit) s t := by
  obtain ⟨t, hrun, hm, ⟨rfl, -⟩ | ⟨-, -, -, hw⟩ | ⟨-, -, -, hw⟩⟩ := requestPower_spec k q now s hk
  · exact ⟨t, hrun, .refl _ t⟩
  · exact ⟨t, hrun, (hw.carried hm).mono (by simp [echoLimit])⟩
  · exact ⟨t, hrun, (hw.carried hm).mono (by simp [echoLimit])⟩

/-- A date/time push is three verified writes, or none (42_controller.md R182). -/
theorem pushGroups_carried (k : Nat) (time date utc : List Byte) (s : State) (hk : k < s.ctrl.length) :
    ∃ t, pushGroups k time date utc s = .ok t ∧ Carried (3 * (s.cfg.readPollLimit + s.cfg.echoPollLimit)) s t := by
  obtain ⟨t, hrun, hm, ⟨-, rfl⟩ | ⟨-, -, hw⟩⟩ := pushGroups_spec k time date utc s hk
  · exact ⟨_, hrun, (carried_modCtl k _ s).mono (Nat.zero_le _)⟩
  · exact ⟨t, hrun, hw.carried hm⟩

/-! ### The answer -/

/-- An operation answers: either by a refusal, with the state untouched, or it carries its work out and appends a response, which is
never as long as a refusal's two bytes (30_encoding.md R94). -/
def Answers (budget : Nat) (s : State) (outcome : Host.Outcome State Fault Refusal) : Prop :=
  (∃ reason, outcome = refuse reason s)
  ∨ ∃ u response, outcome = .next (u.respond response) ∧ response.length ≠ 2 ∧ Carried budget s u

@[simp] theorem le8_length (v : Nat) : (le8 v).length = 8 := by simp [le8]

theorem encodeResult_length_ne_two (r : ExchangeResult) : (encodeResult r).length ≠ 2 := by
  simp [encodeResult]

theorem answers_unlessRefused {budget : Nat} {s : State} {refusal : Option Reason} {run : Host.Outcome State Fault Refusal}
    (h : refusal = none → Answers budget s run) : Answers budget s (unlessRefused refusal s run) := by
  cases refusal with
  | none => exact h rfl
  | some reason => exact .inl ⟨reason, rfl⟩

theorem answers_answerResult {budget : Nat} {s : State} {res : Except Fault (ExchangeResult × State)}
    (h : ∃ r u, res = .ok (r, u) ∧ Carried budget s u) : Answers budget s (answerResult res) := by
  obtain ⟨r, u, rfl, hu⟩ := h
  exact .inr ⟨u, encodeResult r, rfl, encodeResult_length_ne_two r, hu⟩

theorem answers_answerByte {budget : Nat} {s u : State} (b : Byte) (h : Carried budget s u) : Answers budget s (answerByte b u) :=
  .inr ⟨u, [b], rfl, by simp, h⟩

theorem answers_answerDone {budget : Nat} {s u : State} (h : Carried budget s u) : Answers budget s (answerDone u) :=
  answers_answerByte 0x00 h

/-- A controller operation whose slot checks pass names a slot that exists (30_encoding.md R90). -/
theorem slot_lt_of_not_refused {k : Byte} {s : State} {more : List (Bool × Reason)}
    (h : firstReason (slotChecks k s ++ more) = none) : k.toNat < s.ctrl.length := by
  refine State.lt_of_live (by_contra fun hlive => ?_)
  cases hindex : indexOutOfRange k s <;> simp [slotChecks, firstReason, hlive, hindex] at h

/-- A getter answers one byte and does nothing else (42_controller.md R168, R174, R178, R179, R181). -/
theorem answers_getter (k b : Byte) (s : State) : Answers 0 s (unlessRefused (slotRefusal k s) s (answerByte b s)) :=
  answers_unlessRefused fun _ => answers_answerByte b (.refl 0 s)

theorem answers_hostWrite (mode : WriteMode) (a : Byte) (cmd data : List Byte) (s : State) :
    Answers (s.cfg.readPollLimit + echoLimit s.cfg mode) s (hostWrite mode a cmd data s) :=
  answers_unlessRefused fun _ => answers_answerResult (busWrite_carried mode a cmd data s)

/-- Every operation answers, within its poll budget (00_scope.md R7, R21; 70_reset_and_hazards.md R245). -/
theorem answers_exec (i : Instr) (s : State) : Answers (pollBudget s.cfg i) s (exec i s) := by
  cases i with
  | readRaw => exact answers_answerResult (readRaw_carried s)
  | readAddr a => exact answers_answerResult (readFor_carried a s)
  | writeFast a cmd data => exact answers_hostWrite .fast a cmd data s
  | writeChecked a cmd data => exact answers_hostWrite .checked a cmd data s
  | writePowerOn a cmd data => exact answers_hostWrite .powerOn a cmd data s
  | regAddr a => exact answers_answerDone (carried_registerAddress a s)
  | unregAddr a => exact answers_answerDone (carried_unregisterAddress a s)
  | isKnown a => exact answers_answerByte _ (.refl 0 s)
  | ctrlCreate k a md =>
    exact answers_unlessRefused fun _ => answers_answerDone ((carried_setCtl _ _ s).trans (carried_registerAddress a _))
  | ctrlDestroy k =>
    exact answers_unlessRefused fun _ => answers_answerDone ((carried_unregisterAddress _ s).trans (carried_modCtl _ _ _))
  | tick k now =>
    exact answers_unlessRefused fun h =>
      answers_answerResult (tickSlot_carried k.toNat now s (slot_lt_of_not_refused (more := []) h))
  | getPower k => exact answers_getter k _ s
  | setPower k q now =>
    refine answers_unlessRefused fun h => ?_
    obtain ⟨t, hrun, ht⟩ := requestPower_carried k.toNat ((powerRequestOf q).getD .off) now s (slot_lt_of_not_refused h)
    rw [hrun]
    exact answers_answerByte _ ht
  | getMode k => exact answers_getter k _ s
  | setMode k m => exact answers_unlessRefused fun _ => answers_answerDone (carried_modCtl _ _ s)
  | getFreq k =>
    exact answers_unlessRefused fun _ => .inr ⟨s, le8 (s.ctl k.toNat).freq, rfl, by simp, .refl 0 s⟩
  | getModulation k => exact answers_getter k _ s
  | getRxFilter k => exact answers_getter k _ s
  | setAddress k a =>
    exact answers_unlessRefused fun _ => answers_answerDone
      (((carried_unregisterAddress _ s).trans (carried_modCtl _ _ _)).trans (carried_registerAddress a _))
  | getAddress k => exact answers_getter k _ s
  | pushDateTime k time date utc =>
    refine answers_unlessRefused fun h => ?_
    obtain ⟨t, hrun, ht⟩ := pushGroups_carried k.toNat time date utc s (slot_lt_of_not_refused h)
    rw [hrun]
    exact answers_answerDone ht

/-- Settles O54: an operation either refuses, which moves nothing, or carries its work out and answers once. -/
theorem everyOperationCompletes : Obligations.EveryOperationCompletes := by
  intro i s
  rcases answers_exec i s with ⟨reason, h⟩ | ⟨u, response, h, -, hu⟩
  · exact ⟨_, _, [], h, rfl, rfl, rfl, rfl, (List.append_nil _).symm, le_rfl, Nat.le_add_right _ _⟩
  · obtain ⟨sent, hsent⟩ := hu.tx
    exact ⟨_, response, sent, h, by simp [hu.responses], hu.requests, hu.cfg, hu.loopback, hsent.symm, hu.pollsLe, hu.polls⟩

/-- Settles O59: a response that is no refusal never has a refusal's two bytes. -/
theorem refusalChangesNothing : Obligations.RefusalChangesNothing := by
  intro i s t reason hrun hresp
  rcases answers_exec i s with ⟨given, h⟩ | ⟨u, response, h, hlen, hu⟩
  · obtain rfl : s.respond [0x7F, reasonCode given] = t := Host.Outcome.next.inj (h.symm.trans hrun)
    obtain rfl : reasonCode given = reason := by simpa using hresp
    rfl
  · obtain rfl : u.respond response = t := Host.Outcome.next.inj (h.symm.trans hrun)
    have : response = [0x7F, reason] := by simpa [hu.responses] using hresp
    exact absurd (congrArg List.length this) hlen

/-! ### The bytes that arrive -/

/-- Along a chain in which no member exceeds the next by more than `bound`, the first exceeds the last by at most that much a link. -/
theorem head_le_of_bounded_chain {bound first last : Nat} {between : List Nat}
    (h : (first :: between ++ [last]).IsChain fun before after => before ≤ after + bound) :
    first ≤ last + (between.length + 1) * bound := by
  induction between generalizing first with
  | nil => simpa using h
  | cons next rest ih =>
    obtain ⟨hfirst, hrest⟩ := List.isChain_cons_cons.mp h
    calc first ≤ next + bound := hfirst
      _ ≤ last + (rest.length + 1) * bound + bound := Nat.add_le_add_right (ih hrest) bound
      _ = last + ((next :: rest).length + 1) * bound := by rw [List.length_cons]; ring

/-- The marks of an operation are one for each poll tick, between its start and its end (log 24). -/
theorem WaitsGrew.arrivalMarks_eq {s t : State} (h : WaitsGrew s t) :
    ∃ ws, arrivalMarks s t = toArrive s :: ws ++ [toArrive t] ∧ ws.length = t.polls - s.polls ∧ ∀ w ∈ ws, w ≤ toArrive s := by
  obtain ⟨-, ws, hwaits, hpolls, hle⟩ := h
  exact ⟨ws, by simp [arrivalMarks, hwaits], by omega, hle⟩

/-- `BoundedArrival` bounds the bytes that arrive by the poll ticks taken (00_scope.md R21). -/
theorem BoundedArrival.toArrive_le {bound : Nat} {s t : State} (h : BoundedArrival bound s t) (hgrew : WaitsGrew s t) :
    toArrive s ≤ toArrive t + (t.polls - s.polls + 1) * bound := by
  obtain ⟨ws, hmarks, hlen, -⟩ := hgrew.arrivalMarks_eq
  rw [BoundedArrival, hmarks] at h
  rw [← hlen]
  exact head_le_of_bounded_chain h

/-- With everything that is still to come as the bound, `BoundedArrival` holds (log 7). -/
theorem boundedArrival_toArrive {s t : State} (h : WaitsGrew s t) : BoundedArrival (toArrive s) s t := by
  obtain ⟨ws, hmarks, -, hle⟩ := h.arrivalMarks_eq
  have hmem : ∀ w ∈ arrivalMarks s t, w ≤ toArrive s := by
    rw [hmarks]
    simpa [or_imp, forall_and] using ⟨hle, h.1⟩
  refine (List.pairwise_iff_forall_sublist.mpr fun hab => ?_).isChain
  exact (hmem _ (hab.subset (by simp))).trans (Nat.le_add_left _ _)

/-- What a raw read consumes waited before it or arrived during it (10_state.md R53). -/
theorem readRaw_consumes {s t : State} (h : exec .readRaw s = .next t) :
    ∃ p, stream s = p ++ stream t ∧ p.length + toArrive t ≤ s.rx.length + toArrive s
      ∧ t.polls ≤ s.polls + s.cfg.readPollLimit := by
  obtain ⟨r, u, p, hrun, -, hst, -, hpolls, -⟩ := readRaw_spec s
  obtain rfl : u.respond (encodeResult r) = t := by
    simpa [exec, execReadRaw, answerResult, hrun] using h
  have hlen := congrArg List.length hst
  simp only [List.length_append, ← bytesToCome_eq, bytesToCome] at hlen
  refine ⟨p, hst, ?_, hpolls⟩
  have : toArrive (u.respond (encodeResult r)) = toArrive u := rfl
  omega

/-- Settles O55, from the record of poll ticks that every operation keeps. -/
theorem boundedArrivalBoundsBytes : Obligations.BoundedArrivalBoundsBytes := by
  refine ⟨fun i s t bound hrun hb => hb.toArrive_le (waitsGrew_exec hrun), fun s t bound hrun hb => ?_,
    fun i s t hrun => boundedArrival_toArrive (waitsGrew_exec hrun)⟩
  obtain ⟨p, hst, hlen, hpolls⟩ := readRaw_consumes hrun
  have harrived := hb.toArrive_le (waitsGrew_exec hrun)
  have hticks : (t.polls - s.polls + 1) * bound ≤ (s.cfg.readPollLimit + 1) * bound := by gcongr; omega
  exact ⟨p, hst, by omega⟩

/-! ### The step -/

/-- A step whose request decodes takes it off the queue and carries it out (00_scope.md R7; log 10). -/
theorem step_of_decode_ok {s : State} {request : List Byte} {later : List (List Byte)} {i : Instr}
    (hcfg : s.cfg.wellFormed = true) (hreq : s.requests = request :: later) (hdec : decode request = .ok i) :
    step s = exec i { s with requests := later } := by
  simp only [step, takeRequest, hcfg, hreq, hdec, if_true]

/-- A step whose request does not decode takes it off the queue and refuses it (30_encoding.md R101; log 10). -/
theorem step_of_decode_error {s : State} {request : List Byte} {later : List (List Byte)} {reason : Reason}
    (hcfg : s.cfg.wellFormed = true) (hreq : s.requests = request :: later) (hdec : decode request = .error reason) :
    step s = refuse reason { s with requests := later } := by
  simp only [step, takeRequest, hcfg, hreq, hdec, if_true]

/-- A step with no request waiting does nothing (log 10). -/
theorem step_of_no_request {s : State} (hcfg : s.cfg.wellFormed = true) (hreq : s.requests = []) : step s = .next s := by
  simp only [step, takeRequest, hcfg, hreq, if_true]

/-- An operation never refuses the configuration: it always answers. -/
theorem exec_ne_refused (i : Instr) (s : State) (r : Refusal) : exec i s ≠ .refused r := by
  rcases answers_exec i s with ⟨reason, h⟩ | ⟨u, response, h, -⟩ <;> simp [h, refuse]

/-- A step refuses the configuration exactly if that is not well formed: under any other, it answers every request (log 16). -/
theorem step_illFormedConfig_iff (s : State) : step s = .refused .illFormedConfig ↔ s.cfg.wellFormed = false := by
  cases hcfg : s.cfg.wellFormed with
  | false => simp [step, hcfg]
  | true =>
    simp only [Bool.true_eq_false, iff_false]
    cases hreq : s.requests with
    | nil => simp [step_of_no_request hcfg hreq]
    | cons request later =>
      cases hdec : decode request with
      | error reason => simp [step_of_decode_error hcfg hreq hdec, refuse]
      | ok i => rw [step_of_decode_ok hcfg hreq hdec]; exact exec_ne_refused i _ _

/-- Settles O7, by the rule of a step whose request decodes. -/
theorem stepRunsDecodedRequest : Obligations.StepRunsDecodedRequest := by
  intro s request later i hcfg hreq hdec
  exact step_of_decode_ok hcfg hreq hdec

/-! ### The clauses of a well-formed configuration -/

theorem any_isFraming_eq_false (l : List Byte) : l.any isFraming = false ↔ ∀ b ∈ l, b ≠ 0xFE#8 ∧ b ≠ 0xFD#8 := by
  simp [List.any_eq_false, isFraming_eq_false]

theorem startsWithMarker_eq_false (body : List Byte) :
    startsWithMarker body = false ↔ body.head? ≠ some 0xFB#8 ∧ body.head? ≠ some 0xFA#8 := by
  cases body <;> simp [startsWithMarker, isMarker, okMarker, nokMarker]

/-- 00_scope.md R10 (a). -/
theorem addressesOk_iff (cfg : Config) : addressesOk cfg = true ↔
    cfg.addrAll ≠ cfg.addrMaster ∧ cfg.addrAll ≠ cfg.addrNone ∧ cfg.addrMaster ≠ cfg.addrNone
      ∧ ∀ a ∈ [cfg.addrAll, cfg.addrMaster, cfg.addrNone], a ≠ 0xFE#8 ∧ a ≠ 0xFD#8 := by
  simp [addressesOk, isFraming_eq_false, and_assoc]

/-- 00_scope.md R10 (b). -/
theorem bodyOk_iff (compound body : List Byte) : bodyOk compound body = true ↔
    (body.length = 1 ∨ body.length = 2 ∨ body.length = 4) ∧ (∀ b ∈ body, b ≠ 0xFE#8 ∧ b ≠ 0xFD#8)
      ∧ body.head? ≠ some 0xFB#8 ∧ body.head? ≠ some 0xFA#8 ∧ body.length = cmdLen compound body := by
  simp only [bodyOk, isCommandLength, Bool.and_eq_true, Bool.or_eq_true, Bool.not_eq_true', beq_iff_eq,
    any_isFraming_eq_false, startsWithMarker_eq_false, eq_comm (a := cmdLen compound body), and_assoc, or_assoc]

/-- 00_scope.md R10 (c). -/
theorem dataOk_iff (data : List Byte) : dataOk data = true ↔ data.length ≤ 9 ∧ ∀ b ∈ data, b ≠ 0xFE#8 ∧ b ≠ 0xFD#8 := by
  simp only [dataOk, maxData, Bool.and_eq_true, decide_eq_true_eq, Bool.not_eq_true', any_isFraming_eq_false]

/-- 00_scope.md R10 (d). -/
theorem capacitiesOk_iff (cfg : Config) : capacitiesOk cfg = true ↔
    1 ≤ cfg.pendingCap ∧ 1 ≤ cfg.registryCap ∧ 1 ≤ cfg.maxControllers ∧ 1 ≤ cfg.readPollLimit ∧ 1 ≤ cfg.echoPollLimit := by
  simp only [capacitiesOk, Bool.and_eq_true, decide_eq_true_eq, and_assoc]

/-- 00_scope.md R10 (e). -/
theorem dateTimeLengthsOk_iff (cfg : Config) : dateTimeLengthsOk cfg = true ↔
    cfg.dtLenUtc ≤ 9 ∧ cfg.dtLenTime ≤ 9 ∧ cfg.dtLenDate ≤ 9 := by
  simp only [dateTimeLengthsOk, maxData, Bool.and_eq_true, decide_eq_true_eq, and_assoc]

/-- 30_encoding.md R97. -/
theorem modKeysOk_iff (cfg : Config) : modKeysOk cfg = true ↔
    ∀ m ∈ cfg.models, ∀ e ∈ m.modTable, e.1 ≠ 0x17#8 ∧ e.1 ≠ 0xFF#8 := by
  simp only [modKeysOk, List.all_eq_true, Bool.and_eq_true, bne_iff_ne]

/-- Settles O9, clause by clause. -/
theorem configurationCheck : Obligations.ConfigurationCheck := by
  intro s
  rw [step_illFormedConfig_iff, ← Bool.not_eq_true, not_iff_not]
  simp only [Config.wellFormed, configOk, Bool.and_eq_true, List.all_eq_true, addressesOk_iff, bodyOk_iff, dataOk_iff,
    capacitiesOk_iff, dateTimeLengthsOk_iff, modKeysOk_iff, and_assoc]

end Sys2Proof.Machine

/-! What an operation can do to the state before it answers, said once for all operations, and two consequences: the bytes of the bus are
consumed in order (10_state.md R53, 60_exceptions.md R218), and the machine's invariant is kept (10_state.md R34, R35, R37, R38). -/

namespace Sys2Proof.Machine

/-! ### The operand checks -/

theorem firstReason_eq_none_iff {checks : List (Bool × Reason)} :
    firstReason checks = none ↔ ∀ check ∈ checks, check.1 = false := by
  induction checks with
  | nil => simp [firstReason]
  | cons check rest ih =>
    obtain ⟨applies, reason⟩ := check
    cases applies <;> simp [firstReason, ih]

/-- A controller operation whose checks pass names a live slot, and passes its further checks (30_encoding.md R90). -/
theorem slotChecks_passed {k : Byte} {s : State} {more : List (Bool × Reason)}
    (h : firstReason (slotChecks k s ++ more) = none) : (s.ctl k.toNat).live = true ∧ ∀ check ∈ more, check.1 = false := by
  obtain ⟨-, hlive, hmore⟩ : indexOutOfRange k s = false ∧ (s.ctl k.toNat).live = true ∧ ∀ check ∈ more, check.1 = false := by
    simpa [slotChecks] using firstReason_eq_none_iff.mp h
  exact ⟨hlive, hmore⟩

theorem live_of_slotRefusal {k : Byte} {s : State} (h : slotRefusal k s = none) : (s.ctl k.toNat).live = true :=
  (slotChecks_passed (more := []) h).1

/-- An address that passes its checks is one a controller may have (42_controller.md R153, R180). -/
theorem controllerAddressChecks_passed {cfg : Config} {a : Byte} (h : ∀ check ∈ controllerAddressChecks cfg a, check.1 = false) :
    isFraming a = false ∧ isReservedAddress cfg a = false := by
  simpa [controllerAddressChecks] using h

/-- What the checks of CTRL_CREATE ensure of its operands (42_controller.md R153). -/
theorem createRefusal_none {k a md : Byte} {s : State} (h : createRefusal k a md s = none) :
    md.toNat < s.cfg.models.length ∧ isFraming a = false ∧ isReservedAddress s.cfg a = false := by
  have hchecks := firstReason_eq_none_iff.mp h
  simp only [List.forall_mem_append, List.forall_mem_cons, decide_eq_false_iff_not, not_le] at hchecks
  obtain ⟨⟨-, -, hmodel, -⟩, haddr⟩ := hchecks
  exact ⟨hmodel, controllerAddressChecks_passed haddr⟩

/-- A code that SET_MODE accepts stands for Voice or Data (30_encoding.md R97). -/
theorem modeOf_getD_ne_undefined {m : Byte} (h : (modeOf m).isNone = false) : (modeOf m).getD .undefined ≠ .undefined := by
  revert h
  unfold modeOf
  split
  · simp
  · split <;> simp

/-! ### The effect of an operation -/

/-- What an operation can do to the state before it answers: nothing, one engine operation, one change of the registry, one change of a
controller's lifecycle, or one operation of a live controller. Each case keeps what the operand checks have ensured. -/
inductive Effect (s : State) : State → Prop
  | still : Effect s s
  | readRaw {r : ExchangeResult} {u : State} (hrun : readRaw s = .ok (r, u)) : Effect s u
  | readFor (a : Byte) {r : ExchangeResult} {u : State} (hrun : readFor a s = .ok (r, u)) : Effect s u
  | write (mode : WriteMode) (a : Byte) (cmd data : List Byte) {r : ExchangeResult} {u : State}
      (hrun : busWrite mode a cmd data s = .ok (r, u)) : Effect s u
  | register (a : Byte) : Effect s (registerAddress a s)
  | unregister (a : Byte) : Effect s (unregisterAddress a s)
  | create {k model : Nat} {a : Byte} (hmodel : model < s.cfg.models.length) (hframing : isFraming a = false)
      (hreserved : isReservedAddress s.cfg a = false) : Effect s (registerAddress a (s.setCtl k (createdController a model)))
  | destroy {k : Nat} (hlive : (s.ctl k).live = true) :
      Effect s ((unregisterAddress (s.ctl k).addr s).modCtl k fun c => { c with live := false })
  | setAddress {k : Nat} {a : Byte} (hlive : (s.ctl k).live = true) (hframing : isFraming a = false)
      (hreserved : isReservedAddress s.cfg a = false) :
      Effect s (registerAddress a ((unregisterAddress (s.ctl k).addr s).modCtl k fun c => { c with addr := a }))
  | setMode {k : Nat} {mode : Mode} (hlive : (s.ctl k).live = true) (hmode : mode ≠ .undefined) :
      Effect s (s.modCtl k (startSequence s.cfg mode))
  | tick {k : Nat} {now : Time} {r : ExchangeResult} {u : State} (hlive : (s.ctl k).live = true)
      (hrun : tickSlot k now s = .ok (r, u)) : Effect s u
  | setPower {k : Nat} {q : PowerRequest} {now : Time} {u : State} (hlive : (s.ctl k).live = true)
      (hrun : requestPower k q now s = .ok u) : Effect s u
  | pushDateTime {k : Nat} {time date utc : List Byte} {u : State} (hlive : (s.ctl k).live = true)
      (hrun : pushGroups k time date utc s = .ok u) : Effect s u

/-- Every next state is one the operation's effect leads to, but for the response. -/
def HasEffect (s : State) (outcome : Host.Outcome State Fault Refusal) : Prop :=
  ∀ t, outcome = .next t → ∃ u response, t = u.respond response ∧ Effect s u

theorem hasEffect_respond {s u : State} (response : List Byte) (h : Effect s u) : HasEffect s (.next (u.respond response)) :=
  fun _ ht => ⟨u, response, (Host.Outcome.next.inj ht).symm, h⟩

/-- A refusal's effect is none (60_exceptions.md R204). -/
theorem hasEffect_refuse (reason : Reason) (s : State) : HasEffect s (refuse reason s) := hasEffect_respond _ .still

theorem hasEffect_unlessRefused {s : State} {refusal : Option Reason} {run : Host.Outcome State Fault Refusal}
    (h : refusal = none → HasEffect s run) : HasEffect s (unlessRefused refusal s run) := by
  cases refusal with
  | none => exact h rfl
  | some reason => exact hasEffect_refuse reason s

theorem hasEffect_fault (f : Fault) (s : State) : HasEffect s (.fault f) := nofun

theorem hasEffect_answerResult {s : State} {res : Except Fault (ExchangeResult × State)}
    (h : ∀ r u, res = .ok (r, u) → Effect s u) : HasEffect s (answerResult res) := by
  cases res with
  | error f => exact hasEffect_fault f s
  | ok p => exact hasEffect_respond _ (h p.1 p.2 rfl)

/-- A getter's effect is none (42_controller.md R168, R174, R177 to R179, R181). -/
theorem hasEffect_getter (refusal : Option Reason) (response : List Byte) (s : State) :
    HasEffect s (unlessRefused refusal s (.next (s.respond response))) :=
  hasEffect_unlessRefused fun _ => hasEffect_respond _ .still

theorem hasEffect_hostWrite (mode : WriteMode) (a : Byte) (cmd data : List Byte) (s : State) :
    HasEffect s (hostWrite mode a cmd data s) :=
  hasEffect_unlessRefused fun _ => hasEffect_answerResult fun _ _ => .write mode a cmd data

theorem hasEffect_exec (i : Instr) (s : State) : HasEffect s (exec i s) := by
  cases i with
  | readRaw => exact hasEffect_answerResult fun _ _ => .readRaw
  | readAddr a => exact hasEffect_answerResult fun _ _ => .readFor a
  | writeFast a cmd data => exact hasEffect_hostWrite .fast a cmd data s
  | writeChecked a cmd data => exact hasEffect_hostWrite .checked a cmd data s
  | writePowerOn a cmd data => exact hasEffect_hostWrite .powerOn a cmd data s
  | regAddr a => exact hasEffect_respond _ (.register a)
  | unregAddr a => exact hasEffect_respond _ (.unregister a)
  | isKnown a => exact hasEffect_respond _ .still
  | ctrlCreate k a md =>
    refine hasEffect_unlessRefused fun h => hasEffect_respond _ ?_
    obtain ⟨hmodel, hframing, hreserved⟩ := createRefusal_none h
    exact .create hmodel hframing hreserved
  | ctrlDestroy k => exact hasEffect_unlessRefused fun h => hasEffect_respond _ (.destroy (live_of_slotRefusal h))
  | tick k now =>
    exact hasEffect_unlessRefused fun h => hasEffect_answerResult fun _ _ => .tick (live_of_slotRefusal h)
  | getPower k => exact hasEffect_getter _ _ s
  | setPower k q now =>
    refine hasEffect_unlessRefused fun h => ?_
    cases hrun : requestPower k.toNat ((powerRequestOf q).getD .off) now s with
    | error f => exact hasEffect_fault f s
    | ok u => exact hasEffect_respond _ (.setPower (slotChecks_passed h).1 hrun)
  | getMode k => exact hasEffect_getter _ _ s
  | setMode k m =>
    refine hasEffect_unlessRefused fun h => hasEffect_respond _ ?_
    obtain ⟨hlive, hmode⟩ := slotChecks_passed h
    exact .setMode hlive (modeOf_getD_ne_undefined (by simpa using hmode))
  | getFreq k => exact hasEffect_getter _ _ s
  | getModulation k => exact hasEffect_getter _ _ s
  | getRxFilter k => exact hasEffect_getter _ _ s
  | setAddress k a =>
    refine hasEffect_unlessRefused fun h => hasEffect_respond _ ?_
    obtain ⟨hlive, haddr⟩ := slotChecks_passed h
    obtain ⟨hframing, hreserved⟩ := controllerAddressChecks_passed haddr
    exact .setAddress hlive hframing hreserved
  | getAddress k => exact hasEffect_getter _ _ s
  | pushDateTime k time date utc =>
    refine hasEffect_unlessRefused fun h => ?_
    cases hrun : pushGroups k.toNat time date utc s with
    | error f => exact hasEffect_fault f s
    | ok u => exact hasEffect_respond _ (.pushDateTime (slotChecks_passed h).1 hrun)

/-- A step does nothing, or takes a request off the queue and answers it after an operation's effect (00_scope.md R7; log 10). -/
theorem step_effect {s t : State} (h : step s = .next t) :
    t = s ∨ ∃ later u response, t = u.respond response ∧ Effect { s with requests := later } u := by
  cases hcfg : s.cfg.wellFormed with
  | false => simp [step, hcfg] at h
  | true =>
    cases hreq : s.requests with
    | nil =>
      rw [step_of_no_request hcfg hreq] at h
      exact .inl (Host.Outcome.next.inj h).symm
    | cons request later =>
      refine .inr ⟨later, ?_⟩
      cases hdec : decode request with
      | error reason => exact hasEffect_refuse reason _ t (step_of_decode_error hcfg hreq hdec ▸ h)
      | ok i => exact hasEffect_exec i _ t (step_of_decode_ok hcfg hreq hdec ▸ h)

/-! ### The order of the bytes -/

@[simp] theorem stream_respond (s : State) (response : List Byte) : stream (s.respond response) = stream s := rfl

@[simp] theorem stream_setCtl (s : State) (k : Nat) (c : Controller) : stream (s.setCtl k c) = stream s := rfl

@[simp] theorem stream_modCtl (s : State) (k : Nat) (f : Controller → Controller) : stream (s.modCtl k f) = stream s := rfl

@[simp] theorem stream_registerAddress (a : Byte) (s : State) : stream (registerAddress a s) = stream s := by
  rw [registerAddress_spec]; rfl

@[simp] theorem stream_unregisterAddress (a : Byte) (s : State) : stream (unregisterAddress a s) = stream s := by
  rw [unregisterAddress_spec]; rfl

/-- A tick reads and then writes, so what it consumes is what its read took and then what its writes took (42_controller.md R156). -/
theorem tickSlot_order {k : Nat} {now : Time} {s t : State} {r : ExchangeResult} (hlive : (s.ctl k).live = true)
    (hl : s.loopback = false) (hrun : tickSlot k now s = .ok (r, t)) : ∃ p, stream s = p ++ stream t := by
  obtain ⟨r', u, t', -, hrun', hread, -, -, ⟨p, hp⟩, -, -, -, -, -, hwrites⟩ := tickSlot_spec k now s (State.lt_of_live hlive)
  obtain ⟨rfl, rfl⟩ : r' = r ∧ t' = t := by simpa [hrun'] using hrun
  obtain ⟨q, hq⟩ := hwrites.order (hread.loopback.trans hl)
  exact ⟨p ++ q, by rw [hp, hq, List.append_assoc]⟩

theorem requestPower_order {k : Nat} {q : PowerRequest} {now : Time} {s t : State} (hlive : (s.ctl k).live = true)
    (hl : s.loopback = false) (hrun : requestPower k q now s = .ok t) : ∃ p, stream s = p ++ stream t := by
  obtain ⟨t', hrun', -, hcases⟩ := requestPower_spec k q now s (State.lt_of_live hlive)
  obtain rfl : t' = t := by simpa [hrun'] using hrun
  rcases hcases with ⟨rfl, -⟩ | ⟨-, -, -, hwrites⟩ | ⟨-, -, -, hwrites⟩
  · exact ⟨[], rfl⟩
  · exact hwrites.order hl
  · exact hwrites.order hl

theorem pushGroups_order {k : Nat} {time date utc : List Byte} {s t : State} (hlive : (s.ctl k).live = true)
    (hl : s.loopback = false) (hrun : pushGroups k time date utc s = .ok t) : ∃ p, stream s = p ++ stream t := by
  obtain ⟨t', hrun', -, hcases⟩ := pushGroups_spec k time date utc s (State.lt_of_live hlive)
  obtain rfl : t' = t := by simpa [hrun'] using hrun
  rcases hcases with ⟨-, rfl⟩ | ⟨-, -, hwrites⟩
  · exact ⟨[], rfl⟩
  · exact hwrites.order hl

/-- Only a read and a write consume bytes, and each consumes a first part of the stream (10_state.md R53). -/
theorem Effect.order {s u : State} (h : Effect s u) (hl : s.loopback = false) : ∃ p, stream s = p ++ stream u := by
  cases h with
  | still => exact ⟨[], rfl⟩
  | readRaw hrun =>
    obtain ⟨r, t, p, hrun', -, hp, -⟩ := readRaw_spec s
    obtain ⟨rfl, rfl⟩ := by simpa [hrun] using hrun'
    exact ⟨p, hp⟩
  | readFor a hrun =>
    obtain ⟨r, t, p, hrun', -, -, -, hp, -⟩ := readFor_spec a s
    obtain ⟨rfl, rfl⟩ := by simpa [hrun] using hrun'
    exact ⟨p, hp⟩
  | write mode a cmd data hrun => exact busWrite_order hl hrun
  | register a => exact ⟨[], by simp⟩
  | unregister a => exact ⟨[], by simp⟩
  | create => exact ⟨[], by simp⟩
  | destroy => exact ⟨[], by simp⟩
  | setAddress => exact ⟨[], by simp⟩
  | setMode => exact ⟨[], by simp⟩
  | tick hlive hrun => exact tickSlot_order hlive hl hrun
  | setPower hlive hrun => exact requestPower_order hlive hl hrun
  | pushDateTime hlive hrun => exact pushGroups_order hlive hl hrun

/-- Settles O56: the response takes no byte, and what an operation does before it keeps the order. -/
theorem bytesLeaveInOrder : Obligations.BytesLeaveInOrder := by
  intro i s t hl hrun
  obtain ⟨u, response, rfl, heffect⟩ := hasEffect_exec i s t hrun
  exact heffect.order hl

/-! ### The invariant -/

theorem RegOk.of_same {s t : State} (h : RegOk s) (hcfg : t.cfg = s.cfg) (hreg : t.reg = s.reg) : RegOk t := by
  unfold RegOk; rwa [hcfg, hreg]

theorem CtrlOk.of_same {s t : State} (h : CtrlOk s) (hcfg : t.cfg = s.cfg) (hctrl : t.ctrl = s.ctrl) : CtrlOk t := by
  unfold CtrlOk; rwa [hcfg, hctrl]

theorem PendOk.of_same {s t : State} (h : PendOk s) (hcfg : t.cfg = s.cfg) (hpend : t.pend = s.pend) : PendOk t :=
  h.of_grew hcfg (.inl hpend)

theorem Inv.regOk {s : State} (h : Inv s) : RegOk s := h.1

theorem Inv.pendOk {s : State} (h : Inv s) : PendOk s := h.2.1

theorem Inv.ctrlOk {s : State} (h : Inv s) : CtrlOk s := h.2.2

/-- A live slot of a machine in form holds a controller in form. -/
theorem Inv.controllerOk {s : State} {k : Nat} (h : Inv s) (hlive : (s.ctl k).live = true) : ControllerOk s.cfg (s.ctl k) :=
  ((ctrlOk_iff s).mp h.ctrlOk).2 k hlive

/-- A read or a write of the engine keeps the invariant if it keeps the pending buffer in form. -/
theorem Inv.of_engineMoved {s t : State} (h : Inv s) (hm : OnlyEngineMoved s t) (hpend : PendOk t) : Inv t :=
  ⟨h.regOk.of_same hm.cfg hm.reg, hpend, h.ctrlOk.of_same hm.cfg hm.ctrl⟩

/-- An operation of one slot keeps the invariant if it keeps the pending buffer and its slot's controller in form. -/
theorem Inv.of_slotMoved {s t : State} {k : Nat} {c : Controller} (h : Inv s) (hm : OnlySlotMoved k s t) (hpend : PendOk t)
    (hslot : t.ctl k = c) (hc : ControllerOk s.cfg c) : Inv t := by
  obtain ⟨hslots, hothers⟩ := (ctrlOk_iff s).mp h.ctrlOk
  refine ⟨h.regOk.of_same hm.cfg hm.reg, hpend, (ctrlOk_iff t).mpr ⟨by rw [hm.slots, hm.cfg, hslots], fun j hlive => ?_⟩⟩
  rw [hm.cfg]
  by_cases hj : j = k
  · rwa [hj, hslot]
  · rw [hm.others j hj] at hlive ⊢
    exact hothers j hlive

theorem Inv.registerAddress {s : State} (h : Inv s) (a : Byte) : Inv (registerAddress a s) :=
  ⟨registerAddress_regOk h.regOk, h.pendOk.of_same (by simp) (by simp), h.ctrlOk.of_same (by simp) (by simp)⟩

theorem Inv.unregisterAddress {s : State} (h : Inv s) (a : Byte) : Inv (unregisterAddress a s) :=
  ⟨unregisterAddress_regOk h.regOk, h.pendOk.of_same (by simp) (by simp), h.ctrlOk.of_same (by simp) (by simp)⟩

/-- Putting a controller in form, or one that is not live, into a slot keeps the invariant. -/
theorem Inv.setCtl {s : State} (h : Inv s) (k : Nat) {c : Controller} (hc : c.live = true → ControllerOk s.cfg c) :
    Inv (s.setCtl k c) := by
  obtain ⟨hreg, hpend, hslots, hall⟩ := h
  refine ⟨hreg, hpend, by simpa using hslots, fun d hd hlive => ?_⟩
  rcases List.mem_or_eq_of_mem_set hd with hold | rfl
  · exact hall d hold hlive
  · exact hc hlive

theorem Inv.modCtl {s : State} (h : Inv s) (k : Nat) {f : Controller → Controller}
    (hf : (f (s.ctl k)).live = true → ControllerOk s.cfg (f (s.ctl k))) : Inv (s.modCtl k f) := h.setCtl k hf

theorem createdController_ok {cfg : Config} {a : Byte} {model : Nat} (hmodel : model < cfg.models.length)
    (hframing : isFraming a = false) (hreserved : isReservedAddress cfg a = false) :
    ControllerOk cfg (createdController a model) :=
  ⟨hframing, hreserved, hmodel, Nat.zero_le _, Nat.two_pow_pos 34, nofun, nofun, nofun⟩

theorem ControllerOk.withAddr {cfg : Config} {c : Controller} {a : Byte} (h : ControllerOk cfg c) (hframing : isFraming a = false)
    (hreserved : isReservedAddress cfg a = false) : ControllerOk cfg { c with addr := a } := by
  obtain ⟨-, -, hrest⟩ := h
  exact ⟨hframing, hreserved, hrest⟩

/-- A power-on request leaves a boot window to compare a query in flight with (42_controller.md R171). -/
theorem ControllerOk.withPowerOn {cfg : Config} {c : Controller} (h : ControllerOk cfg c) (power : PowerState) (now : Time) :
    ControllerOk cfg { c with power := power, lastPowerOnAt := some now } := by
  obtain ⟨hframing, hreserved, hmodel, hcursor, hfreq, hack, hid, hseq⟩ := h
  exact ⟨hframing, hreserved, hmodel, hcursor, hfreq, hack, fun hflight => ⟨(hid hflight).1, nofun⟩, hseq⟩

/-- A sequence starts with its cursor at its first command, its mode Undefined and no NAK (42_controller.md R175). -/
theorem startSequence_ok {cfg : Config} {mode : Mode} {c : Controller} (h : ControllerOk cfg c) (hmode : mode ≠ .undefined) :
    ControllerOk cfg (startSequence cfg mode c) := by
  obtain ⟨hframing, hreserved, hmodel, -, hfreq, -, hid, -⟩ := h
  exact ⟨hframing, hreserved, hmodel, Nat.zero_le _, hfreq, nofun, hid, fun _ => ⟨rfl, hmode, rfl⟩⟩

/-- A tick reads a result whose number fits 34 bits, so the frequency it may keep fits (40_receive.md R120). -/
theorem tickSlot_inv {k : Nat} {now : Time} {s t : State} {r : ExchangeResult} (h : Inv s) (hlive : (s.ctl k).live = true)
    (hrun : tickSlot k now s = .ok (r, t)) : Inv t := by
  obtain ⟨r', u, t', -, hrun', hread, -, hmoved, -, -, -, hresult, hm, hslot, hwrites⟩ :=
    tickSlot_spec k now s (State.lt_of_live hlive)
  obtain ⟨rfl, rfl⟩ : r' = r ∧ t' = t := by simpa [hrun'] using hrun
  obtain ⟨-, hnv, -⟩ := hresult h.pendOk
  exact h.of_slotMoved hm (hwrites.pend (h.pendOk.of_moved hread.cfg hmoved)) hslot (slotAfterTick_ok hnv (h.controllerOk hlive))

theorem requestPower_inv {k : Nat} {q : PowerRequest} {now : Time} {s t : State} (h : Inv s) (hlive : (s.ctl k).live = true)
    (hrun : requestPower k q now s = .ok t) : Inv t := by
  obtain ⟨t', hrun', hm, hcases⟩ := requestPower_spec k q now s (State.lt_of_live hlive)
  obtain rfl : t' = t := by simpa [hrun'] using hrun
  have hok := h.controllerOk hlive
  rcases hcases with ⟨rfl, -⟩ | ⟨-, -, hslot, hwrites⟩ | ⟨-, -, hslot, hwrites⟩
  · exact h
  · exact h.of_slotMoved hm (hwrites.pend h.pendOk) hslot (hok.withPowerOn .offTransitioning now)
  · exact h.of_slotMoved hm (hwrites.pend h.pendOk) hslot hok

/-- A date/time push writes only the date/time fields of its slot, of which the form says nothing (42_controller.md R182). -/
theorem pushGroups_inv {k : Nat} {time date utc : List Byte} {s t : State} (h : Inv s) (hlive : (s.ctl k).live = true)
    (hrun : pushGroups k time date utc s = .ok t) : Inv t := by
  obtain ⟨t', hrun', hm, hcases⟩ := pushGroups_spec k time date utc s (State.lt_of_live hlive)
  obtain rfl : t' = t := by simpa [hrun'] using hrun
  have hok := h.controllerOk hlive
  rcases hcases with ⟨-, rfl⟩ | ⟨-, hslot, hwrites⟩
  · exact h.modCtl k fun _ => hok
  · exact h.of_slotMoved hm (hwrites.pend h.pendOk) hslot hok

/-- Every effect keeps the invariant: the engine's keep the pending buffer in form, the others the registry or their own slot. -/
theorem Effect.inv {s u : State} (heffect : Effect s u) (h : Inv s) : Inv u := by
  cases heffect with
  | still => exact h
  | readRaw hrun =>
    obtain ⟨r, t, p, hrun', hm, -⟩ := readRaw_spec s
    obtain ⟨rfl, rfl⟩ := by simpa [hrun] using hrun'
    exact h.of_engineMoved hm.toEngine (h.pendOk.of_same hm.cfg hm.pend)
  | readFor a hrun =>
    obtain ⟨r, t, p, hrun', hm, -, hmoved, -⟩ := readFor_spec a s
    obtain ⟨rfl, rfl⟩ := by simpa [hrun] using hrun'
    exact h.of_engineMoved hm (h.pendOk.of_moved hm.cfg hmoved)
  | write mode a cmd data hrun =>
    obtain ⟨status, t, hrun', hm, hgrew, -⟩ := busWrite_spec mode a cmd data s
    obtain ⟨rfl, rfl⟩ := by simpa [hrun] using hrun'
    exact h.of_engineMoved hm (h.pendOk.of_grew hm.cfg hgrew)
  | register a => exact h.registerAddress a
  | unregister a => exact h.unregisterAddress a
  | create hmodel hframing hreserved =>
    exact (h.setCtl _ fun _ => createdController_ok hmodel hframing hreserved).registerAddress _
  | destroy hlive => exact (h.unregisterAddress _).modCtl _ nofun
  | setAddress hlive hframing hreserved =>
    refine ((h.unregisterAddress _).modCtl _ fun _ => ?_).registerAddress _
    simpa using (h.controllerOk hlive).withAddr hframing hreserved
  | setMode hlive hmode => exact h.modCtl _ fun _ => startSequence_ok (h.controllerOk hlive) hmode
  | tick hlive hrun => exact tickSlot_inv h hlive hrun
  | setPower hlive hrun => exact requestPower_inv h hlive hrun
  | pushDateTime hlive hrun => exact pushGroups_inv h hlive hrun

/-- Settles O52: taking a request off the queue and responding touch no part of the invariant, and every effect keeps it. -/
theorem stepKeepsInvariant : Obligations.StepKeepsInvariant := by
  intro s t h hrun
  rcases step_effect hrun with rfl | ⟨later, u, response, rfl, heffect⟩
  · exact h
  · exact heffect.inv h

end Sys2Proof.Machine

/-! A controller's slot is its own: an operation of no slot, or of another one, gives the same whatever the slot holds, and hands it back
unread (20_memory.md R72, 60_exceptions.md R214). -/

namespace Sys2Proof.Machine

/-! ### The operand checks of another slot -/

section
variable {j : Nat} (c : Controller)

theorem slotChecks_setCtl {k : Byte} (h : k.toNat ≠ j) (s : State) : slotChecks k (s.setCtl j c) = slotChecks k s := by
  unfold slotChecks; rw [ctl_setCtl_ne c h]; rfl

theorem slotRefusal_setCtl {k : Byte} (h : k.toNat ≠ j) (s : State) : slotRefusal k (s.setCtl j c) = slotRefusal k s :=
  congrArg firstReason (slotChecks_setCtl c h s)

theorem createRefusal_setCtl {k : Byte} (h : k.toNat ≠ j) (a md : Byte) (s : State) :
    createRefusal k a md (s.setCtl j c) = createRefusal k a md s := by
  unfold createRefusal; rw [ctl_setCtl_ne c h]; rfl

theorem setPowerRefusal_setCtl {k : Byte} (h : k.toNat ≠ j) (q : Byte) (s : State) :
    setPowerRefusal k q (s.setCtl j c) = setPowerRefusal k q s := by
  unfold setPowerRefusal; rw [slotChecks_setCtl c h]

theorem setModeRefusal_setCtl {k : Byte} (h : k.toNat ≠ j) (m : Byte) (s : State) :
    setModeRefusal k m (s.setCtl j c) = setModeRefusal k m s := by
  unfold setModeRefusal; rw [slotChecks_setCtl c h]

theorem setAddressRefusal_setCtl {k : Byte} (h : k.toNat ≠ j) (a : Byte) (s : State) :
    setAddressRefusal k a (s.setCtl j c) = setAddressRefusal k a s := by
  unfold setAddressRefusal; rw [slotChecks_setCtl c h]; rfl

theorem dateTimeRefusal_setCtl {k : Byte} (h : k.toNat ≠ j) (time date utc : List Byte) (s : State) :
    dateTimeRefusal k time date utc (s.setCtl j c) = dateTimeRefusal k time date utc s := by
  unfold dateTimeRefusal; rw [slotChecks_setCtl c h]; rfl

/-! ### The answer -/

/-- An outcome with slot j of its next state overwritten: what an operation that does not depend on slot j gives once that slot is
overwritten before it. -/
def outcomeWithSlot (j : Nat) (c : Controller) : Host.Outcome State Fault Refusal → Host.Outcome State Fault Refusal
  | .next t => .next (t.setCtl j c)
  | .fault f => .fault f
  | .refused r => .refused r

theorem answerResult_withSlot (res : Except Fault (ExchangeResult × State)) :
    answerResult (res.map (withSlot j c)) = outcomeWithSlot j c (answerResult res) := by
  cases res <;> rfl

/-- An operation whose refusal and whose work do not depend on slot j does not depend on it: a refusal's answer reads no slot. -/
theorem unlessRefused_setCtl {refusal refusal' : Option Reason} {run run' : Host.Outcome State Fault Refusal} {s : State}
    (hrefusal : refusal' = refusal) (hrun : run' = outcomeWithSlot j c run) :
    unlessRefused refusal' (s.setCtl j c) run' = outcomeWithSlot j c (unlessRefused refusal s run) := by
  subst hrefusal hrun
  cases refusal' <;> rfl

/-- A getter answers from its own slot alone (42_controller.md R168, R174, R177 to R179, R181). -/
theorem getter_setCtl {k : Byte} (h : k.toNat ≠ j) (response : Controller → List Byte) (s : State) :
    unlessRefused (slotRefusal k (s.setCtl j c)) (s.setCtl j c)
        (.next ((s.setCtl j c).respond (response ((s.setCtl j c).ctl k.toNat))))
      = outcomeWithSlot j c
          (unlessRefused (slotRefusal k s) s (.next (s.respond (response (s.ctl k.toNat))))) :=
  unlessRefused_setCtl c (slotRefusal_setCtl c h s) (by rw [ctl_setCtl_ne c h]; rfl)

theorem hostWrite_setCtl (mode : WriteMode) (a : Byte) (cmd data : List Byte) (s : State) :
    hostWrite mode a cmd data (s.setCtl j c) = outcomeWithSlot j c (hostWrite mode a cmd data s) :=
  unlessRefused_setCtl c rfl (by rw [busWrite_setCtl, answerResult_withSlot])

/-! ### The operation -/

/-- An operation that does not name slot j does the same to everything else whatever slot j holds: each engine and controller operation
commutes with a write to that slot, and so does the answer. -/
theorem exec_setCtl (i : Instr) (h : ∀ k ∈ slotOf i, k ≠ j) (s : State) :
    exec i (s.setCtl j c) = outcomeWithSlot j c (exec i s) := by
  cases i with
  | readRaw => exact (congrArg answerResult (readRaw_setCtl j c s)).trans (answerResult_withSlot c _)
  | readAddr a => exact (congrArg answerResult (readFor_setCtl j c a s)).trans (answerResult_withSlot c _)
  | writeFast a cmd data => exact hostWrite_setCtl c .fast a cmd data s
  | writeChecked a cmd data => exact hostWrite_setCtl c .checked a cmd data s
  | writePowerOn a cmd data => exact hostWrite_setCtl c .powerOn a cmd data s
  | regAddr a => exact congrArg answerDone (registerAddress_setCtl c a s)
  | unregAddr a => exact congrArg answerDone (unregisterAddress_setCtl c a s)
  | isKnown a => rfl
  | ctrlCreate k a md =>
    have hk := h _ rfl
    exact unlessRefused_setCtl c (createRefusal_setCtl c hk a md s)
      (by rw [setCtl_setCtl_comm c hk, registerAddress_setCtl]; rfl)
  | ctrlDestroy k =>
    have hk := h _ rfl
    exact unlessRefused_setCtl c (slotRefusal_setCtl c hk s)
      (by rw [ctl_setCtl_ne c hk, unregisterAddress_setCtl, modCtl_setCtl c hk]; rfl)
  | tick k now =>
    have hk := h _ rfl
    exact unlessRefused_setCtl c (slotRefusal_setCtl c hk s) (by rw [tickSlot_setCtl c hk, answerResult_withSlot])
  | getPower k => exact getter_setCtl c (h _ rfl) (fun d => [d.power.code]) s
  | setPower k q now =>
    have hk := h _ rfl
    refine unlessRefused_setCtl c (setPowerRefusal_setCtl c hk q s) ?_
    rw [requestPower_setCtl c hk]
    cases requestPower k.toNat ((powerRequestOf q).getD .off) now s with
    | error f => rfl
    | ok u => simp only [Except.map, ctl_setCtl_ne c hk]; rfl
  | getMode k => exact getter_setCtl c (h _ rfl) (fun d => [modeCode d.mode]) s
  | setMode k m =>
    have hk := h _ rfl
    exact unlessRefused_setCtl c (setModeRefusal_setCtl c hk m s) (by rw [modCtl_setCtl c hk]; rfl)
  | getFreq k => exact getter_setCtl c (h _ rfl) (fun d => le8 d.freq) s
  | getModulation k => exact getter_setCtl c (h _ rfl) (fun d => [d.modulation.code]) s
  | getRxFilter k => exact getter_setCtl c (h _ rfl) (fun d => [filterCode d.filter]) s
  | setAddress k a =>
    have hk := h _ rfl
    exact unlessRefused_setCtl c (setAddressRefusal_setCtl c hk a s)
      (by rw [ctl_setCtl_ne c hk, unregisterAddress_setCtl, modCtl_setCtl c hk, registerAddress_setCtl]; rfl)
  | getAddress k => exact getter_setCtl c (h _ rfl) (fun d => [d.addr]) s
  | pushDateTime k time date utc =>
    have hk := h _ rfl
    refine unlessRefused_setCtl c (dateTimeRefusal_setCtl c hk time date utc s) ?_
    rw [pushGroups_setCtl c hk]
    cases pushGroups k.toNat time date utc s <;> rfl

end

/-! ### The slot itself -/

/-- Writing back what a slot holds changes nothing. -/
theorem State.setCtl_ctl (s : State) (j : Nat) : s.setCtl j (s.ctl j) = s := by
  have hset : s.ctrl.set j (s.ctl j) = s.ctrl := by
    by_cases hj : j < s.ctrl.length
    · simp [State.ctl, hj]
    · exact List.set_eq_of_length_le (Nat.le_of_not_lt hj)
  rw [State.setCtl, hset]

/-- A slot overwritten with what it holds in a state of as many slots reads as there. -/
theorem State.ctl_setCtl_ctl {s t : State} (h : t.ctrl.length = s.ctrl.length) (j : Nat) :
    (t.setCtl j (s.ctl j)).ctl j = s.ctl j := by
  by_cases hj : j < t.ctrl.length
  · exact State.ctl_setCtl_self t j _ hj
  · simp [State.ctl, List.getD_eq_getElem?_getD, hj, h ▸ hj]

/-- No effect makes or removes a slot (10_state.md R37). -/
theorem Effect.slots {s u : State} (h : Effect s u) : u.ctrl.length = s.ctrl.length := by
  cases h with
  | still => rfl
  | readRaw hrun =>
    obtain ⟨r, t, p, hrun', hm, -⟩ := readRaw_spec s
    obtain ⟨rfl, rfl⟩ := by simpa [hrun] using hrun'
    rw [hm.ctrl]
  | readFor a hrun =>
    obtain ⟨r, t, p, hrun', hm, -⟩ := readFor_spec a s
    obtain ⟨rfl, rfl⟩ := by simpa [hrun] using hrun'
    rw [hm.ctrl]
  | write mode a cmd data hrun =>
    obtain ⟨status, t, hrun', hm, -⟩ := busWrite_spec mode a cmd data s
    obtain ⟨rfl, rfl⟩ := by simpa [hrun] using hrun'
    rw [hm.ctrl]
  | register a => simp
  | unregister a => simp
  | create => simp
  | destroy => simp
  | setAddress => simp
  | setMode => simp
  | @tick k now _ _ hlive hrun =>
    obtain ⟨r, _, t, -, hrun', -, -, -, -, -, -, -, hm, -⟩ := tickSlot_spec k now s (State.lt_of_live hlive)
    obtain ⟨rfl, rfl⟩ := by simpa [hrun] using hrun'
    exact hm.slots
  | @setPower k q now _ hlive hrun =>
    obtain ⟨t, hrun', hm, -⟩ := requestPower_spec k q now s (State.lt_of_live hlive)
    obtain rfl := by simpa [hrun] using hrun'
    exact hm.slots
  | @pushDateTime k time date utc _ hlive hrun =>
    obtain ⟨t, hrun', hm, -⟩ := pushGroups_spec k time date utc s (State.lt_of_live hlive)
    obtain rfl := by simpa [hrun] using hrun'
    exact hm.slots

theorem exec_slots {i : Instr} {s t : State} (h : exec i s = .next t) : t.ctrl.length = s.ctrl.length := by
  obtain ⟨u, response, rfl, heffect⟩ := hasEffect_exec i s t h
  exact heffect.slots

/-- Settles O57. That slot j is left as it was follows from the rest: with the value it holds written back, the operation runs from the
same state, so it leaves that value there. -/
theorem slotIsolation : Obligations.SlotIsolation := by
  intro i s t j hslot hrun
  have hother : ∀ k ∈ slotOf i, k ≠ j := fun k hk hkj => hslot (hkj ▸ hk)
  have hsame : ∀ c : Controller, exec i (s.setCtl j c) = .next (t.setCtl j c) := fun c => by
    rw [exec_setCtl c i hother s, hrun]; rfl
  have hback : t = t.setCtl j (s.ctl j) := by
    have hrun' := hsame (s.ctl j)
    rw [State.setCtl_ctl, hrun] at hrun'
    exact Host.Outcome.next.inj hrun'
  refine ⟨?_, hsame⟩
  calc t.ctl j = (t.setCtl j (s.ctl j)).ctl j := congrArg (·.ctl j) hback
    _ = s.ctl j := State.ctl_setCtl_ctl (exec_slots hrun) j

end Sys2Proof.Machine

/-! The host encoding of a request: the decoder and the encoder are inverse to each other on the well-formed instructions, and a request's
length alone decides whether it decodes (30_encoding.md R87 to R92, R101). -/

namespace Sys2Proof

/-! ### Decoding what was encoded -/

/-- A request that begins with an opcode's byte decodes exactly if its operand bytes do (30_encoding.md R87, R101). -/
theorem decode_of_ofByte {b : Byte} {op : Opcode} (h : Opcode.ofByte b = some op) (rest : List Byte) :
    decode (b :: rest) = (decodeOperands op rest).elim (.error .wrongLength) .ok := by
  simp only [decode, h]
  cases decodeOperands op rest <;> rfl

theorem takeField_lengthPrefixed_end {l : List Byte} (h : l.length < 256) : takeField (lengthPrefixed l) = some (l, []) := by
  simpa using takeField_lengthPrefixed [] h

theorem fitsLengthByte_iff {l : List Byte} : fitsLengthByte l = true ↔ l.length < 256 := by simp [fitsLengthByte]

theorem writeOperands_encode {cmd data : List Byte} (a : Byte) (h : (fitsLengthByte cmd && fitsLengthByte data) = true) :
    writeOperands (a :: (lengthPrefixed cmd ++ lengthPrefixed data)) = some (a, cmd, data) := by
  simp only [Bool.and_eq_true, fitsLengthByte_iff] at h
  obtain ⟨hcmd, hdata⟩ := h
  simp only [writeOperands, takeField_lengthPrefixed _ hcmd, takeField_lengthPrefixed_end hdata]

theorem dateTimeOperands_encode {time date utc : List Byte} (k : Byte)
    (h : (fitsLengthByte time && fitsLengthByte date && fitsLengthByte utc) = true) :
    dateTimeOperands (k :: (lengthPrefixed time ++ lengthPrefixed date ++ lengthPrefixed utc)) = some (k, time, date, utc) := by
  simp only [Bool.and_eq_true, fitsLengthByte_iff] at h
  obtain ⟨⟨htime, hdate⟩, hutc⟩ := h
  simp only [dateTimeOperands, List.append_assoc, takeField_lengthPrefixed _ htime, takeField_lengthPrefixed _ hdate,
    takeField_lengthPrefixed_end hutc]

/-- The operand bytes of a well-formed instruction are decoded to it (30_encoding.md R88, R89). -/
theorem decodeOperands_encodeOperands (i : Instr) (h : i.wellFormed = true) :
    decodeOperands i.opcode (encodeOperands i) = some i := by
  cases i with
  | writeFast a cmd data => exact congrArg (Option.map _) (writeOperands_encode a h)
  | writeChecked a cmd data => exact congrArg (Option.map _) (writeOperands_encode a h)
  | writePowerOn a cmd data => exact congrArg (Option.map _) (writeOperands_encode a h)
  | pushDateTime k time date utc => exact congrArg (Option.map _) (dateTimeOperands_encode k h)
  | tick k now => exact congrArg (fun t => some (Instr.tick k t)) (timeOfBytes_timeToBytes now)
  | setPower k q now => exact congrArg (fun t => some (Instr.setPower k q t)) (timeOfBytes_timeToBytes now)
  | readRaw | readAddr | regAddr | unregAddr | isKnown | ctrlCreate | ctrlDestroy | getPower | getMode | setMode | getFreq
  | getModulation | getRxFilter | setAddress | getAddress => rfl

theorem decode_encode (i : Instr) (h : i.wellFormed = true) : decode (encode i) = .ok i := by
  rw [encode, decode_of_ofByte (Opcode.ofByte_toByte _), decodeOperands_encodeOperands i h, Option.elim_some]

/-- Settles O1: the opcode's byte stands for the opcode, and behind it the operand bytes are decoded to the instruction. -/
theorem decodeEncodeRoundTrip : Obligations.DecodeEncodeRoundTrip := decode_encode

/-! ### Encoding what was decoded -/

/-- The instruction that operand bytes are decoded to is of the opcode, is well-formed, and has these operand bytes
(30_encoding.md R88, R89). -/
theorem decodeOperands_spec {op : Opcode} {bs : List Byte} {i : Instr} (h : decodeOperands op bs = some i) :
    i.opcode = op ∧ i.wellFormed = true ∧ encodeOperands i = bs := by
  revert h
  fun_cases decodeOperands op bs <;> intro h
  case case3 | case4 | case5 =>
    obtain ⟨⟨a, cmd, data⟩, hops, rfl⟩ := Option.map_eq_some_iff.mp h
    obtain ⟨hcmd, hdata, rfl⟩ := writeOperands_spec hops
    exact ⟨rfl, by simp [Instr.wellFormed, fitsLengthByte_iff, hcmd, hdata], rfl⟩
  case case21 =>
    obtain ⟨⟨k, time, date, utc⟩, hops, rfl⟩ := Option.map_eq_some_iff.mp h
    obtain ⟨htime, hdate, hutc, rfl⟩ := dateTimeOperands_spec hops
    exact ⟨rfl, by simp [Instr.wellFormed, fitsLengthByte_iff, htime, hdate, hutc], rfl⟩
  case case11 | case13 =>
    obtain rfl := Option.some.inj h
    exact ⟨rfl, rfl, by simp only [encodeOperands, timeToBytes_timeOfBytes]⟩
  case case22 => cases h
  all_goals
    obtain rfl := Option.some.inj h
    exact ⟨rfl, rfl, rfl⟩

/-- An accepted request is an opcode's byte and operand bytes that are decoded. -/
theorem decode_eq_ok_iff {bs : List Byte} {i : Instr} :
    decode bs = .ok i ↔ ∃ b rest op, bs = b :: rest ∧ Opcode.ofByte b = some op ∧ decodeOperands op rest = some i := by
  cases bs with
  | nil => simp [decode]
  | cons b rest =>
    cases hop : Opcode.ofByte b with
    | none => simp [decode, hop]
    | some op => cases hops : decodeOperands op rest <;> simp [decode_of_ofByte hop, hop, hops]

theorem decode_spec {bs : List Byte} {i : Instr} (h : decode bs = .ok i) : i.wellFormed = true ∧ encode i = bs := by
  obtain ⟨b, rest, op, rfl, hop, hops⟩ := decode_eq_ok_iff.mp h
  obtain ⟨rfl, hwf, rfl⟩ := decodeOperands_spec hops
  exact ⟨hwf, by rw [encode, Opcode.toByte_of_ofByte hop]⟩

/-- Settles O2, from the inversion of the operand decoder. -/
theorem encodeDecodeRoundTrip : Obligations.EncodeDecodeRoundTrip := fun _ _ => decode_spec

/-! ### The length of a request -/

/-- A field is taken off where its length byte and the n bytes it counts are there; what is left is the bytes after them. -/
theorem takeField_of_lt {bs : List Byte} {n : Nat} (hn : (byteAt bs 0).toNat = n) (h : n < bs.length) :
    ∃ l rest, takeField bs = some (l, rest) ∧ bs.length = 1 + n + rest.length ∧ ∀ j, byteAt rest j = byteAt bs (1 + n + j) := by
  subst hn
  cases bs with
  | nil => cases h
  | cons len tail =>
    replace h : len.toNat < tail.length + 1 := h
    refine ⟨tail.take len.toNat, tail.drop len.toNat, if_pos (by omega), ?_, fun j => ?_⟩
    · show tail.length + 1 = 1 + len.toNat + (tail.drop len.toNat).length
      rw [List.length_drop]; omega
    · show byteAt (tail.drop len.toNat) j = byteAt (len :: tail) (1 + len.toNat + j)
      rw [show 1 + len.toNat + j = len.toNat + j + 1 by omega, byteAt_succ]
      simp [byteAt]

/-- The operand bytes of a WRITE are decoded where there are as many as their two length bytes give (30_encoding.md R92). -/
theorem writeOperands_of_length {bs : List Byte} {cl dl : Nat} (hcl : (byteAt bs 1).toNat = cl)
    (hdl : (byteAt bs (2 + cl)).toNat = dl) (h : bs.length = 3 + cl + dl) : ∃ ops, writeOperands bs = some ops := by
  cases bs with
  | nil => rw [List.length_nil] at h; omega
  | cons a fields =>
    rw [List.length_cons] at h
    obtain ⟨cmd, rest, hcmd, hlen, hat⟩ := takeField_of_lt (bs := fields) hcl (by omega)
    have hdl' : (byteAt rest 0).toNat = dl := by rw [hat, ← byteAt_succ a, show 1 + cl + 0 + 1 = 2 + cl by omega, hdl]
    obtain ⟨data, rest', hdata, hlen', -⟩ := takeField_of_lt hdl' (by omega)
    obtain rfl : rest' = [] := List.eq_nil_of_length_eq_zero (by omega)
    exact ⟨(a, cmd, data), by simp only [writeOperands, hcmd, hdata]⟩

/-- The operand bytes of PUSH_DATETIME are decoded where there are as many as their three length bytes give (30_encoding.md R92). -/
theorem dateTimeOperands_of_length {bs : List Byte} {tl dl ul : Nat} (htl : (byteAt bs 1).toNat = tl)
    (hdl : (byteAt bs (2 + tl)).toNat = dl) (hul : (byteAt bs (3 + tl + dl)).toNat = ul) (h : bs.length = 4 + tl + dl + ul) :
    ∃ ops, dateTimeOperands bs = some ops := by
  cases bs with
  | nil => rw [List.length_nil] at h; omega
  | cons k fields =>
    rw [List.length_cons] at h
    obtain ⟨time, rest, htime, hlen, hat⟩ := takeField_of_lt (bs := fields) htl (by omega)
    have hdl' : (byteAt rest 0).toNat = dl := by rw [hat, ← byteAt_succ k, show 1 + tl + 0 + 1 = 2 + tl by omega, hdl]
    obtain ⟨date, rest', hdate, hlen', hat'⟩ := takeField_of_lt hdl' (by omega)
    have hul' : (byteAt rest' 0).toNat = ul := by
      rw [hat', hat, ← byteAt_succ k, show 1 + tl + (1 + dl + 0) + 1 = 3 + tl + dl by omega, hul]
    obtain ⟨utc, rest'', hutc, hlen'', -⟩ := takeField_of_lt hul' (by omega)
    obtain rfl : rest'' = [] := List.eq_nil_of_length_eq_zero (by omega)
    exact ⟨(k, time, date, utc), by simp only [dateTimeOperands, htime, hdate, hutc]⟩

/-- A request as long as its opcode and its length bytes give has operand bytes that are decoded (30_encoding.md R92). -/
theorem decodeOperands_of_requestLength {b : Byte} {rest : List Byte} {op : Opcode} (hop : Opcode.ofByte b = some op)
    (h : (b :: rest).length = requestLength (b :: rest)) : ∃ i, decodeOperands op rest = some i := by
  have hop' : Opcode.ofByte (byteAt (b :: rest) 0) = some op := hop
  rw [List.length_cons, requestLength, hop'] at h
  cases op with
  | readRaw =>
    obtain rfl := List.eq_nil_of_length_eq_zero (Nat.succ.inj h)
    exact ⟨_, rfl⟩
  | readAddr | regAddr | unregAddr | isKnown | ctrlDestroy | getPower | getMode | getFreq | getModulation | getRxFilter
  | getAddress =>
    obtain ⟨a, rfl⟩ := List.length_eq_one_iff.mp (Nat.succ.inj h)
    exact ⟨_, rfl⟩
  | setMode | setAddress =>
    obtain ⟨k, a, rfl⟩ := List.length_eq_two.mp (Nat.succ.inj h)
    exact ⟨_, rfl⟩
  | ctrlCreate =>
    obtain ⟨k, a, md, rfl⟩ := List.length_eq_three.mp (Nat.succ.inj h)
    exact ⟨_, rfl⟩
  | tick =>
    match rest, Nat.succ.inj h with
    | [k, b0, b1, b2, b3], _ => exact ⟨_, rfl⟩
  | setPower =>
    match rest, Nat.succ.inj h with
    | [k, q, b0, b1, b2, b3], _ => exact ⟨_, rfl⟩
  | writeFast | writeChecked | writePowerOn =>
    dsimp only at h
    rw [show ∀ n, 3 + n = 2 + n + 1 by omega, byteAt_succ, byteAt_succ] at h
    obtain ⟨ops, hops⟩ := writeOperands_of_length (bs := rest) rfl rfl (by omega)
    exact ⟨_, congrArg (Option.map _) hops⟩
  | pushDateTime =>
    dsimp only at h
    rw [show ∀ n, 3 + n = 2 + n + 1 by omega, show ∀ m n, 4 + m + n = 3 + m + n + 1 by omega] at h
    simp only [byteAt_succ] at h
    obtain ⟨ops, hops⟩ := dateTimeOperands_of_length (bs := rest) rfl rfl rfl (by omega)
    exact ⟨_, congrArg (Option.map _) hops⟩

/-- A well-formed instruction's encoding is as long as its own opcode and length bytes give (30_encoding.md R92). -/
theorem requestLength_encode (i : Instr) : Laws.EncodedLength.Statement i := by
  cases i with
  | writeFast a cmd data => exact Laws.EncodedLength.writeFast a cmd data
  | writeChecked a cmd data => exact Laws.EncodedLength.writeChecked a cmd data
  | writePowerOn a cmd data => exact Laws.EncodedLength.writePowerOn a cmd data
  | pushDateTime k time date utc => exact Laws.EncodedLength.pushDateTime k time date utc
  | readRaw | readAddr | regAddr | unregAddr | isKnown | ctrlCreate | ctrlDestroy | tick | getPower | setPower | getMode | setMode
  | getFreq | getModulation | getRxFilter | setAddress | getAddress => exact fun _ => rfl

/-- An accepted request has the length that its opcode and its length bytes give: it is the encoding of what it decodes to. -/
theorem length_of_decode {bs : List Byte} {i : Instr} (h : decode bs = .ok i) : bs.length = requestLength bs := by
  obtain ⟨hwf, rfl⟩ := decode_spec h
  exact (requestLength_encode i hwf).symm

/-- Settles O3: the right length is enough for the operand decoder, and an accepted request has no other. -/
theorem requestLengthDecides : Obligations.RequestLengthDecides := by
  intro b rest op hop
  constructor
  · intro hlen
    obtain ⟨i, hi⟩ := decodeOperands_of_requestLength hop hlen
    exact ⟨i, by rw [decode_of_ofByte hop, hi]; rfl, (decodeOperands_spec hi).1⟩
  · intro hlen
    have hdec := decode_of_ofByte hop rest
    cases hi : decodeOperands op rest with
    | none => rw [hdec, hi]; rfl
    | some i => exact absurd (length_of_decode (by rw [hdec, hi]; rfl)) hlen

/-- Settles O4, constructor by constructor (30_encoding.md R92). -/
theorem instructionLengths : Obligations.InstructionLengths := by
  intro i
  cases i with
  | writeFast | writeChecked | writePowerOn | pushDateTime =>
    simp only [encode, encodeOperands, lengthPrefixed, List.length_cons, List.length_append]
    omega
  | readRaw | readAddr | regAddr | unregAddr | isKnown | ctrlCreate | ctrlDestroy | tick | getPower | setPower | getMode | setMode
  | getFreq | getModulation | getRxFilter | setAddress | getAddress => rfl

/-- Settles O6: each request is the encoding of a well-formed instruction, so it decodes to that. -/
theorem writtenRequestsDecode : Obligations.WrittenRequestsDecode :=
  ⟨decode_encode .readRaw rfl, decode_encode (.readAddr 0x94) rfl, decode_encode (.writeChecked 0x94 [0x19, 0x00] []) rfl,
    decode_encode (.writeFast 0x94 [0x05] [0xAA, 0xBB]) rfl, decode_encode (.regAddr 0x94) rfl,
    decode_encode (.ctrlCreate 0x00 0x94 0x00) rfl,
    decode_encode (.tick 0x03 0x80000201#32) rfl,
    decode_encode (.setPower 0x01 0x02 1000#32) rfl, decode_encode (.setMode 0x01 0x00) rfl,
    decode_encode (.pushDateTime 0x00 [0x12] [] [0x34, 0x56]) rfl⟩

end Sys2Proof

/-! The other encodings: results (30_encoding.md R93), the codes of the enumerations (R95, R96) and the wire (R82 to R85); and the refusals of
requests that do not decode and of a live controller's operands (R101). -/

namespace Sys2Proof.Machine

/-! ### Results -/

/-- The n low bytes of a number, put together again from the lowest, are the number modulo 256^n (30_encoding.md R93). -/
theorem foldr_littleEndian (n v : Nat) :
    ((List.range n).map fun j => BitVec.ofNat 8 (v / 256 ^ j)).foldr (fun b rest => b.toNat + 256 * rest) 0 = v % 256 ^ n := by
  induction n generalizing v with
  | zero => simp [Nat.mod_one]
  | succ n ih =>
    have hrest : ∀ j, v / 256 ^ (j + 1) = v / 256 / 256 ^ j := fun j => by rw [Nat.pow_succ', Nat.div_div_eq_div_mul]
    rw [List.range_succ_eq_map, List.map_cons, List.map_map, List.foldr_cons]
    simp only [Function.comp_def, Nat.succ_eq_add_one, hrest, ih, Nat.pow_zero, Nat.div_one, BitVec.toNat_ofNat]
    rw [show 256 ^ (n + 1) = 256 * 256 ^ n from Nat.pow_succ', Nat.mod_mul]

theorem encodeResult_length (r : ExchangeResult) : (encodeResult r).length = 12 + r.cmd.length + r.data.length := by
  simp only [encodeResult, List.length_append, List.length_cons, List.length_nil, le8_length]
  omega

/-- Settles O11: the bytes are the encoding's own, and the number is below 256^8. -/
theorem resultEncoding : Obligations.ResultEncoding := by
  refine ⟨fun r => rfl, encodeResult_length, fun v hv => ⟨le8_length v, ?_⟩⟩
  exact (foldr_littleEndian 8 v).trans (Nat.mod_eq_of_lt hv)

/-- Refutes O12: a result with no command and no data is encoded in 12 bytes, not in 11 (log 21). -/
theorem not_resultLengthAsStated : ¬ Obligations.ResultLengthAsStated := by
  intro h
  have hlen : (encodeResult ⟨.noMessage, 0xFF, [], [], 0⟩).length = 11 := h ⟨.noMessage, 0xFF, [], [], 0⟩
  rw [encodeResult_length] at hlen
  exact absurd hlen (by decide)

/-! ### The codes of the enumerations -/

theorem Status.code_le_six (status : Status) : status.code ≤ 6 := by cases status <;> decide

/-- The code that stands for a power request, in both directions (30_encoding.md R96). -/
theorem powerRequestOf_eq_some_iff (q : Byte) (request : PowerRequest) :
    powerRequestOf q = some request ↔ q = match request with | .on => 0 | .off => 1 | .toggle => 2 := by
  unfold powerRequestOf
  cases request <;> grind

/-- Settles O10, code by code. -/
theorem enumerationCodes : Obligations.EnumerationCodes :=
  ⟨⟨rfl, rfl, rfl, rfl, rfl, rfl, rfl, Status.code_le_six⟩, ⟨rfl, rfl, rfl, rfl, rfl⟩,
    fun q => powerRequestOf_eq_some_iff q .on, fun q => powerRequestOf_eq_some_iff q .off,
    fun q => powerRequestOf_eq_some_iff q .toggle⟩

/-! ### Requests that do not decode -/

/-- The decoder rejects a request for its opcode or for its length, and for nothing else (30_encoding.md R101). -/
theorem reason_of_decode_error {bs : List Byte} {reason : Reason} (h : decode bs = .error reason) :
    reason = .reservedOpcode ∨ reason = .wrongLength := by
  revert h
  fun_cases decode bs <;> simp_all

/-- Settles O8: the decoder gives one of two reasons, and the step answers it. -/
theorem stepAnswersUndecodable : Obligations.StepAnswersUndecodable := by
  refine ⟨fun s request later reason hcfg hreq hdec => ?_, fun s => step_of_no_request⟩
  have hstep := step_of_decode_error hcfg hreq hdec
  rcases reason_of_decode_error hdec with rfl | rfl
  · exact .inl ⟨rfl, hstep⟩
  · exact .inr ⟨rfl, hstep⟩

/-- Settles O5: 0x13 is no opcode, so the decoder rejects it whatever follows. -/
theorem writeOpcodes : Obligations.WriteOpcodes := by
  constructor
  · intro mode a cmd data
    cases mode <;> rfl
  · intro s operands later hcfg hreq
    exact step_of_decode_error hcfg hreq (show decode (0x13#8 :: operands) = .error .reservedOpcode from rfl)

/-! ### The command length -/

/-- `CmdLen` of a body that is not empty, its two tests in the spec's order (30_encoding.md R82). -/
theorem cmdLen_cons (compound : List Byte) (b0 : Byte) (rest : List Byte) :
    cmdLen compound (b0 :: rest) =
      if b0 = 0x1A#8 ∧ rest.head? = some 0x05#8 then 4 else if b0 ∈ compound then 2 else 1 := by
  simp only [cmdLen, Bool.and_eq_true, beq_iff_eq, List.contains_iff_mem]

/-- A pair whose split `CmdLen` would move is not wire-valid (30_encoding.md R84, R85). -/
theorem wireValid_eq_false_of_cmdLen {compound cmd data : List Byte} (h : cmdLen compound (cmd ++ data) ≠ cmd.length) :
    wireValid compound cmd data = false := by
  simp [wireValid, h]

/-- Settles O18: the tests read the first byte, and the second only where the first is 0x1A. -/
theorem commandLength : Obligations.CommandLength := by
  refine ⟨cmdLen_cons, fun compound b0 rest rest' hb0 => ?_, fun compound rest rest' hhead => ?_, fun compound rest => ?_⟩
  · simp only [cmdLen_cons, hb0, false_and]
  · simp only [cmdLen_cons, hhead]
  · apply wireValid_eq_false_of_cmdLen
    rw [List.cons_append, cmdLen_cons, if_pos ⟨rfl, rfl⟩]
    decide

/-! ### The wire round trip -/

theorem wireValid_iff (compound cmd data : List Byte) : wireValid compound cmd data = true ↔
    (cmd.length = 1 ∨ cmd.length = 2 ∨ cmd.length = 4) ∧ cmdLen compound (cmd ++ data) = cmd.length
      ∧ cmd.head? ≠ some 0xFB#8 ∧ cmd.head? ≠ some 0xFA#8 ∧ data.length ≤ 9
      ∧ 0xFE#8 ∉ cmd ++ data ∧ 0xFD#8 ∉ cmd ++ data := by
  simp only [wireValid, isCommandLength, maxData, Bool.and_eq_true, Bool.or_eq_true, Bool.not_eq_true', beq_iff_eq, decide_eq_true_eq,
    startsWithMarker_eq_false, any_isFraming_eq_false, List.mem_append, not_or]
  grind

/-- Settles O19: the raw read takes the frame whole, and the classification of a wire-valid pair's frame gives the pair back. -/
theorem wireRoundTrip : Obligations.WireRoundTrip := by
  intro s dst src cmd data behind hcfg hlen hcmd hok hnok hdata hstart hstop hdst hsrc hsrc' hrx
  have hvalid : wireValid s.cfg.compound cmd data = true :=
    (wireValid_iff _ _ _).mpr ⟨hlen, hcmd, hok, hnok, hdata, hstart, hstop⟩
  obtain ⟨hbytes, hbody, -⟩ := wireValid_bytes hvalid
  obtain ⟨t, hread, hmoved, hpolls, hstream⟩ := readRaw_body hcfg hdst ((isFraming_eq_false src).mpr ⟨hsrc, hsrc'⟩) hbytes hbody
    (behind := behind) (by simpa using hrx)
  rw [classify_wireValid s.cfg dst src cmd data hvalid] at hread
  by_cases hempty : data = []
  · rw [if_pos hempty] at hread
    exact ⟨_, t, congrArg answerResult hread, rfl, rfl, hempty.symm, (if_pos hempty).symm, (if_pos hempty).symm, hmoved, hpolls, hstream⟩
  · rw [if_neg hempty] at hread
    exact ⟨_, t, congrArg answerResult hread, rfl, rfl, rfl, (if_neg hempty).symm, (if_neg hempty).symm, hmoved, hpolls, hstream⟩

/-! ### Operands of a live controller's operations -/

/-- On a live slot an operation is refused for the first reason that its further checks find, and nothing else changes
(30_encoding.md R90, R101). -/
theorem unlessRefused_of_slotLive {k : Byte} {s : State} {more : List (Bool × Reason)} {reason : Reason} (h : SlotLive k s)
    (hmore : firstReason more = some reason) (run : Host.Outcome State Fault Refusal) :
    unlessRefused (firstReason (slotChecks k s ++ more)) s run = .next (s.respond [0x7F, reasonCode reason]) := by
  obtain ⟨hindex, hlive⟩ := h
  have hinRange : indexOutOfRange k s = false := by simpa [indexOutOfRange] using hindex
  have hfirst : firstReason (slotChecks k s ++ more) = some reason := by simp [slotChecks, firstReason, hinRange, hlive, hmore]
  rw [hfirst]
  rfl

/-- The first check that applies gives the reason. -/
theorem firstReason_of_applies {applies : Bool} (h : applies = true) (reason : Reason) (rest : List (Bool × Reason)) :
    firstReason ((applies, reason) :: rest) = some reason := if_pos h

/-- A check that does not apply leaves the reason to the others. -/
theorem firstReason_of_not_applies {applies : Bool} (h : applies = false) (reason : Reason) (rest : List (Bool × Reason)) :
    firstReason ((applies, reason) :: rest) = firstReason rest := by
  simp [firstReason, h]

theorem powerRequestOf_isNone {q : Byte} (h : 2 < q.toNat) : (powerRequestOf q).isNone = true := by
  rw [Option.isNone_iff_eq_none, Option.eq_none_iff_forall_ne_some]
  intro request hrequest
  rw [powerRequestOf_eq_some_iff] at hrequest
  subst hrequest
  cases request <;> exact absurd h (by decide)

theorem modeOf_isNone {m : Byte} (h : 1 < m.toNat) : (modeOf m).isNone = true := by
  have hvoice : m ≠ 0#8 := by bv_omega
  have hdata : m ≠ 1#8 := by bv_omega
  simp [modeOf, hvoice, hdata]

/-- The check for reason 0x06 passes if `CmdLen` gives every group's body its own length (30_encoding.md R101, 42_controller.md R182). -/
theorem groupsMislength_eq_false_iff (cfg : Config) (time date utc : List Byte) :
    (groupMislength cfg cfg.catalog.dtUtc utc || groupMislength cfg cfg.catalog.dtTime time
        || groupMislength cfg cfg.catalog.dtDate date) = false ↔
      cmdLen cfg.compound (cfg.catalog.dtUtc ++ utc) = cfg.catalog.dtUtc.length
        ∧ cmdLen cfg.compound (cfg.catalog.dtTime ++ time) = cfg.catalog.dtTime.length
        ∧ cmdLen cfg.compound (cfg.catalog.dtDate ++ date) = cfg.catalog.dtDate.length := by
  simp only [groupMislength, Bool.or_eq_false_iff, bne_eq_false_iff_eq, and_assoc]

/-- The check for reason 0x07 passes if the groups have their configured lengths (30_encoding.md R101, 42_controller.md R182). -/
theorem groupLengths_eq_false_iff (cfg : Config) (time date utc : List Byte) :
    (time.length != cfg.dtLenTime || date.length != cfg.dtLenDate || utc.length != cfg.dtLenUtc) = false ↔
      time.length = cfg.dtLenTime ∧ date.length = cfg.dtLenDate ∧ utc.length = cfg.dtLenUtc := by
  simp only [Bool.or_eq_false_iff, bne_eq_false_iff_eq, and_assoc]

/-- The check for reason 0x08 applies if a framing byte stands in one of the groups (30_encoding.md R101, 42_controller.md R182). -/
theorem groupsFraming_iff (time date utc : List Byte) :
    (time.any isFraming || date.any isFraming || utc.any isFraming) = true ↔
      ∃ b ∈ time ++ date ++ utc, b = 0xFE#8 ∨ b = 0xFD#8 := by
  rw [← List.any_append, ← List.any_append, List.any_eq_true]
  simp only [isFraming, startByte, stopByte, Bool.or_eq_true, beq_iff_eq]

/-- Settles O41: on a live slot the operand checks decide, and each clause names the first of them that applies. -/
theorem controllerOperandRefusals : Obligations.ControllerOperandRefusals := by
  intro s k hlive
  refine ⟨fun q now hq => ?_, fun m hm => ?_, fun a ha => ?_, fun a hframing hreserved => ?_, fun time date utc => ⟨?_, ?_, ?_⟩⟩
  · exact unlessRefused_of_slotLive hlive (firstReason_of_applies (powerRequestOf_isNone hq) _ _) _
  · exact unlessRefused_of_slotLive hlive (firstReason_of_applies (modeOf_isNone hm) _ _) _
  · have hframing : isFraming a = true := by simpa [isFraming, startByte, stopByte] using ha
    exact unlessRefused_of_slotLive hlive (firstReason_of_applies hframing _ _) _
  · have hreserved' : isReservedAddress s.cfg a = true := by simpa [isReservedAddress, or_assoc] using hreserved
    exact unlessRefused_of_slotLive hlive (reason := .reservedAddress)
      ((firstReason_of_not_applies ((isFraming_eq_false a).mpr hframing) _ _).trans (firstReason_of_applies hreserved' _ _)) _
  · intro hkept
    rw [← groupsMislength_eq_false_iff, Bool.not_eq_false] at hkept
    exact unlessRefused_of_slotLive hlive (firstReason_of_applies hkept _ _) _
  · intro hkept hlengths
    rw [← groupLengths_eq_false_iff, Bool.not_eq_false] at hlengths
    exact unlessRefused_of_slotLive hlive (reason := .dataLength)
      ((firstReason_of_not_applies ((groupsMislength_eq_false_iff ..).mpr hkept) _ _).trans (firstReason_of_applies hlengths _ _)) _
  · intro hkept hlengths hframing
    exact unlessRefused_of_slotLive hlive (reason := .framingByte)
      ((firstReason_of_not_applies ((groupsMislength_eq_false_iff ..).mpr hkept) _ _).trans
        ((firstReason_of_not_applies ((groupLengths_eq_false_iff ..).mpr hlengths) _ _).trans
          (firstReason_of_applies ((groupsFraming_iff ..).mpr hframing) _ _))) _

end Sys2Proof.Machine

/-! Receiving: the transitions of the receive state machine and what a raw read makes of the bytes that come (40_receive.md R105 to R110), the
classification of a frame (R111 to R116), and the numbers in its data field (R117 to R122). -/

namespace Sys2Proof.Machine

/-! ### The receive state machine -/

/-- Idle waits for START (40_receive.md R107). -/
theorem rxStep_idle (cfg : Config) (buf : List Byte) (b : Byte) :
    rxStep cfg .idle buf b = if b = 0xFE#8 then (.sync, [b]) else (.idle, []) := by
  simp only [rxStep, startByte, beq_iff_eq]

/-- Sync waits for a second START (40_receive.md R108). -/
theorem rxStep_sync (cfg : Config) (buf : List Byte) (b : Byte) :
    rxStep cfg .sync buf b = if b = 0xFE#8 then (.collect, buf ++ [b]) else (.idle, []) := by
  simp only [rxStep, startByte, beq_iff_eq]

/-- Collect's tests, in the spec's order (40_receive.md R109, R110). -/
theorem rxStep_collect (cfg : Config) (buf : List Byte) (b : Byte) :
    rxStep cfg .collect buf b =
      if b = 0xFE#8 then (.idle, [])
      else if buf.length = 2 ∧ b ≠ cfg.addrAll ∧ b ≠ cfg.addrMaster then (.idle, [])
      else if b = 0xFD#8 then (.stop, buf ++ [b])
      else if buf.length = 17 then (.idle, [])
      else (.collect, buf ++ [b]) := by
  simp only [rxStep, startByte, stopByte, maxFrame, Bool.and_eq_true, beq_iff_eq, bne_iff_ne, and_assoc]

/-- Settles O13, phase by phase. -/
theorem receiveMachine : Obligations.ReceiveMachine :=
  fun cfg buf b => ⟨rxStep_idle cfg buf b, rxStep_sync cfg buf b, rxStep_collect cfg buf b⟩

/-- Without a START the machine never leaves Idle (40_receive.md R123). -/
theorem fsmRun_of_no_start (cfg : Config) {bytes : List Byte} (h : 0xFE#8 ∉ bytes) : fsmRun cfg bytes = (.idle, []) := by
  unfold fsmRun
  induction bytes with
  | nil => rfl
  | cons b rest ih =>
    obtain ⟨hb, hrest⟩ := not_or.mp (List.mem_cons.not.mp h)
    rw [fsmFrom_cons, rxStep_idle, if_neg (Ne.symm hb)]
    exact ih hrest

/-- Settles O14: a first part of a sequence without a START has none either. -/
theorem receiveStaysIdle : Obligations.ReceiveStaysIdle :=
  fun cfg _ _ hstart hpart => fsmRun_of_no_start cfg fun hmem => hstart (hpart.subset hmem)

/-! ### The raw read -/

/-- A machine that is not in Stop after some bytes is in Stop after no first part of them (40_receive.md R106). -/
theorem fsmRun_ne_stop_of_isPrefix {cfg : Config} {p q : List Byte} (hq : (fsmRun cfg q).1 ≠ .stop) (h : p <+: q) :
    (fsmRun cfg p).1 ≠ .stop := by
  obtain ⟨rest, rfl⟩ := h
  exact fsmFrom_ne_stop_of_append hq

/-- Settles O20: how the raw read ends is `ReadEnds`, in which the machine's last phase before the end speaks for all earlier ones. -/
theorem readRawRunsTheMachine : Obligations.ReadRawRunsTheMachine := by
  intro s
  obtain ⟨r, t, p, hread, hmoved, hstream, hpollsLo, hpollsHi, hend⟩ := readRaw_spec s
  refine ⟨r, t, p, congrArg answerResult hread, hmoved, hstream, hpollsLo, hpollsHi, ?_⟩
  rcases hend with ⟨q, b, hp, hbefore, hstop, hr⟩ | ⟨hnone, hr, hrx, hpolls⟩
  · exact .inl ⟨q, b, hp, fun q' => fsmRun_ne_stop_of_isPrefix hbefore, hstop, hr⟩
  · exact .inr ⟨fun q' => fsmRun_ne_stop_of_isPrefix hnone, hr, hrx, hpolls⟩

/-! ### Classification -/

/-- A frame with no room for a source and a body is dropped (40_receive.md R111). -/
theorem classify_of_short (cfg : Config) {buf : List Byte} (h : buf.length < 6) : classify cfg buf = noMessage cfg := if_pos h

/-- A frame with a body is classified by its source and its body (40_receive.md R111). -/
theorem classify_frame (cfg : Config) (dst src : Byte) {body : List Byte} (h : body ≠ []) :
    classify cfg ([0xFE, 0xFE, dst, src] ++ body ++ [0xFD]) = classifyBody cfg src body := by
  have hlength : ¬ ([0xFE, 0xFE, dst, src] ++ body ++ [0xFD]).length < 6 := by
    have := List.length_pos_of_ne_nil h
    simp only [List.length_append, List.length_cons, List.length_nil]
    omega
  have hbody : (([0xFE, 0xFE, dst, src] ++ body ++ [0xFD]).drop 4).dropLast = body := by
    rw [List.append_assoc]
    exact List.dropLast_concat
  rw [classify, if_neg hlength, hbody]
  rfl

/-- The chain of tests on a body, in the spec's order (40_receive.md R112 to R116). -/
theorem classifyBody_cons (cfg : Config) (src b0 : Byte) (rest : List Byte) :
    classifyBody cfg src (b0 :: rest) =
      let body := b0 :: rest
      let c := cmdLen cfg.compound body
      if b0 = 0xFA#8 then ⟨.notOk, src, [], [], 0⟩
      else if b0 = 0xFB#8 then ⟨.ok, src, [], [], 0⟩
      else if body.length < c then noMessage cfg
      else if 9 < body.length - c then noMessage cfg
      else if body.length = c then ⟨.ok, src, body.take c, [], 0⟩
      else ⟨.okWithData, src, body.take c, body.drop c, numVal cfg.numericMode (body.drop c)⟩ := by
  simp only [classifyBody, nokMarker, okMarker, maxData, beq_iff_eq, List.length_drop, List.isEmpty_iff, List.drop_eq_nil_iff]
  by_cases htruncated : (b0 :: rest).length < cmdLen cfg.compound (b0 :: rest)
  · simp only [if_pos htruncated]
  · have hnoData : (b0 :: rest).length ≤ cmdLen cfg.compound (b0 :: rest)
        ↔ (b0 :: rest).length = cmdLen cfg.compound (b0 :: rest) := by omega
    simp only [if_neg htruncated, hnoData]

/-- Settles O15, from the frame to its body and from the body to the chain of tests. -/
theorem frameClassification : Obligations.FrameClassification :=
  ⟨fun cfg _ hshort => classify_of_short cfg hshort,
    fun cfg dst src b0 rest => (classify_frame cfg dst src (List.cons_ne_nil b0 rest)).trans (classifyBody_cons cfg src b0 rest)⟩

/-! ### Numbers -/

/-- A data field whose length is none of 1, 2 and 5 has the value 0 (40_receive.md R117). -/
theorem numVal_of_other_length (mode : NumericMode) {d : List Byte} (h₁ : d.length ≠ 1) (h₂ : d.length ≠ 2) (h₅ : d.length ≠ 5) :
    numVal mode d = fit mode 0 := by
  unfold numVal
  split <;> simp_all

/-- `BcdMsbFirst`, nibble by nibble (40_receive.md R118). -/
theorem bcdMsbFirst_eq (d0 d1 : Byte) : bcdMsbFirst d0 d1 =
    d1.toNat % 16 * 10 ^ 0 + d1.toNat / 16 * 10 ^ 1 + d0.toNat % 16 * 10 ^ 2 + d0.toNat / 16 * 10 ^ 3 := by
  simp only [bcdMsbFirst, bcdByte, lowNibble, highNibble]
  ring

/-- `BcdLsbFirst`, nibble by nibble (40_receive.md R119). -/
theorem bcdLsbFirst_eq (d0 d1 d2 d3 d4 : Byte) : bcdLsbFirst d0 d1 d2 d3 d4 =
    d0.toNat % 16 * 10 ^ 0 + d0.toNat / 16 * 10 ^ 1 + d1.toNat % 16 * 10 ^ 2 + d1.toNat / 16 * 10 ^ 3
      + d2.toNat % 16 * 10 ^ 4 + d2.toNat / 16 * 10 ^ 5 + d3.toNat % 16 * 10 ^ 6 + d3.toNat / 16 * 10 ^ 7
      + d4.toNat % 16 * 10 ^ 8 + d4.toNat / 16 * 10 ^ 9 := by
  simp only [bcdLsbFirst, bcdByte, lowNibble, highNibble]
  ring

/-- Settles O16, length by length; the bound is `numVal_lt`. -/
theorem numericDecode : Obligations.NumericDecode :=
  ⟨fun _ _ => rfl, fun mode d0 d1 => congrArg (fit mode) (bcdMsbFirst_eq d0 d1),
    fun mode d0 d1 d2 d3 d4 => congrArg (fit mode) (bcdLsbFirst_eq d0 d1 d2 d3 d4),
    fun mode _ => numVal_of_other_length mode, fun _ => ⟨rfl, rfl⟩, numVal_lt⟩

/-- The two nibbles of a byte count one and ten times (40_receive.md R121). -/
theorem bcdByte_ofNat {low high : Nat} (hlow : low < 16) (hhigh : high < 16) :
    bcdByte (BitVec.ofNat 8 (low + 16 * high)) = low + 10 * high := by
  rw [bcdByte, lowNibble, highNibble, BitVec.toNat_ofNat, Nat.mod_eq_of_lt (by omega : low + 16 * high < 2 ^ 8)]
  omega

/-- A byte of two packed decimal digits is worth the number they stand for (40_receive.md R121, R122). -/
theorem bcdByte_bcdDigits (v i : Nat) : bcdByte (bcdDigits v i) = v / 10 ^ i % 100 := by
  rw [bcdDigits, bcdByte_ofNat (by omega) (by omega), Nat.pow_succ, ← Nat.div_div_eq_div_mul]
  omega

/-- The high digit's weight in the byte, written first as the spec has it (40_receive.md R122). -/
theorem bcdDigits_eq (v i : Nat) : bcdDigits v i = BitVec.ofNat 8 (v / 10 ^ (i + 1) % 10 * 16 + v / 10 ^ i % 10) := by
  rw [bcdDigits, Nat.add_comm, Nat.mul_comm]

/-- The two bytes, the higher pair of digits first, carry every number of four digits (40_receive.md R118, R122). -/
theorem numVal_bcdEncode2 {v : Nat} (h : v ≤ 9999) : numVal .exact (bcdEncode2 v) = v := by
  show bcdMsbFirst (bcdDigits v 2) (bcdDigits v 0) = v
  simp only [bcdMsbFirst, bcdByte_bcdDigits]
  omega

/-- The five bytes, the lowest pair of digits first, carry every number of ten digits (40_receive.md R119, R122). -/
theorem numVal_bcdEncode5 {v : Nat} (h : v ≤ 9999999999) : numVal .exact (bcdEncode5 v) = v := by
  show bcdLsbFirst (bcdDigits v 0) (bcdDigits v 2) (bcdDigits v 4) (bcdDigits v 6) (bcdDigits v 8) = v
  simp only [bcdLsbFirst, bcdByte_bcdDigits]
  omega

/-- Settles O17: each byte is worth its pair of digits, and the pairs make up the number. -/
theorem bcdDecodeInvertsEncode : Obligations.BcdDecodeInvertsEncode := by
  refine ⟨fun v hv => ⟨?_, numVal_bcdEncode2 hv⟩, fun v hv => ⟨?_, numVal_bcdEncode5 hv⟩⟩
  · simp only [bcdEncode2, bcdDigits_eq, Nat.reduceAdd, Nat.reducePow, Nat.div_one]
  · simp only [bcdEncode5, bcdDigits_eq, List.map_cons, List.map_nil]

end Sys2Proof.Machine

/-! The bus engine's operations on the pending buffer and the registry: READ_ADDR (41_bus_ops.md R126 to R130) and the registry operations
(R143 to R148). -/

namespace Sys2Proof.Machine

/-! ### The address-directed read -/

theorem pendFind_eq_none {a : Byte} {s : State} (h : ∀ x ∈ s.pend, x.src ≠ a) : pendFind a s = none := by
  simpa [pendFind, List.findIdx?_eq_none_iff] using h

/-- The oldest entry of an address is the first that has it as its source (20_memory.md R57). -/
theorem pendFind_append {a : Byte} {s : State} {before after : List ExchangeResult} {e : ExchangeResult}
    (hpend : s.pend = before ++ e :: after) (hbefore : ∀ x ∈ before, x.src ≠ a) (he : e.src = a) :
    pendFind a s = some before.length := by
  have hnone : before.findIdx? (·.src == a) = none := by simpa [List.findIdx?_eq_none_iff] using hbefore
  simp [pendFind, hpend, List.findIdx?_append, List.findIdx?_cons, hnone, he]

/-- Settles O21: the entry found is the one named, and taking it leaves the entries before and behind it. -/
theorem bufferedRead : Obligations.BufferedRead := by
  intro s a before after e hpend hbefore he
  have hread := readFor_buffered (pendFind_append hpend hbefore he)
  have htaken : s.pend.getD before.length (noMessage s.cfg) = e := by simp [hpend]
  have hleft : s.pend.eraseIdx before.length = before ++ after := by
    simp [hpend, List.eraseIdx_append_of_length_le]
  rw [htaken, hleft] at hread
  exact congrArg answerResult hread

/-- Settles O22, by the read under backpressure. -/
theorem readBackpressure : Obligations.ReadBackpressure := by
  intro s a hfull hnone
  have hroom : pendRoom s = false := by simp [pendRoom, hfull]
  exact congrArg answerResult (readFor_full (pendFind_eq_none hnone) hroom)

/-- With room in the buffer and no entry of the address, the read sorts one raw result (41_bus_ops.md R127). -/
theorem readFor_unbuffered {a : Byte} {s t : State} {r : ExchangeResult} (hfind : pendFind a s = none)
    (hroom : s.pend.length < s.cfg.pendingCap) (hread : readRaw s = .ok (r, t)) : readFor a s = .ok (sortResult a r t) := by
  simp only [readFor, hfind, (pendRoom_iff s).mpr hroom, hread, if_true]

/-- The reader's own result, and one that is not Ok-class, is returned (41_bus_ops.md R128). -/
theorem sortResult_returned {a : Byte} {r : ExchangeResult} (s : State) (h : r.src = a ∨ (r.status ≠ .ok ∧ r.status ≠ .okWithData)) :
    sortResult a r s = (r, s) := by
  by_cases hsrc : r.src = a
  · simp [sortResult, hsrc]
  · simp [sortResult, hsrc, Status.okClass, h.resolve_left hsrc]

/-- A stranger's data is buffered if the registry knows its source (41_bus_ops.md R128). -/
theorem sortResult_buffered {a : Byte} {r : ExchangeResult} {s : State} (hsrc : r.src ≠ a) (hdata : r.status = .okWithData)
    (hknown : regKnown r.src s = true) : sortResult a r s = (noMessage s.cfg, pendAppend r s) := by
  simp [sortResult, hsrc, hdata, hknown, Status.okClass, Status.dataClass]

/-- A stranger's Ok-class result is dropped if it has no data or its source is not known (41_bus_ops.md R128). -/
theorem sortResult_dropped {a : Byte} {r : ExchangeResult} {s : State} (hsrc : r.src ≠ a)
    (h : r.status = .ok ∨ r.status = .okWithData ∧ regKnown r.src s = false) : sortResult a r s = (noMessage s.cfg, s) := by
  rcases h with hst | ⟨hst, hknown⟩
  · simp [sortResult, hsrc, hst, Status.okClass, Status.dataClass]
  · simp [sortResult, hsrc, hst, hknown, Status.okClass]

/-- Settles O23: the raw read answers, and each clause is one outcome of sorting its result. -/
theorem readSortsByAddress : Obligations.ReadSortsByAddress := by
  intro s a hroom hnone
  obtain ⟨r, t, -, hread, hmoved, -⟩ := readRaw_spec s
  have hexec : exec (.readAddr a) s = answerResult (.ok (sortResult a r t)) :=
    congrArg answerResult (readFor_unbuffered (pendFind_eq_none hnone) hroom hread)
  have hknown : regKnown r.src t = regKnown r.src s := regKnown_congr hmoved.cfg hmoved.reg _
  refine ⟨r, t, hread, hmoved, ?_⟩
  rw [← hmoved.cfg, ← hmoved.pend, ← hknown, hexec]
  refine ⟨fun hown => ?_, fun hsrc hst => ?_, fun hsrc hst hk => ?_, fun hsrc hst hk => ?_⟩
  · rw [sortResult_returned t hown]; rfl
  · rw [sortResult_dropped hsrc (.inl hst)]; rfl
  · rw [sortResult_buffered hsrc hst hk]; rfl
  · rw [sortResult_dropped hsrc (.inr ⟨hst, hk⟩)]; rfl

/-! ### The registry -/

/-- Registering an address changes nothing: it is the sentinel, is already present, or finds no free slot (41_bus_ops.md R143). -/
def Settled (a : Byte) (s : State) : Prop := a = s.cfg.addrNone ∨ a ∈ s.reg ∨ s.cfg.addrNone ∉ s.reg

theorem registerAddress_of_settled {a : Byte} {s : State} (h : Settled a s) : registerAddress a s = s := by
  rcases registerAddress_cases a s with ⟨hsame, -⟩ | ⟨hnone, hnew, i, -, hfree, -⟩
  · exact hsame
  · exact (h.elim hnone fun h => h.elim hnew fun hfull => hfull (List.mem_of_getElem? hfree)).elim

/-- Registering leaves nothing to do for a second registration of the same address (41_bus_ops.md R144). -/
theorem settled_registerAddress (a : Byte) (s : State) : Settled a (registerAddress a s) := by
  rcases registerAddress_cases a s with ⟨hsame, hsettled⟩ | ⟨-, -, i, hi, -, hset⟩
  · rw [hsame]; exact hsettled
  · rw [hset]; exact .inr (.inl (List.mem_set hi a))

/-- A new address goes to the lowest free slot (41_bus_ops.md R143). -/
theorem registerAddress_append {a : Byte} {s : State} {before after : List Byte} (hnone : a ≠ s.cfg.addrNone) (hnew : a ∉ s.reg)
    (hreg : s.reg = before ++ s.cfg.addrNone :: after) (hbefore : s.cfg.addrNone ∉ before) :
    registerAddress a s = { s with reg := before ++ a :: after } := by
  have hknown : regKnown a s = false := by simp [regKnown, hnew]
  have htaken : before.findIdx? (· == s.cfg.addrNone) = none := by
    simpa [List.findIdx?_eq_none_iff] using fun x hx => ne_of_mem_of_not_mem hx hbefore
  have hfree : regFree s = some before.length := by
    simp [regFree, hreg, List.findIdx?_append, List.findIdx?_cons, htaken]
  have hset : s.reg.set before.length a = before ++ a :: after := by simp [hreg]
  simp [registerAddress, hnone, hknown, hfree, hset]

/-- Settles O32: nothing is left to do, or the lowest free slot is taken. -/
theorem exec_regAddr : Obligations.RegisterAddress := fun _ _ =>
  ⟨fun hsettled => congrArg answerDone (registerAddress_of_settled hsettled),
    fun _ _ hnone hnew hreg hbefore => congrArg answerDone (registerAddress_append hnone hnew hreg hbefore)⟩

/-- Registering takes at most one slot for the address, and none where one has it (41_bus_ops.md R144). -/
theorem registerAddress_count_le (a : Byte) (s : State) : (registerAddress a s).reg.count a ≤ max 1 (s.reg.count a) := by
  rcases registerAddress_cases a s with ⟨hsame, -⟩ | ⟨-, hnew, i, hi, -, hset⟩
  · rw [hsame]; exact le_max_right _ _
  · rw [hset]
    simp [List.count_set hi, List.count_eq_zero_of_not_mem hnew]

@[simp] theorem registerAddress_reg_length (a : Byte) (s : State) : (registerAddress a s).reg.length = s.reg.length := by
  rcases registerAddress_cases a s with ⟨hsame, -⟩ | ⟨-, -, i, -, -, hset⟩
  · rw [hsame]
  · simp [hset]

/-- What was known stays known (41_bus_ops.md R144). -/
theorem regKnown_registerAddress_of_known {a : Byte} {s : State} (h : regKnown a s = true) :
    regKnown a (registerAddress a s) = true := by
  obtain ⟨hnone, hmem⟩ := (regKnown_iff a s).mp h
  exact regKnown_registerAddress_self hnone (.inl hmem)

/-- Settles O33: the first registration leaves nothing to do for the second. -/
theorem registerTwice : Obligations.RegisterTwice := by
  intro s a
  have hsettled : Settled a ((registerAddress a s).respond [0x00]) := settled_registerAddress a s
  exact ⟨_, rfl, congrArg answerDone (registerAddress_of_settled hsettled), regKnown_registerAddress_of_known,
    registerAddress_reg_length a s, registerAddress_count_le a s⟩

/-- Settles O34, case by case of the body. -/
theorem exec_unregAddr : Obligations.UnregisterAddress := by
  refine fun s a => ⟨fun hnone => congrArg answerDone ?_, fun hnone => congrArg answerDone ?_⟩
  · simp [unregisterAddress, hnone]
  · simp [unregisterAddress, hnone]

/-- IS_KNOWN answers what `RegKnown` says (41_bus_ops.md R148). -/
theorem exec_isKnown (a : Byte) (s : State) : exec (.isKnown a) s = .next (s.respond [if regKnown a s then 0x01 else 0x00]) := rfl

/-- Settles O35: the rules of `RegKnown` after registering and unregistering, seen through IS_KNOWN. -/
theorem knownAfterRegistering : Obligations.KnownAfterRegistering := by
  refine fun s a => ⟨?_, fun hnone hroom => ⟨_, rfl, ?_, fun b hb => ?_⟩, _, rfl, ?_, fun b hb => ?_⟩
  · simp only [exec_isKnown, regKnown_iff]
  · have hknown : regKnown a ((registerAddress a s).respond [0x00]) = true := regKnown_registerAddress_self hnone hroom
    rw [exec_isKnown, hknown]; rfl
  · exact regKnown_registerAddress_other hb
  · have hknown : regKnown a ((unregisterAddress a s).respond [0x00]) = false := regKnown_unregisterAddress_self
    rw [exec_isKnown, hknown]; rfl
  · exact regKnown_unregisterAddress_other hb

end Sys2Proof.Machine

/-! The bus engine's writes: operand checks, drain, arbitration, transmission and echo readback (41_bus_ops.md R132 to R142). -/

namespace Sys2Proof.Machine

/-! ### The operand checks -/

/-- A write of any mode is its operand checks and then the write itself (41_bus_ops.md R132). -/
theorem exec_writeOp (mode : WriteMode) (a : Byte) (cmd data : List Byte) (s : State) :
    exec (writeOp mode a cmd data) s = unlessRefused (writeRefusal s.cfg a cmd data) s (answerResult (busWrite mode a cmd data s)) := by
  cases mode <;> rfl

/-- The check for reason 0x06 (41_bus_ops.md R132). -/
theorem writeLengthCheck_iff (compound cmd data : List Byte) :
    (!isCommandLength cmd.length || cmdLen compound (cmd ++ data) != cmd.length) = true ↔
      ¬ (cmd.length = 1 ∨ cmd.length = 2 ∨ cmd.length = 4) ∨ cmdLen compound (cmd ++ data) ≠ cmd.length := by
  rw [Bool.or_eq_true, bne_iff_ne, Bool.not_eq_true', ← Bool.not_eq_true]
  simp only [isCommandLength, Bool.or_eq_true, beq_iff_eq, or_assoc]

theorem startsWithMarker_iff (cmd : List Byte) :
    startsWithMarker cmd = true ↔ cmd.head? = some 0xFB#8 ∨ cmd.head? = some 0xFA#8 := by
  rw [← not_iff_not, Bool.not_eq_true, startsWithMarker_eq_false, not_or]

/-- The check for reason 0x08 (41_bus_ops.md R132). -/
theorem writeFramingCheck_iff (a : Byte) (cmd data : List Byte) :
    (isFraming a || cmd.any isFraming || data.any isFraming || startsWithMarker cmd) = true ↔
      (∃ b ∈ a :: (cmd ++ data), b = 0xFE#8 ∨ b = 0xFD#8) ∨ cmd.head? = some 0xFB#8 ∨ cmd.head? = some 0xFA#8 := by
  rw [Bool.or_assoc (isFraming a), ← List.any_append, ← List.any_cons, Bool.or_eq_true, List.any_eq_true, startsWithMarker_iff]
  simp only [isFraming, startByte, stopByte, Bool.or_eq_true, beq_iff_eq]

/-- The reasons of a refused write, the lowest first (41_bus_ops.md R132). -/
theorem writeRefusal_eq (cfg : Config) (a : Byte) (cmd data : List Byte) :
    writeRefusal cfg a cmd data =
      if ¬ (cmd.length = 1 ∨ cmd.length = 2 ∨ cmd.length = 4) ∨ cmdLen cfg.compound (cmd ++ data) ≠ cmd.length then
        some .commandLength
      else if 9 < data.length then some .dataLength
      else if (∃ b ∈ a :: (cmd ++ data), b = 0xFE#8 ∨ b = 0xFD#8) ∨ cmd.head? = some 0xFB#8 ∨ cmd.head? = some 0xFA#8 then
        some .framingByte
      else if a = cfg.addrNone then some .reservedAddress
      else none := by
  simp only [writeRefusal, firstReason, writeLengthCheck_iff, writeFramingCheck_iff, decide_eq_true_eq, beq_iff_eq, maxData]

/-- The operands of an accepted write, clause by clause (41_bus_ops.md R132). -/
theorem writeAccepted_iff (cfg : Config) (a : Byte) (cmd data : List Byte) : WriteAccepted cfg a cmd data ↔
    ¬ (¬ (cmd.length = 1 ∨ cmd.length = 2 ∨ cmd.length = 4) ∨ cmdLen cfg.compound (cmd ++ data) ≠ cmd.length)
      ∧ ¬ 9 < data.length
      ∧ ¬ ((∃ b ∈ a :: (cmd ++ data), b = 0xFE#8 ∨ b = 0xFD#8) ∨ cmd.head? = some 0xFB#8 ∨ cmd.head? = some 0xFA#8)
      ∧ a ≠ cfg.addrNone := by
  rw [WriteAccepted, wireValid_iff, isFraming_eq_false]
  simp only [List.mem_cons, not_or, not_exists, not_and, not_lt, ne_eq, not_not, forall_eq_or_imp]
  grind

/-- The operands of an accepted write pass every check. -/
theorem writeRefusal_of_accepted {cfg : Config} {a : Byte} {cmd data : List Byte} (h : WriteAccepted cfg a cmd data) :
    writeRefusal cfg a cmd data = none := by
  obtain ⟨hlength, hdata, hframing, hnone⟩ := (writeAccepted_iff cfg a cmd data).mp h
  rw [writeRefusal_eq, if_neg hlength, if_neg hdata, if_neg hframing, if_neg hnone]

/-- Settles O24: the checks are a chain of tests, and the answer names the first that applies. -/
theorem writeRefusals : Obligations.WriteRefusals := by
  intro mode a cmd data s
  dsimp only
  rw [exec_writeOp, writeRefusal_eq]
  refine ⟨fun hlength => ?_, fun hlength hdata => ?_, fun hlength hdata hframing => ?_, fun hlength hdata hframing hnone => ?_,
    (writeAccepted_iff s.cfg a cmd data).symm⟩
  · rw [if_pos hlength]; rfl
  · rw [if_neg hlength, if_pos hdata]; rfl
  · rw [if_neg hlength, if_neg hdata, if_pos hframing]; rfl
  · rw [if_neg hlength, if_neg hdata, if_neg hframing, if_pos hnone]; rfl

/-! ### The result and the transmission -/

/-- An accepted write answers the result of its write (41_bus_ops.md R137). -/
theorem exec_writeOp_of_accepted {mode : WriteMode} {a : Byte} {cmd data : List Byte} {s t : State} {status : Status}
    (h : WriteAccepted s.cfg a cmd data) (hrun : busWrite mode a cmd data s = .ok (writeResult s.cfg status cmd, t)) :
    exec (writeOp mode a cmd data) s = .next (t.respond (encodeResult ⟨status, s.cfg.addrNone, cmd, [], 0⟩)) := by
  rw [exec_writeOp, writeRefusal_of_accepted h, hrun]
  rfl

/-- The bytes of a write: the wake preamble in PowerOn mode, then the frame (41_bus_ops.md R135). -/
theorem txBytes_eq (cfg : Config) (mode : WriteMode) (a : Byte) (cmd data : List Byte) : txBytes cfg mode a cmd data =
    (if mode = .powerOn then List.replicate cfg.wakePreambleLen 0xFE#8 else [])
      ++ ([0xFE, 0xFE, a, cfg.addrMaster] ++ cmd ++ data ++ [0xFD]) := by
  cases mode <;> rfl

/-- Settles O25, from what a write can do. -/
theorem writeResults : Obligations.WriteResults := by
  intro mode a cmd data s haccepted
  obtain ⟨status, t, hrun, hmoved, hgrew, -, -, hsent⟩ := busWrite_spec mode a cmd data s
  refine ⟨status, t, exec_writeOp_of_accepted haccepted hrun, hmoved, ?_, ?_⟩
  · rcases hgrew with hsame | ⟨r, hpend, hroom, hdata, -, hknown⟩
    · exact .inl hsame
    · exact .inr ⟨r, hpend, hroom, hdata, hknown⟩
  · rwa [txBytes_eq] at hsent

/-! ### The write after its drain -/

theorem drain_cfg {s d : State} (h : drain s = .ok d) : d.cfg = s.cfg := by
  obtain ⟨d', -, hrun, hmoved, -⟩ := drain_spec s
  obtain rfl : d' = d := Except.ok.inj (hrun.symm.trans h)
  exact hmoved.cfg

/-- The drain leaves the transmit log alone (41_bus_ops.md R133). -/
theorem drain_tx {s d : State} (h : drain s = .ok d) : d.tx = s.tx := by
  obtain ⟨d', -, hrun, -, htx, -⟩ := drain_spec s
  obtain rfl : d' = d := Except.ok.inj (hrun.symm.trans h)
  exact htx

/-- With the pending buffer full, the drain only looks (41_bus_ops.md R133). -/
theorem drain_full {s : State} (h : s.pend.length = s.cfg.pendingCap) : drain s = .ok (busAct s) := by
  simp [drain, pendRoom, h]

/-- Bytes waiting at the arbitration check: BUS_BUSY, and nothing is transmitted (41_bus_ops.md R134, R142). -/
theorem busWrite_busy {s d : State} (mode : WriteMode) (a : Byte) (cmd data : List Byte) (hd : drain s = .ok d)
    (hrx : (busAct d).rx ≠ []) : busWrite mode a cmd data s = .ok (writeResult s.cfg .busBusy cmd, busAct d) := by
  simp only [busWrite, hd, rxCount_eq, List.length_pos_iff.mpr hrx, if_true, busAct_cfg, drain_cfg hd]

/-- No bytes waiting at the arbitration check: a Fast write ends with its transmission (41_bus_ops.md R135, R138). -/
theorem busWrite_fast {s d : State} (a : Byte) (cmd data : List Byte) (hd : drain s = .ok d) (hrx : (busAct d).rx = []) :
    busWrite .fast a cmd data s =
      .ok (writeResult s.cfg .ok cmd, transmit (txBytes s.cfg .fast a cmd data) (busAct d)) := by
  have hcfg : (transmit (txBytes s.cfg .fast a cmd data) (busAct d)).cfg = s.cfg :=
    (transmit_spec _ _).1.cfg.trans ((busAct_cfg d).trans (drain_cfg hd))
  simp only [busWrite, hd, rxCount_eq, hrx, List.length_nil, lt_self_iff_false, if_false, busAct_cfg, drain_cfg hd, hcfg]

/-- No bytes waiting at the arbitration check: a verified write answers what its echo readback finds (41_bus_ops.md R136, R139, R140). -/
theorem busWrite_verify {mode : WriteMode} {s d t : State} {a : Byte} {cmd data : List Byte} {status : Status} (hmode : mode ≠ .fast)
    (hd : drain s = .ok d) (hrx : (busAct d).rx = [])
    (hecho : echoVerify (txBytes s.cfg mode a cmd data) (transmit (txBytes s.cfg mode a cmd data) (busAct d)) = .ok (status, t)) :
    busWrite mode a cmd data s = .ok (writeResult s.cfg status cmd, t) := by
  obtain ⟨status', t', -, hrun, hmoved, -⟩ :=
    echoVerify_spec (txBytes s.cfg mode a cmd data) (transmit (txBytes s.cfg mode a cmd data) (busAct d))
  obtain ⟨rfl, rfl⟩ : status' = status ∧ t' = t := by simpa [hrun] using hecho
  have hcfg : t'.cfg = s.cfg := hmoved.cfg.trans ((transmit_spec _ _).1.cfg.trans ((busAct_cfg d).trans (drain_cfg hd)))
  cases mode with
  | fast => exact absurd rfl hmode
  | checked =>
    simp only [busWrite, hd, rxCount_eq, hrx, List.length_nil, lt_self_iff_false, if_false, busAct_cfg, drain_cfg hd, hecho, hcfg]
  | powerOn =>
    simp only [busWrite, hd, rxCount_eq, hrx, List.length_nil, lt_self_iff_false, if_false, busAct_cfg, drain_cfg hd, hecho, hcfg]

/-- Settles O26: with the buffer full the drain is one look at the bus, which takes no byte away. -/
theorem writeBusBusy : Obligations.WriteBusBusy := by
  intro mode a cmd data s haccepted
  refine ⟨fun d hd hrx => ?_, fun hfull hrx => ?_⟩
  · exact ⟨exec_writeOp_of_accepted haccepted (busWrite_busy mode a cmd data hd hrx), (busAct_tx d).trans (drain_tx hd)⟩
  · have hwaiting := busAct_rx_ne_nil (busAct_rx_ne_nil hrx)
    exact ⟨_, exec_writeOp_of_accepted haccepted (busWrite_busy mode a cmd data (drain_full hfull) hwaiting),
      (onlyBusMoved_busAct s).trans (onlyBusMoved_busAct _), by simp, by simp⟩

/-- Nothing waits and nothing is to come. -/
theorem stream_eq_nil {s : State} (hrx : s.rx = []) (h : NothingArrives s) : stream s = [] := by
  rw [stream, hrx, h]; rfl

/-- Settles O27, by the Fast write with no byte to come. -/
theorem fastWriteOnQuietBus : Obligations.FastWriteOnQuietBus := by
  intro a cmd data s haccepted hrx hquiet
  obtain ⟨t, hrun, hmoved, hpend, hpolls, htx, htrx, hna⟩ :=
    busWrite_fast_quiet (a := a) (cmd := cmd) (data := data) (stream_eq_nil hrx hquiet)
  exact ⟨t, exec_writeOp_of_accepted (mode := .fast) haccepted hrun, hmoved, hpend, hpolls, htx, htrx, hna⟩

end Sys2Proof.Machine

/-! The verified writes: what the echo readback finds of the bytes that the bus brings (41_bus_ops.md R136, R139, R140; 92_eei_decisions.md
D43). -/

namespace Sys2Proof.Machine

/-! ### The echo readback -/

/-- How a readback of the bytes `tx` from s ends in t: it has taken `got`, a first part of the stream, and answers by comparing it with `tx`;
if it is too short, the readback has waited its whole window, two primitive boundaries for each poll tick and one for the last look
(41_bus_ops.md R136). -/
structure ReadBack (tx : List Byte) (s : State) (status : Status) (got : List Byte) (t : State) : Prop where
  moved : OnlyBusMoved s t
  consumed : stream s = got ++ stream t
  length : got.length ≤ tx.length
  status : status = if got.length < tx.length then .hardwareFault else if got = tx then .ok else .busConflict
  window : got.length < tx.length → t.rx = [] ∧ t.polls = s.polls + s.cfg.echoPollLimit
    ∧ ∃ m, 2 * s.cfg.echoPollLimit + 1 ≤ m ∧ t.arrivals = s.arrivals.drop m
  pollsLe : s.polls ≤ t.polls
  polls : t.polls ≤ s.polls + s.cfg.echoPollLimit

/-- The readback's answer, read off the bytes it has taken (41_bus_ops.md R136). -/
theorem EchoAnswer.status_eq {tx got : List Byte} {status : Status} (h : EchoAnswer tx got status) : got.length ≤ tx.length
    ∧ status = if got.length < tx.length then .hardwareFault else if got = tx then .ok else .busConflict := by
  rcases h with ⟨rfl, rfl⟩ | ⟨rfl, hlength, hne⟩ | ⟨rfl, hshort⟩
  · simp
  · simp [hlength, hne]
  · simp [hshort, hshort.le]

/-- Every readback ends so. -/
theorem echoVerify_readBack (tx : List Byte) (s : State) :
    ∃ status got t, echoVerify tx s = .ok (status, t) ∧ ReadBack tx s status got t := by
  obtain ⟨status, t, got, hrun, hmoved, hstream, hlo, hhi, hans, hfault⟩ := echoVerify_spec tx s
  obtain ⟨hlength, hstatus⟩ := hans.status_eq
  refine ⟨status, got, t, hrun, hmoved, hstream, hlength, hstatus, fun hshort => ?_, hlo, hhi⟩
  obtain rfl : status = .hardwareFault := by rw [hstatus, if_pos hshort]
  obtain ⟨hrx, hpolls⟩ := hfault rfl
  exact ⟨hrx, hpolls, echoLoop_boundaries hrun⟩

/-- A readback that is too short has taken all that arrived within its window. -/
theorem ReadBack.got_of_short {tx got : List Byte} {s t : State} {status : Status} (h : ReadBack tx s status got t)
    (hshort : got.length < tx.length) : ∃ m, 2 * s.cfg.echoPollLimit + 1 ≤ m ∧ got = s.rx ++ arrivingWithin m s := by
  obtain ⟨hrx, -, m, hm, harrivals⟩ := h.window hshort
  refine ⟨m, hm, ?_⟩
  have hstream := h.consumed
  rw [stream, stream, hrx, harrivals, arrivals_flatten_eq m s, List.nil_append, ← List.append_assoc] at hstream
  exact (List.append_cancel_right hstream).symm

/-- The longer the wait, the more arrives. -/
theorem arrivingWithin_length_mono (s : State) {m n : Nat} (h : m ≤ n) : (arrivingWithin m s).length ≤ (arrivingWithin n s).length := by
  obtain ⟨d, rfl⟩ := Nat.exists_eq_add_of_le h
  rw [arrivingWithin_add m d s { s with arrivals := s.arrivals.drop m } rfl, List.length_append]
  exact Nat.le_add_right _ _

/-- The readback takes as many bytes as were sent if as many wait or arrive within its window (41_bus_ops.md R136). -/
theorem ReadBack.length_eq {tx got : List Byte} {s t : State} {status : Status} (h : ReadBack tx s status got t)
    (harrive : tx.length ≤ (s.rx ++ arrivingWithin (2 * s.cfg.echoPollLimit + 1) s).length) : got.length = tx.length := by
  refine le_antisymm h.length (not_lt.mp fun hshort => ?_)
  obtain ⟨m, hm, rfl⟩ := h.got_of_short hshort
  have hmono := arrivingWithin_length_mono s hm
  simp only [List.length_append] at harrive hshort
  omega

/-! ### Bytes that come all at once -/

/-- What arrives within m boundaries, where the n-th after now is the only one that brings bytes. -/
theorem arrivingWithin_burst {s : State} {n : Nat} {bytes : List Byte} (h : s.arrivals = List.replicate n [] ++ [bytes]) (m : Nat) :
    arrivingWithin m s = if m ≤ n then [] else bytes := by
  rw [arrivingWithin, h]
  split
  · rename_i hm
    simp [List.take_append_of_le_length, hm]
  · rename_i hm
    rw [List.take_of_length_le (by simp; omega)]
    simp

/-- One look at the bus decides how the readback goes on: where two states give the same look, it goes on the same. -/
theorem echoLoop_of_rxCount_eq {s u : State} (h : rxCount s = rxCount u) (fuel : Nat) (tx got : List Byte) (ticks : Nat) :
    echoLoop (fuel + 1) tx got ticks s = echoLoop (fuel + 1) tx got ticks u := by
  simp only [echoLoop, h]

/-- A readback during whose window nothing arrives takes nothing. -/
theorem echoVerify_silent {tx : List Byte} {s : State} (htx : 0 < tx.length) (hrx : s.rx = [])
    (ha : arrivingWithin (2 * s.cfg.echoPollLimit + 1) s = []) :
    ∃ t, echoVerify tx s = .ok (.hardwareFault, t) ∧ stream t = stream s := by
  obtain ⟨u, hrun, hmoved, hurx, huarr, -⟩ :=
    echoLoop_wait (got := []) htx (tx.length + 1) s.cfg.echoPollLimit 0 s hrx (arrivingWithin_nil_of_le ha (by omega)) (by omega)
  rw [arrivingWithin_add _ 1 s u huarr] at ha
  have hlook : (busAct u).rx = [] := by rw [busAct_rx, hurx, (List.append_eq_nil_iff.mp ha).2]; rfl
  have hstream : stream u = stream s := by
    rw [stream, stream, hurx, hrx, huarr, arrivals_flatten_eq (2 * s.cfg.echoPollLimit) s, (List.append_eq_nil_iff.mp ha).1]; rfl
  refine ⟨busAct u, ?_, (stream_busAct u).trans hstream⟩
  rw [echoVerify, Nat.add_right_comm, hrun]
  simp [echoLoop, hlook, htx.ne, hmoved.cfg]

/-- Bytes that come all during the k-th poll tick of the readback, as many as were sent or more, end it after k poll ticks. -/
theorem echoVerify_burst {tx bytes : List Byte} {s : State} {k : Nat} (htx : 0 < tx.length) (hrx : s.rx = [])
    (ha : s.arrivals = List.replicate (2 * k) [] ++ [bytes]) (hk : k ≤ s.cfg.echoPollLimit) (hlength : tx.length ≤ bytes.length) :
    ∃ status t, echoVerify tx s = .ok (status, t) ∧ t.polls = s.polls + k ∧ NothingArrives t := by
  obtain ⟨u, hwait, -, hurx, huarr, hupolls⟩ := echoLoop_wait (got := []) htx (tx.length + (s.cfg.echoPollLimit - k) + 1) k 0 s hrx
    (by rw [arrivingWithin_burst ha, if_pos le_rfl]) (by omega)
  replace huarr : u.arrivals = [bytes] := by rw [huarr, ha, List.drop_left' (by simp)]
  have hlook : (busAct u).rx = bytes ∧ (busAct u).arrivals = [] := by simp [busAct, huarr, hurx]
  have hsame : rxCount u = rxCount (busAct u) := by
    have : busAct (busAct u) = busAct u := by rw [busAct, hlook.2]
    rw [rxCount_eq, rxCount_eq, this]
  obtain ⟨t, hread, -, htpolls, -⟩ := echoLoop_enough (tx := tx) tx.length [] (tx.length + (s.cfg.echoPollLimit - k) + 1) (0 + k)
    (busAct u) (Nat.zero_add _) (by rw [hlook.1]; exact hlength) (by omega)
  have hleft : toArrive t ≤ 0 := (waitsGrew_echoLoop hread).1.trans_eq (by rw [toArrive, hlook.2]; rfl)
  rw [← echoLoop_of_rxCount_eq hsame, ← hwait,
    show tx.length + (s.cfg.echoPollLimit - k) + 1 + k = tx.length + s.cfg.echoPollLimit + 1 from by omega] at hread
  exact ⟨_, t, hread, by rw [htpolls, busAct_polls, hupolls], List.eq_nil_of_length_eq_zero (Nat.le_zero.mp hleft)⟩

/-- Bytes that come all during the k-th poll tick of the readback, k within its limit, are read (41_bus_ops.md R136). -/
theorem ReadBack.of_burst_inTime {tx got bytes : List Byte} {s t : State} {status : Status} {k : Nat} (h : ReadBack tx s status got t)
    (hrun : echoVerify tx s = .ok (status, t)) (htx : 0 < tx.length) (hrx : s.rx = [])
    (ha : s.arrivals = List.replicate (2 * k) [] ++ [bytes]) (hk : k ≤ s.cfg.echoPollLimit) :
    got = bytes.take tx.length ∧ t.rx = bytes.drop tx.length ∧ NothingArrives t
      ∧ t.polls = s.polls + (if bytes.length < tx.length then s.cfg.echoPollLimit else k) := by
  have hall : ∀ m, 2 * s.cfg.echoPollLimit + 1 ≤ m → s.rx ++ arrivingWithin m s = bytes := fun m hm => by
    rw [arrivingWithin_burst ha, if_neg (by omega), hrx, List.nil_append]
  have hstream : bytes = got ++ stream t := by
    rw [← h.consumed, stream, hrx, ha]; simp
  by_cases hfew : bytes.length < tx.length
  · have hshort : got.length < tx.length := by
      have := congrArg List.length hstream
      rw [List.length_append] at this
      omega
    obtain ⟨m, hm, hgot⟩ := h.got_of_short hshort
    rw [hall m hm] at hgot
    obtain ⟨htrx, hpolls, -⟩ := h.window hshort
    obtain ⟨-, hna⟩ := rx_nil_of_stream (List.self_eq_append_right.mp (hgot ▸ hstream))
    exact ⟨by rw [hgot, List.take_of_length_le hfew.le], by rw [htrx, List.drop_of_length_le hfew.le], hna, by rw [hpolls, if_pos hfew]⟩
  · obtain ⟨status', t', hrun', hpolls, hna⟩ := echoVerify_burst htx hrx ha hk (not_lt.mp hfew)
    obtain ⟨-, rfl⟩ : status' = status ∧ t' = t := by simpa [hrun'] using hrun
    have hlength : got.length = tx.length := h.length_eq (by rw [hall _ le_rfl]; exact not_lt.mp hfew)
    rw [stream, hna, List.append_nil] at hstream
    exact ⟨by rw [hstream, List.take_left' hlength], by rw [hstream, List.drop_left' hlength], hna, by rw [hpolls, if_neg hfew]⟩

/-- Bytes that come all during a later poll tick than the readback's last are not read (41_bus_ops.md R136). -/
theorem ReadBack.of_burst_tooLate {tx got bytes : List Byte} {s t : State} {status : Status} {k : Nat} (h : ReadBack tx s status got t)
    (hrun : echoVerify tx s = .ok (status, t)) (htx : 0 < tx.length) (hrx : s.rx = [])
    (ha : s.arrivals = List.replicate (2 * k) [] ++ [bytes]) (hk : s.cfg.echoPollLimit < k) : got = [] := by
  obtain ⟨t', hrun', hstream⟩ := echoVerify_silent htx hrx (by rw [arrivingWithin_burst ha, if_pos (by omega)])
  obtain ⟨-, rfl⟩ : Status.hardwareFault = status ∧ t' = t := by simpa [hrun'] using hrun
  exact List.self_eq_append_left.mp (hstream.trans h.consumed)

/-! ### The verified write -/

/-- Where a verified write of the bytes stands when its readback begins, if its drain and its arbitration find nothing waiting: each of the
two has looked at the bus once (41_bus_ops.md R133 to R135). -/
def afterSending (bytes : List Byte) (s : State) : State := transmit bytes (busAct (busAct s))

theorem afterSending_spec (bytes : List Byte) (s : State) :
    OnlyEngineMoved s (afterSending bytes s) ∧ (afterSending bytes s).pend = s.pend ∧ (afterSending bytes s).polls = s.polls
      ∧ (afterSending bytes s).tx = s.tx ++ transmission bytes := by
  obtain ⟨hmoved, hpend, hpolls, htx⟩ := transmit_spec bytes (busAct (busAct s))
  refine ⟨((onlyBusMoved_busAct s).trans (onlyBusMoved_busAct _)).toEngine.trans hmoved, hpend.trans ?_, hpolls.trans ?_, htx.trans ?_⟩
  · simp
  · simp
  · simp

theorem afterSending_arrivals (bytes : List Byte) (s : State) :
    (afterSending bytes s).arrivals = s.arrivals.drop (bytes.length + 3) := by
  rw [afterSending, transmit_arrivals, busAct_arrivals, busAct_arrivals, List.drop_drop, List.drop_drop]
  congr 1
  omega

/-- Without an echo at once, the sending consumes no byte and adds none. -/
theorem stream_afterSending {bytes : List Byte} {s : State} (hl : s.loopback = false) : stream (afterSending bytes s) = stream s := by
  rw [afterSending, transmit_stream (by simpa using hl), stream_busAct, stream_busAct]

/-- What waits after the sending is what has arrived by then, and the n boundaries behind it bring what comes next. -/
theorem afterSending_window {bytes : List Byte} {s : State} (hrx : s.rx = []) (hl : s.loopback = false) (n : Nat) :
    (afterSending bytes s).rx ++ arrivingWithin n (afterSending bytes s) = arrivingWithin (bytes.length + 3 + n) s := by
  have hstream := stream_afterSending (bytes := bytes) hl
  rw [stream, stream, hrx, List.nil_append, afterSending_arrivals, arrivals_flatten_eq (bytes.length + 3) s] at hstream
  rw [arrivingWithin_add _ n s _ (afterSending_arrivals bytes s), List.append_cancel_right hstream]

/-- After the sending on a line that echoes at once, while nothing else arrives, the echo waits (20_memory.md R64). -/
theorem afterSending_rx_of_loopback {bytes : List Byte} {s : State} (hrx : s.rx = []) (hl : s.loopback = true)
    (ha : arrivingWithin (bytes.length + 3) s = []) : (afterSending bytes s).rx = bytes := by
  rw [show bytes.length + 3 = 2 + (bytes.length + 1) from by omega,
    arrivingWithin_add 2 _ s (busAct (busAct s)) (by simp)] at ha
  obtain ⟨hlooks, hsending⟩ := List.append_eq_nil_iff.mp ha
  rw [arrivingWithin_add 1 1 s (busAct s) (by simp)] at hlooks
  have hrx₂ : (busAct (busAct s)).rx = [] := by rw [busAct_rx, busAct_rx, hrx, List.nil_append, hlooks]
  rw [afterSending, transmit_rx_silent hsending, hrx₂, busAct_loopback, busAct_loopback, hl]
  rfl

/-- A readback that finds the whole echo in `RX` takes exactly that, without a poll tick, and answers OK (41_bus_ops.md R136). -/
theorem echoVerify_of_rx {tx : List Byte} {s : State} (hrx : s.rx = tx) :
    ∃ t, echoVerify tx s = .ok (.ok, t) ∧ t.polls = s.polls ∧ stream t = s.arrivals.flatten := by
  obtain ⟨t, hrun, -, hpolls, hstream⟩ := echoLoop_enough (tx := tx) tx.length [] (tx.length + s.cfg.echoPollLimit + 1) 0 s
    (Nat.zero_add _) (by rw [hrx]) (by omega)
  rw [hrx, List.take_length, List.nil_append, if_pos rfl] at hrun
  exact ⟨t, hrun, hpolls, by rw [hstream, stream, hrx, List.drop_left' rfl]⟩

theorem txBytes_length_pos (cfg : Config) (mode : WriteMode) (a : Byte) (cmd data : List Byte) :
    0 < (txBytes cfg mode a cmd data).length := by
  rw [txBytes_eq]
  simp

/-- An accepted verified write that finds nothing waiting answers what its readback finds of the bytes from the sending on
(41_bus_ops.md R136, R137). -/
theorem exec_verified {mode : WriteMode} {a : Byte} {cmd data : List Byte} {s : State} (hmode : mode ≠ .fast)
    (haccepted : WriteAccepted s.cfg a cmd data) (hrx : s.rx = []) (ha : arrivingWithin 2 s = []) :
    ∃ status got t, echoVerify (txBytes s.cfg mode a cmd data) (afterSending (txBytes s.cfg mode a cmd data) s) = .ok (status, t)
      ∧ ReadBack (txBytes s.cfg mode a cmd data) (afterSending (txBytes s.cfg mode a cmd data) s) status got t
      ∧ exec (writeOp mode a cmd data) s = .next (t.respond (encodeResult ⟨status, s.cfg.addrNone, cmd, [], 0⟩))
      ∧ OnlyEngineMoved s t ∧ t.pend = s.pend ∧ t.tx = s.tx ++ transmission (txBytes s.cfg mode a cmd data)
      ∧ s.polls ≤ t.polls ∧ t.polls ≤ s.polls + s.cfg.echoPollLimit := by
  obtain ⟨status, got, t, hrun, hback⟩ :=
    echoVerify_readBack (txBytes s.cfg mode a cmd data) (afterSending (txBytes s.cfg mode a cmd data) s)
  obtain ⟨hmoved, hpend, hpolls, htx⟩ := afterSending_spec (txBytes s.cfg mode a cmd data) s
  have hlo := hback.pollsLe
  have hhi := hback.polls
  rw [hpolls] at hlo hhi
  rw [hmoved.cfg] at hhi
  exact ⟨status, got, t, hrun, hback,
    exec_writeOp_of_accepted haccepted (busWrite_verified hmode hrx ha (hback.moved.cfg.trans hmoved.cfg) hrun),
    hmoved.trans hback.moved.toEngine, hback.moved.pend.trans hpend, hback.moved.tx.trans htx, hlo, hhi⟩

/-- Bytes that come all during the k-th poll tick after the flush come all during the k-th poll tick of the readback. -/
theorem afterSending_burst {sent bytes : List Byte} {s : State} {k : Nat} (hrx : s.rx = []) (hl : s.loopback = false)
    (ha : s.arrivals = List.replicate (sent.length + 3 + 2 * k) [] ++ [bytes]) :
    (afterSending sent s).rx = [] ∧ (afterSending sent s).arrivals = List.replicate (2 * k) [] ++ [bytes] := by
  constructor
  · have h := afterSending_window (bytes := sent) hrx hl 0
    rw [arrivingWithin_burst ha, if_pos (by omega)] at h
    exact (List.append_eq_nil_iff.mp h).1
  · rw [afterSending_arrivals, ha, List.drop_append_of_le_length (by simp), List.drop_replicate, Nat.add_sub_cancel_left]

/-- Settles O29: what the readback finds of the bytes that come, all of them in general, and a burst in particular. -/
theorem echoVerdict : Obligations.EchoVerdict := by
  intro mode a cmd data s hmode haccepted
  rw [← txBytes_eq]
  intro sent limit hrx hl ha
  obtain ⟨status, got, t, hrun, hback, hexec, hmoved, hpend, htx, hlo, hhi⟩ := exec_verified hmode haccepted hrx ha
  have hpos : 0 < sent.length := txBytes_length_pos s.cfg mode a cmd data
  obtain ⟨husent, -, hupolls, -⟩ := afterSending_spec sent s
  have hlimit : (afterSending sent s).cfg.echoPollLimit = limit := by rw [husent.cfg]
  refine ⟨status, got, t, hexec, (stream_afterSending hl).symm.trans hback.consumed, hback.length, hback.status, fun hshort => ?_, hlo,
    hhi, hmoved, hpend, htx, fun harrive => hback.length_eq ?_, fun k bytes hburst => ?_⟩
  · obtain ⟨htrx, hpolls, -⟩ := hback.window hshort
    exact ⟨htrx, by rw [hpolls, hupolls, hlimit]⟩
  · rwa [afterSending_window hrx hl, hlimit, show sent.length + 3 + (2 * limit + 1) = sent.length + 4 + 2 * limit from by omega]
  · obtain ⟨hurx, huarr⟩ := afterSending_burst hrx hl hburst
    rw [← hlimit, ← hupolls]
    exact ⟨hback.of_burst_inTime hrun hpos hurx huarr, hback.of_burst_tooLate hrun hpos hurx huarr⟩

/-- A healthy echo of at least one byte leaves the two looks before the sending with nothing (92_eei_decisions.md D43). -/
theorem HealthyEcho.arrivingWithin_two {sent : List Byte} {n : Nat} {s : State} (h : HealthyEcho sent n s) (hsent : 0 < sent.length) :
    arrivingWithin 2 s = [] := by
  rcases h with ⟨-, hquiet⟩ | ⟨-, hecho, hlate⟩
  · exact arrivingWithin_nil_of_le hquiet (by omega)
  · have hn := hlate n le_rfl
    rw [hecho] at hn
    exact List.eq_nil_of_length_eq_zero (Nat.le_zero.mp (hlate 2 (by omega)))

/-- A late echo that is whole within the readback's window is all that the readback takes (41_bus_ops.md R136). -/
theorem ReadBack.of_late_echo {sent got : List Byte} {s t : State} {status : Status} {n : Nat}
    (h : ReadBack sent (afterSending sent s) status got t) (hrx : s.rx = []) (hl : s.loopback = false)
    (hecho : arrivingWithin n s = sent) (hn : n ≤ sent.length + 4 + 2 * s.cfg.echoPollLimit) : got = sent ∧ status = .ok := by
  have hcfg := (afterSending_spec sent s).1.cfg
  have hlength : got.length = sent.length := h.length_eq <| by
    rw [afterSending_window hrx hl, hcfg]
    exact (congrArg List.length hecho).symm.le.trans (arrivingWithin_length_mono s (by omega))
  have hgot : got ++ stream t = sent ++ (s.arrivals.drop n).flatten := by
    rw [← h.consumed, stream_afterSending hl, stream, hrx, List.nil_append, arrivals_flatten_eq n s, hecho]
  obtain rfl : got = sent := List.append_inj_left hgot hlength
  exact ⟨rfl, by rw [h.status, if_neg (lt_irrefl _), if_pos rfl]⟩

/-- Settles O28: an echo at once waits when the readback begins, and a late one arrives within its window. -/
theorem verifiedWriteOnEchoingBus : Obligations.VerifiedWriteOnEchoingBus := by
  intro mode a cmd data s n hmode haccepted
  rw [← txBytes_eq]
  intro sent hrx hhealthy hn
  have ha := hhealthy.arrivingWithin_two (txBytes_length_pos s.cfg mode a cmd data)
  obtain ⟨status, got, t, hrun, hback, hexec, hmoved, hpend, htx, hlo, hhi⟩ := exec_verified hmode haccepted hrx ha
  rcases hhealthy with ⟨hl, hquiet⟩ | ⟨hl, hecho, -⟩
  · obtain ⟨t', hrun', hpolls, hstream⟩ := echoVerify_of_rx (afterSending_rx_of_loopback hrx hl hquiet)
    obtain ⟨rfl, rfl⟩ : Status.ok = status ∧ t' = t := by simpa [sent, hrun] using hrun'.symm
    have hkept : stream t' = stream s := by
      rw [hstream, afterSending_arrivals, stream, hrx, arrivals_flatten_eq (sent.length + 3) s, hquiet]; rfl
    obtain ⟨-, -, hupolls, -⟩ := afterSending_spec sent s
    refine ⟨t', hexec, hmoved, hpend, htx, hlo, hhi, fun _ => ⟨hpolls.trans hupolls, hkept⟩, ?_, fun ⟨hna, _⟩ => ?_⟩
    · simp [hl]
    · exact rx_nil_of_stream (hkept.trans (stream_eq_nil hrx hna))
  · obtain ⟨rfl, rfl⟩ := hback.of_late_echo hrx hl hecho hn
    refine ⟨t, hexec, hmoved, hpend, htx, hlo, hhi, ?_, fun _ => (stream_afterSending hl).symm.trans hback.consumed, ?_⟩
    · simp [hl]
    · simp [EchoesAtOnce, hl]

end Sys2Proof.Machine

/-! The pre-write drain of one message, and the write behind it, where nothing arrives beyond what waits (41_bus_ops.md R133,
70_reset_and_hazards.md R231). -/

namespace Sys2Proof.Machine

/-! ### The write on a bus that its drain has left empty -/

/-- The status of a write on a bus that brings nothing but the echo at once, if the line has one: only a verified write misses an echo
(41_bus_ops.md R137). -/
def echoStatus (mode : WriteMode) (loopback : Bool) : Status := if mode = .fast ∨ loopback = true then .ok else .hardwareFault

/-- A readback with no byte to come takes its whole window (41_bus_ops.md R136). -/
theorem echoVerify_quiet {tx : List Byte} {s : State} (htx : 0 < tx.length) (hs : stream s = []) :
    ∃ t, echoVerify tx s = .ok (.hardwareFault, t) ∧ OnlyBusMoved s t ∧ stream t = [] ∧ t.polls = s.polls + s.cfg.echoPollLimit := by
  obtain ⟨status, got, t, hrun, hback⟩ := echoVerify_readBack tx s
  obtain ⟨rfl, ht⟩ := List.append_eq_nil_iff.mp (hback.consumed.symm.trans hs)
  obtain ⟨-, hpolls, -⟩ := hback.window htx
  obtain rfl : status = .hardwareFault := hback.status.trans (if_pos htx)
  exact ⟨t, hrun, hback.moved, ht, hpolls⟩

/-- A write whose drain leaves no byte to come goes out (41_bus_ops.md R134 to R140): a Fast write leaves the echo, if the line has one, in
`RX`; a verified write takes it, or waits for it in vain. -/
theorem busWrite_after_drain {mode : WriteMode} {a : Byte} {cmd data : List Byte} {s d : State} (hd : drain s = .ok d)
    (hempty : stream d = []) :
    ∃ t, busWrite mode a cmd data s = .ok (writeResult s.cfg (echoStatus mode d.loopback) cmd, t) ∧ OnlyEngineMoved d t ∧ t.pend = d.pend
      ∧ t.tx = d.tx ++ transmission (txBytes s.cfg mode a cmd data)
      ∧ t.polls = d.polls + (if mode = .fast ∨ d.loopback = true then 0 else s.cfg.echoPollLimit)
      ∧ t.rx = (if mode = .fast ∧ d.loopback = true then txBytes s.cfg mode a cmd data else []) ∧ NothingArrives t := by
  obtain ⟨hrx, hna⟩ := rx_nil_of_stream ((stream_busAct d).trans hempty)
  have htxlen := txBytes_length_pos s.cfg mode a cmd data
  obtain ⟨hsent, hpend, hpolls, htx⟩ := transmit_spec (txBytes s.cfg mode a cmd data) (busAct d)
  obtain ⟨hurx, huna⟩ := transmit_rx (bytes := txBytes s.cfg mode a cmd data) hna
  rw [hrx, List.nil_append, busAct_loopback] at hurx
  rw [busAct_pend] at hpend
  rw [busAct_polls] at hpolls
  rw [busAct_tx] at htx
  replace hsent := (onlyBusMoved_busAct d).toEngine.trans hsent
  have hcfg := hsent.cfg.trans (drain_cfg hd)
  by_cases hmode : mode = .fast
  · subst hmode
    refine ⟨_, busWrite_fast a cmd data hd hrx, hsent, hpend, htx, ?_, ?_, huna⟩
    · simpa using hpolls
    · simpa using hurx
  · cases hl : d.loopback with
    | true =>
      rw [hl] at hurx
      obtain ⟨t, hecho, hmoved, hstream, htpolls⟩ := echoVerify_echo hurx huna
      obtain ⟨htrx, htna⟩ := rx_nil_of_stream hstream
      refine ⟨t, ?_, hsent.trans hmoved.toEngine, hmoved.pend.trans hpend, hmoved.tx.trans htx, ?_, ?_, htna⟩
      · simpa [echoStatus] using busWrite_verify hmode hd hrx hecho
      · simpa [htpolls] using hpolls
      · simpa [hmode] using htrx
    | false =>
      rw [hl] at hurx
      obtain ⟨t, hecho, hmoved, hstream, htpolls⟩ := echoVerify_quiet htxlen (stream_eq_nil hurx huna)
      obtain ⟨htrx, htna⟩ := rx_nil_of_stream hstream
      refine ⟨t, ?_, hsent.trans hmoved.toEngine, hmoved.pend.trans hpend, hmoved.tx.trans htx, ?_, ?_, htna⟩
      · simpa [echoStatus, hmode] using busWrite_verify hmode hd hrx hecho
      · simp [hmode, htpolls, hpolls, hcfg]
      · simpa [hmode] using htrx

/-! ### The drain of what waits -/

/-- What the drain keeps of a raw result: data from a known address (41_bus_ops.md R133). -/
def keptOf (r : ExchangeResult) (s : State) : List ExchangeResult := if r.status = .okWithData ∧ regKnown r.src s = true then [r] else []

/-- The drain of a bus with bytes waiting and room in the buffer is one raw read, whose result is kept or lost (41_bus_ops.md R133). -/
theorem drain_of_readRaw {s t : State} {r : ExchangeResult} (hrx : s.rx ≠ []) (hroom : s.pend.length < s.cfg.pendingCap)
    (hread : readRaw (busAct s) = .ok (r, t)) (hmoved : OnlyBusMoved (busAct s) t) :
    drain s = .ok { t with pend := s.pend ++ keptOf r s } := by
  have hwaiting := List.length_pos_iff.mpr (busAct_rx_ne_nil hrx)
  have hroom' : pendRoom (busAct s) = true := (pendRoom_iff _).mpr (by simpa using hroom)
  have hm := (onlyBusMoved_busAct s).trans hmoved
  have hknown : regKnown r.src t = regKnown r.src s := regKnown_congr hm.cfg hm.reg _
  simp only [drain, rxCount_eq, hwaiting, decide_true, hroom', Bool.and_self, if_true, hread, Status.dataClass, Bool.and_eq_true,
    beq_iff_eq, hknown, keptOf]
  split
  · rw [pendAppend, hm.pend]
  · rw [List.append_nil, ← hm.pend]

/-- What a drain can find in `RX` where nothing else arrives: a raw read of it that empties it, with the result and the poll ticks given. -/
def DrainsTo (s : State) (r : ExchangeResult) (ticks : Nat) : Prop :=
  ∃ t, readRaw (busAct s) = .ok (r, t) ∧ OnlyBusMoved (busAct s) t ∧ stream t = [] ∧ t.polls = s.polls + ticks

/-- A write over what its drain can take whole (41_bus_ops.md R133, R137). -/
theorem exec_writeOp_after_drain {mode : WriteMode} {a : Byte} {cmd data : List Byte} {s : State} {r : ExchangeResult} {ticks : Nat}
    (haccepted : WriteAccepted s.cfg a cmd data) (hrx : s.rx ≠ []) (hroom : s.pend.length < s.cfg.pendingCap) (h : DrainsTo s r ticks) :
    ∃ t, exec (writeOp mode a cmd data) s = .next (t.respond (encodeResult ⟨echoStatus mode s.loopback, s.cfg.addrNone, cmd, [], 0⟩))
      ∧ OnlyEngineMoved s t ∧ t.tx = s.tx ++ transmission (txBytes s.cfg mode a cmd data) ∧ t.pend = s.pend ++ keptOf r s
      ∧ t.polls = s.polls + ticks + (if mode = .fast ∨ s.loopback = true then 0 else s.cfg.echoPollLimit)
      ∧ t.rx = (if mode = .fast ∧ s.loopback = true then txBytes s.cfg mode a cmd data else []) ∧ NothingArrives t := by
  obtain ⟨d, hread, hmoved, hempty, hpolls⟩ := h
  have hm := (onlyBusMoved_busAct s).trans hmoved
  have hkept : OnlyEngineMoved s { d with pend := s.pend ++ keptOf r s } :=
    ⟨hm.cfg, hm.reg, hm.ctrl, hm.loopback, hm.requests, hm.responses⟩
  obtain ⟨t, hrun, hsent, hpend, htx, htpolls, hrx', hna⟩ := busWrite_after_drain (mode := mode) (a := a) (cmd := cmd) (data := data)
    (drain_of_readRaw hrx hroom hread hmoved) hempty
  rw [hkept.loopback] at hrun htpolls hrx'
  exact ⟨t, exec_writeOp_of_accepted haccepted hrun, hkept.trans hsent, by rw [htx, hm.tx], hpend, by rw [htpolls, hpolls], hrx', hna⟩

/-- A whole frame that waits is drained without a poll tick (41_bus_ops.md R133). -/
theorem drainsTo_frame {s : State} {dst src : Byte} {body : List Byte} (hcfg : s.cfg.wellFormed = true)
    (hdst : dst = s.cfg.addrAll ∨ dst = s.cfg.addrMaster) (hsrc : isFraming src = false) (hna : NothingArrives s)
    (hbody : ∀ b ∈ body, isFraming b = false) (hlength : body.length ≤ 13) (hrx : s.rx = [0xFE, 0xFE, dst, src] ++ body ++ [0xFD]) :
    DrainsTo s (classify s.cfg ([0xFE, 0xFE, dst, src] ++ body ++ [0xFD])) 0 := by
  obtain ⟨t, hread, hmoved, hpolls, hstream⟩ := readRaw_body (s := busAct s) (behind := []) (by simpa using hcfg) (by simpa using hdst) hsrc
    hbody hlength (by rw [busAct_rx_quiet hna, hrx, List.append_nil])
  rw [busAct_cfg] at hread
  exact ⟨t, hread, hmoved, by rw [hstream, nothingArrives_busAct hna]; rfl, by simpa using hpolls⟩

/-- A frame that ends behind its destination is drained, and classified as no message (40_receive.md R110, R111). -/
theorem drainsTo_headless {s : State} {dst : Byte} (hcfg : s.cfg.wellFormed = true)
    (hdst : dst = s.cfg.addrAll ∨ dst = s.cfg.addrMaster) (hna : NothingArrives s) (hrx : s.rx = [0xFE, 0xFE, dst, 0xFD]) :
    DrainsTo s (noMessage s.cfg) 0 := by
  have hframing : dst ≠ 0xFE#8 ∧ dst ≠ 0xFD#8 := by
    obtain ⟨hall, hmaster⟩ := wellFormed_addresses hcfg
    rw [← isFraming_eq_false]
    rcases hdst with rfl | rfl
    exacts [hall, hmaster]
  have hdst' : ¬ (dst ≠ s.cfg.addrAll ∧ dst ≠ s.cfg.addrMaster) := by tauto
  have hheader : fsmFrom s.cfg (.idle, []) [0xFE, 0xFE, dst] = (.collect, [0xFE, 0xFE, dst]) := by
    simp [rxStep_idle, rxStep_sync, rxStep_collect, hframing, hdst']
  have hstop : fsmFrom s.cfg (.idle, []) ([0xFE, 0xFE, dst] ++ [0xFD]) = (.stop, [0xFE, 0xFE, dst, 0xFD]) := by
    rw [fsmFrom_append, hheader]
    simp [rxStep_collect]
  obtain ⟨t, hread, hmoved, hpolls, hstream⟩ := readRaw_frame (s := busAct s) (q := [0xFE, 0xFE, dst]) (b := 0xFD) (behind := [])
    (by rw [busAct_rx_quiet hna, hrx]; rfl) (by rw [busAct_cfg, hheader]; simp) (by rw [busAct_cfg, hstop])
  rw [busAct_cfg, hstop, classify_of_short _ (by simp)] at hread
  exact ⟨t, hread, hmoved, by rw [hstream, nothingArrives_busAct hna]; rfl, by simpa using hpolls⟩

/-- Bytes that complete no frame are drained in a full read window (41_bus_ops.md R133, 40_receive.md R105). -/
theorem drainsTo_noFrame {s : State} (hna : NothingArrives s) (hnone : ∀ q, q <+: s.rx → (fsmRun s.cfg q).1 ≠ .stop) :
    DrainsTo s (noMessage s.cfg) s.cfg.readPollLimit := by
  obtain ⟨r, t, p, hread, hmoved, hstream, -, -, hend⟩ := readRaw_spec (busAct s)
  rw [stream_busAct, stream, hna, List.append_nil] at hstream
  rw [busAct_cfg] at hend
  rcases hend with ⟨-, -, -, -, hstop, -⟩ | ⟨-, rfl, hrx, hpolls⟩
  · exact absurd hstop (hnone p ⟨stream t, hstream.symm⟩)
  · have hleft : toArrive t ≤ 0 :=
      (waitsGrew_readRaw hread).1.trans_eq (List.length_eq_zero_iff.mpr (nothingArrives_busAct hna))
    exact ⟨t, hread, hmoved, stream_eq_nil hrx (List.eq_nil_of_length_eq_zero (Nat.le_zero.mp hleft)), by rw [hpolls, busAct_polls]⟩

/-- A marker's frame carries no data (40_receive.md R112, R113). -/
theorem classify_marker_status (cfg : Config) (dst src marker : Byte) (h : marker = 0xFB#8 ∨ marker = 0xFA#8) :
    (classify cfg ([0xFE, 0xFE, dst, src] ++ [marker] ++ [0xFD])).status ≠ .okWithData := by
  rw [classify_frame cfg dst src (List.cons_ne_nil marker []), classifyBody_cons]
  rcases h with rfl | rfl
  · simp
  · simp

theorem keptOf_of_not_data {r : ExchangeResult} (s : State) (h : r.status ≠ .okWithData) : keptOf r s = [] :=
  if_neg fun ⟨hdata, _⟩ => h hdata

/-- Settles O30: each clause says what waits, what the drain makes of it, and what it keeps; the write behind the drain is the same in
all. -/
theorem writeDrainsOneMessage : Obligations.WriteDrainsOneMessage := by
  intro mode a cmd data s dst src haccepted hcfg hdst hsrc hna hroom
  rw [← txBytes_eq]
  intro sent GoesOut
  have hgoes : ∀ {r ticks}, s.rx ≠ [] → DrainsTo s r ticks → GoesOut (keptOf r s) ticks :=
    fun hrx => exec_writeOp_after_drain haccepted hrx hroom
  have hlost : ∀ {r ticks}, s.rx ≠ [] → r.status ≠ .okWithData → DrainsTo s r ticks → GoesOut [] ticks :=
    fun hrx hst h => keptOf_of_not_data s hst ▸ hgoes hrx h
  have hframe : ∀ body, (∀ b ∈ body, isFraming b = false) → body.length ≤ 13 → s.rx = [0xFE, 0xFE, dst, src] ++ body ++ [0xFD] →
      DrainsTo s (classify s.cfg s.rx) 0 := fun body hbody hlength hrx => by
    rw [hrx]; exact drainsTo_frame hcfg hdst hsrc hna hbody hlength hrx
  refine ⟨fun body group hvalid hgroup hrx => ?_, fun marker hmarker hrx => ?_, fun body hbody hlength hrx hst => ?_, fun hrx => ?_,
    fun hrx hnone => ?_⟩
  · obtain ⟨hbytes, hlength, -⟩ := wireValid_bytes hvalid
    have hrx' : s.rx = [0xFE, 0xFE, dst, src] ++ (body ++ group) ++ [0xFD] := by simpa [rawFrame, startByte, stopByte] using hrx
    have h := hgoes (by simp [hrx']) (hframe _ hbytes hlength hrx')
    rw [hrx', classify_wireValid s.cfg dst src body group hvalid, if_neg hgroup] at h
    simpa only [keptOf, true_and] using h
  · have hbody : ∀ b ∈ [marker], isFraming b = false := by
      simpa [isFraming_eq_false] using by rcases hmarker with rfl | rfl <;> decide
    exact hlost (by simp [hrx]) (hrx ▸ classify_marker_status s.cfg dst src marker hmarker) (hframe [marker] hbody (by simp) hrx)
  · exact hlost (by simp [hrx]) hst (hframe body hbody hlength hrx)
  · exact hlost (by simp [hrx]) (by simp [noMessage]) (drainsTo_headless hcfg hdst hna hrx)
  · exact hlost hrx (by simp [noMessage]) (drainsTo_noFrame hna hnone)

end Sys2Proof.Machine

/-! Controllers: the checks of a slot, and the operations that change no more than the registry and one field group of a slot
(42_controller.md R151 to R154, R168, R174, R175, R177 to R181). -/

namespace Sys2Proof.Machine

/-! ### The checks of a slot -/

/-- Every controller operation but CTRL_CREATE is its slot checks, further checks of its own, and what it does once all of them have passed
(30_encoding.md R90, 42_controller.md R151). -/
theorem exec_slotChecks {i : Instr} {n : Nat} (hslot : slotOf i = some n) (hop : i.opcode ≠ .ctrlCreate) (s : State) :
    ∃ k more run, n = k.toNat ∧ exec i s = unlessRefused (firstReason (slotChecks k s ++ more)) s run := by
  cases i with
  | readRaw | readAddr | writeFast | writeChecked | writePowerOn | regAddr | unregAddr | isKnown => cases hslot
  | ctrlCreate => exact absurd rfl hop
  | ctrlDestroy k | tick k | getPower k | getMode k | getFreq k | getModulation k | getRxFilter k | getAddress k =>
    exact ⟨k, [], _, (Option.some.inj hslot).symm, rfl⟩
  | setPower k | setMode k | setAddress k | pushDateTime k =>
    exact ⟨k, _, _, (Option.some.inj hslot).symm, rfl⟩

theorem indexOutOfRange_iff (k : Byte) (s : State) : indexOutOfRange k s = true ↔ s.cfg.maxControllers ≤ k.toNat := decide_eq_true_iff

theorem indexOutOfRange_eq_false_iff (k : Byte) (s : State) : indexOutOfRange k s = false ↔ k.toNat < s.cfg.maxControllers := by
  simp [indexOutOfRange]

/-- An operation refused for a reason answers that reason and changes nothing (60_exceptions.md R204). -/
theorem unlessRefused_some {refusal : Option Reason} {reason : Reason} (h : refusal = some reason) (s : State)
    (run : Host.Outcome State Fault Refusal) : unlessRefused refusal s run = .next (s.respond [0x7F, reasonCode reason]) := by
  rw [h]; rfl

/-- Settles O40: the slot checks come first in every one of the operations, and the index before the slot. -/
theorem exec_slotChecks_refused : Obligations.SlotChecks := by
  intro i s n hslot hop
  obtain ⟨k, more, run, rfl, hexec⟩ := exec_slotChecks hslot hop s
  rw [hexec]
  refine ⟨fun hindex => ?_, fun hindex hlive => ?_⟩
  · exact unlessRefused_some (firstReason_of_applies ((indexOutOfRange_iff k s).mpr hindex) .indexRange _) s run
  · have hdead : (!(s.ctl k.toNat).live) = true := by rw [hlive]; rfl
    exact unlessRefused_some ((firstReason_of_not_applies ((indexOutOfRange_eq_false_iff k s).mpr hindex) _ _).trans
      (firstReason_of_applies hdead .slotLive _)) s run

/-- On a live slot an operation whose further checks pass is carried out (42_controller.md R151). -/
theorem unlessRefused_of_accepted {k : Byte} {s : State} {more : List (Bool × Reason)} (h : SlotLive k s)
    (hmore : firstReason more = none) (run : Host.Outcome State Fault Refusal) :
    unlessRefused (firstReason (slotChecks k s ++ more)) s run = run := by
  obtain ⟨hindex, hlive⟩ := h
  have hpassed : firstReason (slotChecks k s ++ more) = none := by
    simp [slotChecks, firstReason, (indexOutOfRange_eq_false_iff k s).mpr hindex, hlive, hmore]
  rw [hpassed]; rfl

/-- On a live slot an operation with no further check is carried out (42_controller.md R151). -/
theorem unlessRefused_slotRefusal {k : Byte} {s : State} (h : SlotLive k s) (run : Host.Outcome State Fault Refusal) :
    unlessRefused (slotRefusal k s) s run = run := unlessRefused_of_accepted (more := []) h rfl run

theorem SlotLive.lt {k : Byte} {s : State} (h : SlotLive k s) : k.toNat < s.ctrl.length := State.lt_of_live h.2

/-- Settles O37: each clause names the first check that applies, and those before it that do not. -/
theorem controllerCreationRefusals : Obligations.ControllerCreationRefusals := by
  intro s k a md
  have hrefused : ∀ {reason : Reason}, createRefusal k a md s = some reason →
      exec (.ctrlCreate k a md) s = .next (s.respond [0x7F, reasonCode reason]) := fun h => unlessRefused_some h s _
  have hpast : ∀ {more : List (Bool × Reason)}, k.toNat < s.cfg.maxControllers → (s.ctl k.toNat).live = false →
      firstReason ((indexOutOfRange k s, .indexRange) :: ((s.ctl k.toNat).live, .slotLive) :: more) = firstReason more :=
    fun hindex hlive => (firstReason_of_not_applies ((indexOutOfRange_eq_false_iff k s).mpr hindex) _ _).trans
      (firstReason_of_not_applies hlive _ _)
  have hknown : md.toNat < s.cfg.models.length → decide (s.cfg.models.length ≤ md.toNat) = false := fun h =>
    decide_eq_false (Nat.not_le.mpr h)
  refine ⟨fun hindex => ?_, fun hindex hlive => ?_, fun hindex hlive => ⟨fun hmodel => ?_, fun hmodel hframing => ?_,
    fun hmodel hframing hreserved => ?_⟩⟩
  · exact hrefused (reason := .indexRange) (firstReason_of_applies ((indexOutOfRange_iff k s).mpr hindex) _ _)
  · exact hrefused (reason := .slotLive) ((firstReason_of_not_applies ((indexOutOfRange_eq_false_iff k s).mpr hindex) _ _).trans
      (firstReason_of_applies hlive _ _))
  · exact hrefused (reason := .enumRange) ((hpast hindex hlive).trans (firstReason_of_applies (decide_eq_true hmodel) _ _))
  · have hframing' : isFraming a = true := by simpa [isFraming, startByte, stopByte] using hframing
    exact hrefused (reason := .framingByte) ((hpast hindex hlive).trans ((firstReason_of_not_applies (hknown hmodel) _ _).trans
      (firstReason_of_applies hframing' _ _)))
  · have hreserved' : isReservedAddress s.cfg a = true := by simpa [isReservedAddress, or_assoc] using hreserved
    exact hrefused (reason := .reservedAddress) ((hpast hindex hlive).trans ((firstReason_of_not_applies (hknown hmodel) _ _).trans
      ((firstReason_of_not_applies ((isFraming_eq_false a).mpr hframing) _ _).trans (firstReason_of_applies hreserved' _ _))))

/-! ### The getters -/

/-- Settles O42: on a live slot a getter answers its field's code, and the statement lists the codes. -/
theorem gettersAnswer : Obligations.GettersAnswer := by
  intro s k hlive
  have hanswers : ∀ response, unlessRefused (slotRefusal k s) s (.next (s.respond response)) = .next (s.respond response) :=
    fun _ => unlessRefused_slotRefusal hlive _
  exact ⟨hanswers [(s.ctl k.toNat).power.code], hanswers [modeCode (s.ctl k.toNat).mode], hanswers (le8 (s.ctl k.toNat).freq),
    hanswers [(s.ctl k.toNat).modulation.code], hanswers [filterCode (s.ctl k.toNat).filter], hanswers [(s.ctl k.toNat).addr]⟩

/-! ### SET_MODE -/

/-- Settles O43, for Voice and for Data. -/
theorem setModeStartsSequence : Obligations.SetModeStartsSequence := by
  intro s k m hlive hm
  have hcode : m = 0 ∨ m = 1 := by bv_omega
  rcases hcode with rfl | rfl <;> exact unlessRefused_of_accepted hlive rfl _

/-! ### The lifecycle and the address -/

/-- Unregistering clears every slot that holds the address, and changes nothing else (41_bus_ops.md R145, R146). -/
theorem unregisterAddress_eq (a : Byte) (s : State) : unregisterAddress a s =
    { s with reg := if a = s.cfg.addrNone then s.reg else s.reg.map fun x => if x = a then s.cfg.addrNone else x } := by
  unfold unregisterAddress
  by_cases hnone : a = s.cfg.addrNone
  · simp [hnone]
  · simp [hnone]

/-- Settles O38: the address is unregistered, and then the slot ended. -/
theorem controllerDestruction : Obligations.ControllerDestruction := by
  intro s k hlive
  have hk : k.toNat < (unregisterAddress (s.ctl k.toNat).addr s).ctrl.length := by simpa using hlive.lt
  refine ⟨(unregisterAddress (s.ctl k.toNat).addr s).modCtl k.toNat fun c => { c with live := false },
    unlessRefused_slotRefusal hlive _, ?_, regKnown_unregisterAddress_self, ?_⟩
  · rw [unregisterAddress_eq]; rfl
  · rw [State.ctl_modCtl_self _ _ _ hk]

/-- The slot that an address is taken from is free afterwards (41_bus_ops.md R145). -/
theorem addrNone_mem_unregisterAddress_of_present {a : Byte} {s : State} (h : a ∈ s.reg) : s.cfg.addrNone ∈ (unregisterAddress a s).reg := by
  rw [unregisterAddress_eq]
  dsimp only
  split
  next hnone => exact hnone ▸ h
  next => exact List.mem_map.mpr ⟨a, h, if_pos rfl⟩

/-- Unregistering keeps the free slots free (41_bus_ops.md R145). -/
theorem addrNone_mem_unregisterAddress_of_free {a : Byte} {s : State} (h : s.cfg.addrNone ∈ s.reg) :
    s.cfg.addrNone ∈ (unregisterAddress a s).reg := by
  rw [unregisterAddress_eq]
  dsimp only
  split
  next => exact h
  next => exact List.mem_map.mpr ⟨_, h, ite_self _⟩

@[simp] theorem unregisterAddress_reg_length (a : Byte) (s : State) : (unregisterAddress a s).reg.length = s.reg.length := by
  rw [unregisterAddress_eq]
  dsimp only
  split
  · rfl
  · exact List.length_map ..

/-- The registry's part of SET_ADDRESS: the old address is unregistered, and then the new one registered (42_controller.md R180). -/
def moveRegistration (old new : Byte) (s : State) : State := registerAddress new (unregisterAddress old s)

theorem moveRegistration_spec (old new : Byte) (s : State) :
    moveRegistration old new s = { s with reg := (moveRegistration old new s).reg } := by
  unfold moveRegistration
  rw [registerAddress_spec]
  dsimp only
  generalize (registerAddress new (unregisterAddress old s)).reg = moved
  rw [unregisterAddress_spec]

@[simp] theorem moveRegistration_ctrl (old new : Byte) (s : State) : (moveRegistration old new s).ctrl = s.ctrl := by
  rw [moveRegistration_spec]

@[simp] theorem moveRegistration_reg_length (old new : Byte) (s : State) : (moveRegistration old new s).reg.length = s.reg.length := by
  simp [moveRegistration]

/-- The new address finds a slot if it or the old one was present, or a slot was free (42_controller.md R180). -/
theorem regKnown_moveRegistration_new {old new : Byte} {s : State} (hnone : new ≠ s.cfg.addrNone)
    (h : new ∈ s.reg ∨ s.cfg.addrNone ∈ s.reg ∨ old ∈ s.reg) : regKnown new (moveRegistration old new s) = true := by
  refine regKnown_registerAddress_self (by simpa using hnone) ?_
  rw [unregisterAddress_cfg]
  rcases h with hpresent | hfree | hold
  · by_cases hsame : new = old
    · exact .inr (addrNone_mem_unregisterAddress_of_present (hsame ▸ hpresent))
    · have hknown : regKnown new (unregisterAddress old s) = true := by
        rw [regKnown_unregisterAddress_other hsame]; exact (regKnown_iff new s).mpr ⟨hnone, hpresent⟩
      exact .inl ((regKnown_iff new _).mp hknown).2
  · exact .inr (addrNone_mem_unregisterAddress_of_free hfree)
  · exact .inr (addrNone_mem_unregisterAddress_of_present hold)

theorem regKnown_moveRegistration_old {old new : Byte} {s : State} (h : old ≠ new) :
    regKnown old (moveRegistration old new s) = false := by
  rw [moveRegistration, regKnown_registerAddress_other h, regKnown_unregisterAddress_self]

theorem regKnown_moveRegistration_other {old new b : Byte} {s : State} (hnew : b ≠ new) (hold : b ≠ old) :
    regKnown b (moveRegistration old new s) = regKnown b s := by
  rw [moveRegistration, regKnown_registerAddress_other hnew, regKnown_unregisterAddress_other hold]

/-- SET_ADDRESS with an address that a controller may have moves the registration and writes the slot's address; the registry does not see
the slots, so it does not matter which comes first (42_controller.md R180). -/
theorem exec_setAddress {k a : Byte} {s : State} (h : SlotLive k s) (hframing : isFraming a = false)
    (hreserved : isReservedAddress s.cfg a = false) :
    exec (.setAddress k a) s =
      .next (((moveRegistration (s.ctl k.toNat).addr a s).setCtl k.toNat { s.ctl k.toNat with addr := a }).respond [0x00]) := by
  have hchecks : firstReason (controllerAddressChecks s.cfg a) = none := by
    simp [controllerAddressChecks, firstReason, hframing, hreserved]
  refine (unlessRefused_of_accepted h hchecks _).trans ?_
  rw [State.modCtl, unregisterAddress_ctl, registerAddress_setCtl]
  rfl

/-- Settles O39, from what moving the registration does to `RegKnown`, which does not see the slots. -/
theorem setAddress : Obligations.SetAddress := by
  intro s k a hlive hframing hreserved
  have hnone : a ≠ s.cfg.addrNone := by
    rintro rfl
    simp [isReservedAddress] at hreserved
  have hk : k.toNat < (moveRegistration (s.ctl k.toNat).addr a s).ctrl.length := by simpa using hlive.lt
  refine ⟨_, exec_setAddress hlive hframing hreserved, ?_, State.ctl_setCtl_self _ _ _ hk, moveRegistration_reg_length ..,
    regKnown_moveRegistration_new hnone, regKnown_moveRegistration_old, fun b => regKnown_moveRegistration_other⟩
  rw [State.setCtl, moveRegistration_spec]

end Sys2Proof.Machine

/-! Controllers: SET_POWER and PUSH_DATETIME, the operations that write on the bus and answer no result of it (42_controller.md R169 to R172,
R182), and what keeps the date/time fields (R183). -/

namespace Sys2Proof.Machine

/-! ### A controller's verified write -/

/-- A verified write always ends, and on a bus with nothing waiting and nothing to come it goes out and leaves the bus so: the echo, if the
line has one, is read back (41_bus_ops.md R136, R137). -/
theorem busWrite_verified_run {mode : WriteMode} (hmode : mode ≠ .fast) (a : Byte) (cmd data : List Byte) (s : State) :
    ∃ r u, busWrite mode a cmd data s = .ok (r, u) ∧ OnlyEngineMoved s u
      ∧ (stream s = [] → u.tx = s.tx ++ transmission (txBytes s.cfg mode a cmd data) ∧ u.pend = s.pend ∧ stream u = []) := by
  by_cases hempty : stream s = []
  · obtain ⟨u, hrun, hmoved, hpend, htx, -, hrx, hna⟩ := busWrite_after_drain (mode := mode) (a := a) (cmd := cmd) (data := data)
      (drain_quiet hempty) ((stream_busAct s).trans hempty)
    rw [if_neg fun h => hmode h.1] at hrx
    rw [busAct_pend] at hpend
    rw [busAct_tx] at htx
    exact ⟨_, u, hrun, (onlyBusMoved_busAct s).toEngine.trans hmoved, fun _ => ⟨htx, hpend, stream_eq_nil hrx hna⟩⟩
  · obtain ⟨status, u, hrun, hmoved, -⟩ := busWrite_spec mode a cmd data s
    exact ⟨_, u, hrun, hmoved, fun h => absurd h hempty⟩

theorem busWrite'_of_run {mode : WriteMode} {a : Byte} {cmd data : List Byte} {s u : State} {r : ExchangeResult}
    (h : busWrite mode a cmd data s = .ok (r, u)) : busWrite' mode a cmd data s = .ok u := by
  simp only [busWrite', h]

/-- A write that leaves the slots alone and then a change of slot k is that change of the slot as it was before the write. -/
theorem OnlyEngineMoved.modCtl_eq {s u : State} (h : OnlyEngineMoved s u) (k : Nat) (f : Controller → Controller) :
    u.modCtl k f = u.setCtl k (f (s.ctl k)) := by
  rw [State.modCtl, h.ctl]

theorem OnlyEngineMoved.setCtl {s u : State} (h : OnlyEngineMoved s u) (k : Nat) (c : Controller) : OnlySlotMoved k s (u.setCtl k c) :=
  (h.toSlot k).trans (onlySlotMoved_modCtl k (fun _ => c) u)

theorem OnlyEngineMoved.ctl_setCtl_self {s u : State} (h : OnlyEngineMoved s u) {k : Nat} (hk : k < s.ctrl.length) (c : Controller) :
    (u.setCtl k c).ctl k = c := State.ctl_setCtl_self u k c (by rw [h.ctrl]; exact hk)

/-! ### SET_POWER -/

/-- The request that an accepted code stands for, and when it resolves to On (30_encoding.md R96, 42_controller.md R170). -/
theorem powerRequestOf_accepted {q : Byte} (h : q.toNat ≤ 2) (power : PowerState) :
    ∃ request, powerRequestOf q = some request ∧ (resolvesToOn request power = true ↔ q = 0 ∨ (q = 2 ∧ power ≠ .on)) := by
  have hcode : q = 0 ∨ q = 1 ∨ q = 2 := by bv_omega
  rcases hcode with rfl | rfl | rfl
  · exact ⟨.on, rfl, by simp [resolvesToOn]⟩
  · exact ⟨.off, rfl, by simp [resolvesToOn]⟩
  · exact ⟨.toggle, rfl, by simp [resolvesToOn]⟩

/-- SET_POWER answers the power state that the request leaves (42_controller.md R169). -/
theorem exec_setPower {k q : Byte} {request : PowerRequest} {now : Time} {s t : State} (h : SlotLive k s)
    (hq : powerRequestOf q = some request) (hrun : requestPower k.toNat request now s = .ok t) :
    exec (.setPower k q now) s = .next (t.respond [(t.ctl k.toNat).power.code]) := by
  have hcheck : firstReason [((powerRequestOf q).isNone, .enumRange)] = none := by rw [hq]; rfl
  refine (unlessRefused_of_accepted h hcheck _).trans ?_
  rw [hq, Option.getD_some, hrun]
  rfl

/-- A request for the state that is there does nothing (42_controller.md R169). -/
theorem requestPower_same {k : Nat} {request : PowerRequest} (now : Time) {s : State}
    (h : (resolvesToOn request (s.ctl k).power = true ∧ (s.ctl k).power = .on)
      ∨ (¬ resolvesToOn request (s.ctl k).power = true ∧ (s.ctl k).power = .off)) : requestPower k request now s = .ok s := by
  unfold requestPower
  rcases h with ⟨hon, hpower⟩ | ⟨hoff, hpower⟩
  · rw [if_pos hon, if_pos hpower]
  · rw [if_neg hoff, if_pos hpower]

/-- A power request that runs a verified write and then changes its slot: the write, whatever its status, the slot after it, and the answer
(42_controller.md R171, R172). -/
theorem exec_setPower_of_write {mode : WriteMode} {command : Command} {f : Controller → Controller} {k q : Byte} {request : PowerRequest}
    {now : Time} {s : State} (h : SlotLive k s) (hq : powerRequestOf q = some request) (hmode : mode ≠ .fast)
    (hrun : ∀ u, busWrite' mode (s.ctl k.toNat).addr command.cmd command.data s = .ok u →
      requestPower k.toNat request now s = .ok (u.modCtl k.toNat f)) :
    ∃ r u t, busWrite mode (s.ctl k.toNat).addr command.cmd command.data s = .ok (r, u) ∧ t = u.setCtl k.toNat (f (s.ctl k.toNat))
      ∧ exec (.setPower k q now) s = .next (t.respond [(f (s.ctl k.toNat)).power.code]) ∧ t.ctl k.toNat = f (s.ctl k.toNat)
      ∧ OnlySlotMoved k.toNat s t
      ∧ (s.rx = [] → NothingArrives s →
          t.tx = s.tx ++ transmission (txBytes s.cfg mode (s.ctl k.toNat).addr command.cmd command.data)) := by
  obtain ⟨r, u, hwrite, hmoved, hquiet⟩ := busWrite_verified_run hmode (s.ctl k.toNat).addr command.cmd command.data s
  have hslot := hmoved.ctl_setCtl_self h.lt (f (s.ctl k.toNat))
  have hexec := exec_setPower h hq (hrun u (busWrite'_of_run hwrite))
  rw [hmoved.modCtl_eq, hslot] at hexec
  exact ⟨r, u, _, hwrite, rfl, hexec, hslot, hmoved.setCtl _ _, fun hrx hna => (hquiet (stream_eq_nil hrx hna)).1⟩

/-- Settles O44, by what the request resolves to and whether the power state is it already. -/
theorem setPower : Obligations.SetPower := by
  intro s k q now hlive hq c asksOn
  obtain ⟨request, hrequest, hon⟩ := powerRequestOf_accepted hq c.power
  refine ⟨fun h hpower => ?_, fun h hpower => ?_, fun h hpower => ?_, fun h hpower => ?_⟩
  · have hexec := exec_setPower hlive hrequest (requestPower_same now (.inl ⟨hon.mpr h, hpower⟩))
    rwa [show (s.ctl k.toNat).power = .on from hpower] at hexec
  · have hexec := exec_setPower hlive hrequest (requestPower_same now (.inr ⟨mt hon.mp h, hpower⟩))
    rwa [show (s.ctl k.toNat).power = .off from hpower] at hexec
  · refine exec_setPower_of_write (mode := .powerOn) (command := s.cfg.catalog.pwrOn)
      (f := fun c => { c with power := .offTransitioning, lastPowerOnAt := some now }) hlive hrequest nofun fun u hwrite => ?_
    rw [requestPower, if_pos (hon.mpr h), if_neg hpower, powerOnAct, hwrite]
  · refine exec_setPower_of_write (mode := .checked) (command := s.cfg.catalog.pwrOff)
      (f := fun c => { c with power := .onTransitioning }) hlive hrequest nofun fun u hwrite => ?_
    rw [requestPower, if_neg (mt hon.mp h), if_neg hpower, powerOffAct, hwrite]

/-! ### PUSH_DATETIME -/

/-- PUSH_DATETIME with groups that pass its checks is carried out (42_controller.md R182). -/
theorem exec_pushDateTime {k : Byte} {time date utc : List Byte} {s t : State} (h : SlotLive k s)
    (hgroups : GroupsAccepted s.cfg time date utc) (hrun : pushGroups k.toNat time date utc s = .ok t) :
    exec (.pushDateTime k time date utc) s = .next (t.respond [0x00]) := by
  obtain ⟨hutc, htime, hdate, htimeLength, hdateLength, hutcLength, hframing⟩ := hgroups
  refine (unlessRefused_of_accepted h ?_ _).trans (by rw [hrun]; rfl)
  simp [firstReason, hutc, htime, hdate, htimeLength, hdateLength, hutcLength, hframing]

/-- The groups of a slot that is On are sent by three Checked writes, one after the other, whatever their results (42_controller.md R182). -/
theorem pushGroups_of_on {k : Nat} {time date utc : List Byte} {s u₁ u₂ u₃ : State} {r₁ r₂ r₃ : ExchangeResult} (hk : k < s.ctrl.length)
    (hon : (s.ctl k).power = .on)
    (h₁ : busWrite .checked (s.ctl k).addr s.cfg.catalog.dtUtc utc (s.modCtl k (storeGroups time date utc)) = .ok (r₁, u₁))
    (hm₁ : OnlyEngineMoved (s.modCtl k (storeGroups time date utc)) u₁)
    (h₂ : busWrite .checked (s.ctl k).addr s.cfg.catalog.dtTime time u₁ = .ok (r₂, u₂)) (hm₂ : OnlyEngineMoved u₁ u₂)
    (h₃ : busWrite .checked (s.ctl k).addr s.cfg.catalog.dtDate date u₂ = .ok (r₃, u₃)) :
    pushGroups k time date utc s = .ok (u₃.modCtl k fun c => { c with dtSent := true }) := by
  have hself : (s.modCtl k (storeGroups time date utc)).ctl k = storeGroups time date utc (s.ctl k) := State.ctl_modCtl_self s k _ hk
  have hslot₁ : (u₁.ctl k).addr = (s.ctl k).addr := by rw [hm₁.ctl, hself]; rfl
  have hslot₂ : (u₂.ctl k).addr = (s.ctl k).addr := by rw [hm₂.ctl, hslot₁]
  have hcfg₁ : u₁.cfg = s.cfg := hm₁.cfg
  have hcfg₂ : u₂.cfg = s.cfg := hm₂.cfg.trans hcfg₁
  unfold pushGroups
  dsimp only
  rw [hself, if_pos ⟨hon, rfl⟩]
  unfold sendGroups
  rw [hself, State.modCtl_cfg, busWrite'_of_run (show busWrite .checked (storeGroups time date utc (s.ctl k)).addr _ _ _ = _ from h₁)]
  dsimp only
  rw [hslot₁, hcfg₁, busWrite'_of_run h₂]
  dsimp only
  rw [hslot₂, hcfg₂, busWrite'_of_run h₃]

/-- Settles O45: off, the slot only stores the groups; on, the three writes follow, and on a quiet bus each leaves the bus quiet for the
next. -/
theorem pushDateTime : Obligations.PushDateTime := by
  intro s k time date utc hlive hgroups c stored
  refine ⟨fun hoff => ?_, fun hon => ?_⟩
  · obtain ⟨t, hrun, -, ⟨-, rfl⟩ | ⟨hon, -⟩⟩ := pushGroups_spec k.toNat time date utc s hlive.lt
    · exact exec_pushDateTime hlive hgroups hrun
    · exact absurd hon hoff
  · obtain ⟨r₁, u₁, h₁, hm₁, hq₁⟩ :=
      busWrite_verified_run (mode := .checked) nofun c.addr s.cfg.catalog.dtUtc utc (s.setCtl k.toNat stored)
    obtain ⟨r₂, u₂, h₂, hm₂, hq₂⟩ := busWrite_verified_run (mode := .checked) nofun c.addr s.cfg.catalog.dtTime time u₁
    obtain ⟨r₃, u₃, h₃, hm₃, hq₃⟩ := busWrite_verified_run (mode := .checked) nofun c.addr s.cfg.catalog.dtDate date u₂
    have hmoved := (hm₁.trans hm₂).trans hm₃
    have hslot : u₃.ctl k.toNat = stored := (hmoved.ctl k.toNat).trans (State.ctl_setCtl_self s k.toNat stored hlive.lt)
    have hk : k.toNat < u₃.ctrl.length := by rw [hmoved.ctrl]; simpa using hlive.lt
    have hexec := exec_pushDateTime hlive hgroups (pushGroups_of_on hlive.lt hon h₁ hm₁ h₂ hm₂ h₃)
    rw [State.modCtl, hslot] at hexec
    refine ⟨r₁, r₂, r₃, u₁, u₂, u₃, _, h₁, h₂, h₃, rfl, hexec, State.ctl_setCtl_self _ _ _ hk, ?_, fun hrx hna => ?_⟩
    · exact (onlySlotMoved_modCtl k.toNat (fun _ => stored) s).trans (hmoved.setCtl k.toNat _)
    · obtain ⟨htx₁, hpend₁, hempty₁⟩ := hq₁ (stream_eq_nil hrx hna)
      obtain ⟨htx₂, hpend₂, hempty₂⟩ := hq₂ hempty₁
      obtain ⟨htx₃, hpend₃, -⟩ := hq₃ hempty₂
      rw [hm₁.cfg] at htx₂
      rw [(hm₁.trans hm₂).cfg] at htx₃
      refine ⟨hpend₃.trans (hpend₂.trans hpend₁), ?_⟩
      calc u₃.tx = u₂.tx ++ _ := htx₃
        _ = u₁.tx ++ _ ++ _ := by rw [htx₂]
        _ = _ := by rw [htx₁]; rfl

/-! ### The date/time fields -/

/-- The date/time fields of d are those of c (10_state.md R48). -/
structure SameDateTime (c d : Controller) : Prop where
  utc : d.dtUtc = c.dtUtc
  time : d.dtTime = c.dtTime
  date : d.dtDate = c.dtDate
  sent : d.dtSent = c.dtSent

/-- Every next state has the date/time fields of slot k that s has. -/
def KeepsDateTime (k : Nat) (s : State) (outcome : Host.Outcome State Fault Refusal) : Prop :=
  ∀ t, outcome = .next t → SameDateTime (s.ctl k) (t.ctl k)

theorem SameDateTime.refl (c : Controller) : SameDateTime c c := ⟨rfl, rfl, rfl, rfl⟩

theorem keepsDateTime_respond {k : Nat} {s u : State} {d : Controller} (response : List Byte) (hslot : u.ctl k = d)
    (h : SameDateTime (s.ctl k) d) : KeepsDateTime k s (.next (u.respond response)) := by
  rintro _ ⟨⟩
  rw [State.ctl_respond, hslot]
  exact h

theorem keepsDateTime_unlessRefused {k : Nat} {s : State} {refusal : Option Reason} {run : Host.Outcome State Fault Refusal}
    (h : refusal = none → KeepsDateTime k s run) : KeepsDateTime k s (unlessRefused refusal s run) := by
  cases refusal with
  | none => exact h rfl
  | some reason => exact keepsDateTime_respond _ rfl (.refl _)

theorem keepsDateTime_getter (k : Nat) (refusal : Option Reason) (response : List Byte) (s : State) :
    KeepsDateTime k s (unlessRefused refusal s (.next (s.respond response))) :=
  keepsDateTime_unlessRefused fun _ => keepsDateTime_respond _ rfl (.refl _)

/-- Every operation of a slot but PUSH_DATETIME and CTRL_CREATE keeps its date/time fields (42_controller.md R183). -/
theorem keepsDateTime_exec {i : Instr} {n : Nat} (hslot : slotOf i = some n) (hpush : i.opcode ≠ .pushDateTime)
    (hcreate : i.opcode ≠ .ctrlCreate) (s : State) : KeepsDateTime n s (exec i s) := by
  cases i with
  | readRaw | readAddr | writeFast | writeChecked | writePowerOn | regAddr | unregAddr | isKnown => cases hslot
  | ctrlCreate => exact absurd rfl hcreate
  | pushDateTime => exact absurd rfl hpush
  | ctrlDestroy k =>
    cases hslot
    refine keepsDateTime_unlessRefused fun h => keepsDateTime_respond _ (State.ctl_modCtl_self _ _ _ ?_) ?_
    · simpa using State.lt_of_live (live_of_slotRefusal h)
    · rw [unregisterAddress_ctl]; exact ⟨rfl, rfl, rfl, rfl⟩
  | tick k now =>
    cases hslot
    refine keepsDateTime_unlessRefused fun h => ?_
    obtain ⟨r, _, t, -, hrun, -, -, -, -, -, -, -, -, htick, -⟩ :=
      tickSlot_spec k.toNat now s (State.lt_of_live (live_of_slotRefusal h))
    rw [hrun]
    have hkeeps := slotAfterTick_keeps s.cfg now r (s.ctl k.toNat)
    exact keepsDateTime_respond _ htick ⟨hkeeps.dtUtc, hkeeps.dtTime, hkeeps.dtDate, hkeeps.dtSent⟩
  | setPower k q now =>
    cases hslot
    refine keepsDateTime_unlessRefused fun h => ?_
    obtain ⟨t, hrun, -, ⟨rfl, -⟩ | ⟨-, -, hslot, -⟩ | ⟨-, -, hslot, -⟩⟩ :=
      requestPower_spec k.toNat ((powerRequestOf q).getD .off) now s (State.lt_of_live (slotChecks_passed h).1)
    · rw [hrun]; exact keepsDateTime_respond _ rfl (.refl _)
    · rw [hrun]; exact keepsDateTime_respond _ hslot ⟨rfl, rfl, rfl, rfl⟩
    · rw [hrun]; exact keepsDateTime_respond _ hslot ⟨rfl, rfl, rfl, rfl⟩
  | setMode k m =>
    cases hslot
    exact keepsDateTime_unlessRefused fun h => keepsDateTime_respond _
      (State.ctl_modCtl_self _ _ _ (State.lt_of_live (slotChecks_passed h).1)) ⟨rfl, rfl, rfl, rfl⟩
  | setAddress k a =>
    cases hslot
    refine keepsDateTime_unlessRefused fun h => keepsDateTime_respond _
      ((registerAddress_ctl _ _ _).trans (State.ctl_modCtl_self _ _ _ ?_)) ?_
    · simpa using State.lt_of_live (slotChecks_passed h).1
    · rw [unregisterAddress_ctl]; exact ⟨rfl, rfl, rfl, rfl⟩
  | getPower | getMode | getFreq | getModulation | getRxFilter | getAddress =>
    cases hslot
    exact keepsDateTime_getter _ _ _ s

/-- Settles O58: another slot's operation leaves the slot as it is, and of the slot's own only the two write these fields. -/
theorem dateTimeOnlyByPush : Obligations.DateTimeOnlyByPush := by
  intro i s t j hrun hop
  have hsame : SameDateTime (s.ctl j) (t.ctl j) := by
    by_cases hslot : slotOf i = some j
    · obtain ⟨hpush, hcreate⟩ := hop.resolve_left (not_not_intro hslot)
      exact keepsDateTime_exec hslot hpush hcreate s t hrun
    · rw [(slotIsolation i s t j hslot hrun).1]
      exact .refl _
  exact ⟨hsame.utc, hsame.time, hsame.date, hsame.sent⟩

/-! ### The catalog -/

/-- A configuration that passes 00_scope.md R10 and whose one sequence command has the body 0x1A and the data 0x05: alone the body is one
byte long, but with that data `CmdLen` gives 4 (30_encoding.md R82, R85). -/
def misreadConfig : Config :=
  { refConfig with
    compound := [0x18, 0x19]
    models := [{ refModel with seqVoice := [⟨[0x1A], [0x05]⟩], seqData := [] }] }

/-- Refutes O60: the sequence command of `misreadConfig` is a catalog pair, and it is not wire-valid. -/
theorem not_catalogPairsAlwaysAccepted : ¬ Obligations.CatalogPairsAlwaysAccepted := by
  intro h
  have hpair : (⟨[0x1A], [0x05]⟩ : Command) ∈ catalogPairs misreadConfig := by decide
  have hvalid := h misreadConfig (by decide) _ hpair
  exact absurd hvalid (by decide)

end Sys2Proof.Machine

/-! The controller's tick: what one tick does, said once, and what follows from it for each field, for the commands sent, and for a run of
ticks on a quiet bus (42_controller.md R156 to R167, R173, R176, R184, R185). -/

namespace Sys2Proof.Machine

/-! ### One tick -/

/-- A tick of slot k at `now`, run from s, that reads r, is in state u behind the read, and in state t before it answers
(42_controller.md R156). -/
structure Ticked (k : Nat) (now : Time) (s : State) (r : ExchangeResult) (u t : State) : Prop where
  read : readFor (s.ctl k).addr (s.modCtl k (firstTick now)) = .ok (r, u)
  readMoved : OnlyEngineMoved (s.modCtl k (firstTick now)) u
  readTx : u.tx = s.tx
  moved : OnlySlotMoved k s t
  slot : t.ctl k = slotAfterTick s.cfg now r (s.ctl k)
  writes : Writes .fast (s.ctl k).addr (tickCommands s.cfg now r (s.ctl k)) u t

/-- A tick of a live slot is carried out, and answers the result of its read (42_controller.md R156). -/
theorem exec_tick {k : Byte} {s : State} (h : SlotLive k s) (now : Time) :
    ∃ r u t, exec (.tick k now) s = .next (t.respond (encodeResult r)) ∧ Ticked k.toNat now s r u t := by
  obtain ⟨r, u, t, hread, hrun, hmoved, htx, -, -, -, -, -, hslotMoved, hslot, hwrites⟩ := tickSlot_spec k.toNat now s h.lt
  refine ⟨r, u, t, ?_, hread, hmoved, htx, hslotMoved, hslot, hwrites⟩
  calc exec (.tick k now) s = answerResult (tickSlot k.toNat now s) := unlessRefused_slotRefusal h _
    _ = .next (t.respond (encodeResult r)) := by rw [hrun]; rfl

/-! ### What a tick sends -/

theorem Ticked.readCfg {k : Nat} {now : Time} {s u t : State} {r : ExchangeResult} (h : Ticked k now s r u t) : u.cfg = s.cfg := h.readMoved.cfg

/-- Where nothing is to come behind the read and the line has no echo, a tick sends all that it has to send, and no write of it buffers a
message or takes a poll tick. -/
theorem Ticked.silent {k : Nat} {now : Time} {s u t : State} {r : ExchangeResult} (h : Ticked k now s r u t) (hempty : stream u = [])
    (hl : s.loopback = false) :
    t.tx = s.tx ++ sentTo s.cfg (s.ctl k).addr (tickCommands s.cfg now r (s.ctl k)) ∧ t.pend = u.pend ∧ t.polls = u.polls := by
  obtain ⟨htx, -, hpend, hpolls⟩ := h.writes.silent hempty (h.readMoved.loopback.trans hl)
  rw [h.readTx, h.readCfg] at htx
  exact ⟨htx, hpend, hpolls rfl⟩

/-- A tick sends a part, in order, of the commands it has to send, and all of them on a silent line (42_controller.md R156). -/
theorem Ticked.sent {k : Nat} {now : Time} {s u t : State} {r : ExchangeResult} (h : Ticked k now s r u t) :
    ∃ sent : List Command, sent.Sublist (tickCommands s.cfg now r (s.ctl k)) ∧ t.tx = s.tx ++ sentTo s.cfg (s.ctl k).addr sent
      ∧ (stream u = [] → s.loopback = false → sent = tickCommands s.cfg now r (s.ctl k)) := by
  by_cases hsilent : stream u = [] ∧ s.loopback = false
  · exact ⟨_, .refl _, (h.silent hsilent.1 hsilent.2).1, fun _ _ => rfl⟩
  · obtain ⟨sent, hsub, htx⟩ := h.writes.tx
    rw [h.readTx, h.readCfg] at htx
    exact ⟨sent, hsub, htx, fun hempty hl => absurd ⟨hempty, hl⟩ hsilent⟩

/-- Settles O46, from what one tick does. -/
theorem tickSlotAndSends : Obligations.TickSlotAndSends := by
  intro s k now hlive c
  obtain ⟨r, u, t, hexec, htick⟩ := exec_tick hlive now
  obtain ⟨sent, hsub, htx, -⟩ := htick.sent
  exact ⟨r, u, t, htick.read, hexec, htick.moved, htick.slot ▸ slotAfterTick_keeps .., htick.slot, ⟨sent, hsub, htx⟩,
    tickCommands_length_le .., htick.silent⟩

/-! ### The power state and the telemetry after a tick -/

theorem slotAfterTick_modelOf (cfg : Config) (now : Time) (r : ExchangeResult) (c : Controller) :
    modelOf cfg (slotAfterTick cfg now r c) = modelOf cfg c := by
  unfold modelOf; rw [(slotAfterTick_keeps cfg now r c).model]

theorem slotAfterTick_lastPowerOnAt_eq (cfg : Config) (now : Time) (r : ExchangeResult) (c : Controller) :
    (slotAfterTick cfg now r c).lastPowerOnAt = some (c.lastPowerOnAt.getD now) := by
  rw [slotAfterTick_lastPowerOnAt, digest_lastPowerOnAt, firstTick_spec]

/-- The power state after a tick (42_controller.md R157, R161, R163, R164). -/
theorem slotAfterTick_power_eq (cfg : Config) (now : Time) (r : ExchangeResult) (c : Controller) :
    (slotAfterTick cfg now r c).power =
      if r.status = .okWithData ∧ r.cmd = (modelOf cfg c).idQuery then .on
      else if c.idInFlight = true ∧ r.status = .notOk then .off
      else if c.idInFlight = true ∧ cfg.idWaitMs ≤ (now - c.idSentAt).toNat then
        if (now - c.lastPowerOnAt.getD now).toNat < (modelOf cfg c).bootWindow then .offTransitioning else .off
      else c.power := by
  rw [slotAfterTick_power, firstTick_spec, digest_power _ _ _ _ (c.lastPowerOnAt.getD now) rfl]
  rfl

/-- Settles O48, from the power state and the power-on time of the slot after a tick. -/
theorem tickPowerState : Obligations.TickPowerState := by
  intro s k now hlive c
  obtain ⟨r, u, t, hexec, htick⟩ := exec_tick hlive now
  refine ⟨r, u, t, htick.read, hexec, ?_, ?_⟩ <;> rw [htick.slot]
  · exact slotAfterTick_lastPowerOnAt_eq ..
  · exact slotAfterTick_power_eq ..

/-- The entry of a table for a byte is the first that has it as its key (log 26). -/
theorem tableLookup_eq {α : Type} (table : List (Byte × α)) (b : Byte) :
    tableLookup table b = (table.find? fun e => e.1 == b).map Prod.snd := rfl

/-- `ModDecode` by the model's own table (42_controller.md R162). -/
theorem modDecode_eq (m : ModelConfig) (b : Byte) : modDecode m b =
    if b = 0x17#8 ∧ m.dvRemap = true then .dv
    else match m.modTable.find? (fun e => e.1 == b) with
      | some e => .linear b e.2
      | none => .undefined := by
  unfold modDecode
  rw [tableLookup_eq]
  simp only [Bool.and_eq_true, beq_iff_eq]
  cases m.modTable.find? (fun e => e.1 == b) <;> rfl

/-- `FilDecode` by the configuration's table (42_controller.md R162). -/
theorem filDecode_eq (cfg : Config) (f : Byte) : filDecode cfg f =
    match cfg.filterTable.find? (fun e => e.1 == f) with
      | some e => e.2
      | none => .undefined := by
  unfold filDecode
  rw [tableLookup_eq]
  cases cfg.filterTable.find? (fun e => e.1 == f) <;> rfl

/-- Settles O49: of the steps of a tick only FirstTick and Telemetry can touch the cached fields, and FirstTick does not. -/
theorem tickTelemetry : Obligations.TickTelemetry := by
  intro s k now hlive c m
  obtain ⟨r, u, t, hexec, htick⟩ := exec_tick hlive now
  refine ⟨r, u, t, htick.read, hexec, ?_⟩
  obtain ⟨hfreq, hmodulation, hfilter⟩ := slotAfterTick_telemetry now r s.cfg c
  obtain ⟨hfreq', hmodulation', hfilter'⟩ := telemetry_fields s.cfg r (firstTick now c)
  rw [hfreq', firstTick_spec] at hfreq
  rw [hmodulation', firstTick_spec] at hmodulation
  rw [hfilter', firstTick_spec] at hfilter
  rw [htick.slot]
  intro d isFreq isMode
  refine ⟨hfreq, fun hother => ⟨hmodulation.trans (if_neg hother), hfilter.trans (if_neg hother)⟩, fun b rest hdata hmode hb => ⟨?_, ?_⟩⟩
  · refine (hmodulation.trans (if_pos ⟨hdata, hmode⟩)).trans ?_
    rw [hb]
    exact modDecode_eq m b
  · refine (hfilter.trans (if_pos ⟨hdata, hmode⟩)).trans ?_
    rw [hb]
    cases rest with
    | nil => rfl
    | cons f _ => exact filDecode_eq s.cfg f

/-! ### The slot between the reading and the writing steps of a tick -/

/-- The slot after FirstTick, Telemetry, AckAndNak and Identity (42_controller.md R156). -/
abbrev slotAfterRead (cfg : Config) (now : Time) (r : ExchangeResult) (c : Controller) : Controller := digest cfg now r (firstTick now c)

/-- The fields of the ack wait, the NAK count, the sequence, the power state and the identity query that AckAndNak and Identity read: d has
them as c. -/
structure ControlKept (c d : Controller) : Prop where
  model : d.model = c.model
  power : d.power = c.power
  seqActive : d.seqActive = c.seqActive
  ackPending : d.ackPending = c.ackPending
  ackSentAt : d.ackSentAt = c.ackSentAt
  nak : d.nak = c.nak
  idInFlight : d.idInFlight = c.idInFlight
  idSentAt : d.idSentAt = c.idSentAt

theorem telemetry_firstTick_kept (cfg : Config) (now : Time) (r : ExchangeResult) (c : Controller) :
    ControlKept c (telemetry cfg r (firstTick now c)) := by
  rw [telemetry_spec, firstTick_spec]; constructor <;> rfl

/-- The fields of the sequence, the verification and the identity poll that no reading step writes. -/
structure ReadKept (c d : Controller) : Prop where
  seqActive : d.seqActive = c.seqActive
  seq : d.seq = c.seq
  seqIdx : d.seqIdx = c.seqIdx
  mode : d.mode = c.mode
  target : d.target = c.target
  ackSentAt : d.ackSentAt = c.ackSentAt
  verifyPending : d.verifyPending = c.verifyPending
  verifyFrom : d.verifyFrom = c.verifyFrom
  idSentAt : d.idSentAt = c.idSentAt
  polled : d.polled = c.polled
  lastPollAt : d.lastPollAt = c.lastPollAt

theorem slotAfterRead_kept (cfg : Config) (now : Time) (r : ExchangeResult) (c : Controller) :
    ReadKept c (slotAfterRead cfg now r c) := by
  unfold slotAfterRead digest
  rw [identityStep_spec, ackAndNak_spec, telemetry_spec, firstTick_spec]
  constructor <;> rfl

/-! ### The events of a tick (42_controller.md R159 to R167) -/

section
variable (cfg : Config) (now : Time) (r : ExchangeResult) (c : Controller)

/-- An ack is awaited and the message read does not bring it (42_controller.md R159). -/
abbrev AckWaits : Prop := c.ackPending = true ∧ r.status ≠ .ok ∧ r.status ≠ .notOk

/-- A NAK is counted: a NOT_OK or an ack timeout while a sequence runs (42_controller.md R160, R185). -/
abbrev Nakked : Prop := c.seqActive = true ∧ (r.status = .notOk ∨ AckTimedOut cfg now r c)

/-- The sequence is aborted (42_controller.md R165, R176). -/
abbrev Aborts : Prop := c.seqActive = true ∧ (Nakked cfg now r c ∨ c.nak ≠ 0)

/-- The sequence goes on: it is not aborted and awaits no ack (42_controller.md R165). -/
abbrev GoesOn : Prop := c.seqActive = true ∧ ¬ Aborts cfg now r c ∧ ¬ AckWaits r c

/-- The sequence's next command is due (42_controller.md R165). -/
abbrev SendsNext : Prop := GoesOn cfg now r c ∧ c.seqIdx < c.seq.length

/-- The sequence has come to its end, and its mode is committed (42_controller.md R165). -/
abbrev Commits : Prop := GoesOn cfg now r c ∧ c.seq.length ≤ c.seqIdx

/-- The verification re-query is due (42_controller.md R166). -/
abbrev Verifies : Prop :=
  (Commits cfg now r c ∧ cfg.verifyDelayMs = 0)
    ∨ (¬ Commits cfg now r c ∧ c.verifyPending = true ∧ cfg.verifyDelayMs ≤ (now - c.verifyFrom).toNat)

/-- The message read is an identity reply (42_controller.md R161). -/
abbrev IdentityReply : Prop := r.status = .okWithData ∧ r.cmd = (modelOf cfg c).idQuery

/-- An identity query stays in flight: no reply, no NOT_OK, and its wait is not over (42_controller.md R161, R163, R164). -/
abbrev Flies : Prop :=
  c.idInFlight = true ∧ ¬ IdentityReply cfg r c ∧ r.status ≠ .notOk ∧ (now - c.idSentAt).toNat < cfg.idWaitMs

/-- The next identity query is due (42_controller.md R167). -/
abbrev QueryDue : Prop :=
  (c.seqActive = false ∨ Aborts cfg now r c ∨ Commits cfg now r c) ∧ ¬ Flies cfg now r c
    ∧ (c.polled = false ∨ cfg.idIntervalMs ≤ (now - c.lastPollAt).toNat)

end

section
variable {cfg : Config} {now : Time} {r : ExchangeResult} {c : Controller}

theorem slotAfterRead_nak_eq : (slotAfterRead cfg now r c).nak = (ackAndNak cfg now r (telemetry cfg r (firstTick now c))).nak :=
  digest_nak cfg now r _

theorem slotAfterRead_ackPending_eq :
    (slotAfterRead cfg now r c).ackPending = (ackAndNak cfg now r (telemetry cfg r (firstTick now c))).ackPending := by
  unfold slotAfterRead digest; rw [identityStep_spec]

/-- The ack wait and the NAK count after the read, in terms of the slot before the tick (42_controller.md R159, R160, R185). -/
theorem slotAfterRead_ack :
    ((slotAfterRead cfg now r c).ackPending = true ↔ AckWaits r c ∧ ¬ (c.seqActive = true ∧ AckTimedOut cfg now r c))
      ∧ (Nakked cfg now r c → (slotAfterRead cfg now r c).nak = saturatingInc c.nak)
      ∧ (¬ Nakked cfg now r c → (slotAfterRead cfg now r c).nak = c.nak) := by
  have hkept := telemetry_firstTick_kept cfg now r c
  have hfields := ackAndNak_fields cfg now r (telemetry cfg r (firstTick now c))
  rw [slotAfterRead_ackPending_eq, slotAfterRead_nak_eq]
  simpa only [AckTimedOut, hkept.ackPending, hkept.seqActive, hkept.nak, hkept.ackSentAt] using hfields

/-- While a sequence runs, the NAK count after the read is above 0 exactly if the sequence is to be aborted (42_controller.md R165). -/
theorem slotAfterRead_nak_ne_zero (hseq : c.seqActive = true) : (slotAfterRead cfg now r c).nak ≠ 0 ↔ Aborts cfg now r c := by
  obtain ⟨-, hnakked, hnot⟩ := slotAfterRead_ack (cfg := cfg) (now := now) (r := r) (c := c)
  by_cases hn : Nakked cfg now r c
  · rw [hnakked hn]
    exact iff_of_true (saturatingInc_ne_zero _) ⟨hseq, .inl hn⟩
  · rw [hnot hn]
    exact ⟨fun h => ⟨hseq, .inr h⟩, fun h => h.2.resolve_left hn⟩

/-- The identity query's flag after the read (42_controller.md R161, R163, R164). -/
theorem slotAfterRead_inFlight : (slotAfterRead cfg now r c).idInFlight = true ↔ Flies cfg now r c := by
  have hid : ∀ d : Controller, d.idInFlight = c.idInFlight → d.idSentAt = c.idSentAt → d.model = c.model →
      ((identityStep cfg now r d).idInFlight = true ↔ Flies cfg now r c) := fun d hflag hsent hmodel => by
    have hm : modelOf cfg d = modelOf cfg c := by unfold modelOf; rw [hmodel]
    rw [identityStep_inFlight, hflag, hsent, hm]
  obtain ⟨hmodel, -, -, -, -, -, hflag, hsent⟩ := telemetry_firstTick_kept cfg now r c
  apply hid <;> rw [ackAndNak_spec] <;> assumption

/-- The follow-up queries are asked for by an identity reply to a power state other than On (42_controller.md R161). -/
theorem digestFollowUp_iff : digestFollowUp cfg now r (firstTick now c) = true ↔ IdentityReply cfg r c ∧ c.power ≠ .on := by
  obtain ⟨hmodel, hpower, -⟩ := telemetry_firstTick_kept cfg now r c
  have hm : modelOf cfg (telemetry cfg r (firstTick now c)) = modelOf cfg c := by unfold modelOf; rw [hmodel]
  unfold digestFollowUp wantsFollowUp isIdentityReply
  rw [ackAndNak_spec]
  simpa [Status.dataClass, hpower] using fun _ _ => by rw [← hm]; rfl

/-! ### SequenceStep -/

/-- The four things SequenceStep can do to the slot d that the read leaves, and which of the tick's events excludes which
(42_controller.md R165). -/
inductive SequenceOutcome (aborts sends commits waits : Prop) (now : Time) (d : Controller) : Controller → Prop
  | aborted (ha : aborts) (hs : ¬ sends) (hc : ¬ commits) :
      SequenceOutcome aborts sends commits waits now d { d with seqActive := false, mode := .undefined, ackPending := false }
  | sent (ha : ¬ aborts) (hs : sends) (hc : ¬ commits) (hw : ¬ waits) :
      SequenceOutcome aborts sends commits waits now d { d with seqIdx := d.seqIdx + 1, ackPending := true, ackSentAt := now }
  | committed (ha : ¬ aborts) (hs : ¬ sends) (hc : commits) (hw : ¬ waits) :
      SequenceOutcome aborts sends commits waits now d
        { d with seqActive := false, mode := d.target, verifyPending := true, verifyFrom := now }
  | idle (ha : ¬ aborts) (hs : ¬ sends) (hc : ¬ commits) : SequenceOutcome aborts sends commits waits now d d

/-- Unless the sequence is aborted, the ack wait after the read is the one that the message read does not end. -/
theorem slotAfterRead_ackPending (h : ¬ Aborts cfg now r c) : (slotAfterRead cfg now r c).ackPending = true ↔ AckWaits r c := by
  rw [slotAfterRead_ack.1]
  exact and_iff_left fun ⟨hseq, hover⟩ => h ⟨hseq, .inl ⟨hseq, .inr hover⟩⟩

theorem sequenceAfter_outcome :
    SequenceOutcome (Aborts cfg now r c) (SendsNext cfg now r c) (Commits cfg now r c) (AckWaits r c) now (slotAfterRead cfg now r c)
      (sequenceAfter now (slotAfterRead cfg now r c)) := by
  have hkept := slotAfterRead_kept cfg now r c
  have hstopped : ¬ GoesOn cfg now r c → ¬ SendsNext cfg now r c ∧ ¬ Commits cfg now r c := fun h => ⟨fun hs => h hs.1, fun hc => h hc.1⟩
  unfold sequenceAfter
  split
  next hseq =>
    rw [hkept.seqActive] at hseq
    have hnak := slotAfterRead_nak_ne_zero (cfg := cfg) (now := now) (r := r) hseq
    split
    next h =>
      obtain ⟨hs, hc⟩ := hstopped fun hg => hg.2.1 (hnak.mp h)
      exact .aborted (hnak.mp h) hs hc
    next h =>
      have hrun : ¬ Aborts cfg now r c := fun ha => h (hnak.mpr ha)
      split
      next hwait =>
        obtain ⟨hs, hc⟩ := hstopped fun hg => hg.2.2 ((slotAfterRead_ackPending hrun).mp hwait)
        exact .idle hrun hs hc
      next hwait =>
        rw [slotAfterRead_ackPending hrun] at hwait
        have hon : GoesOn cfg now r c := ⟨hseq, hrun, hwait⟩
        split
        next hlt =>
          rw [hkept.seqIdx, hkept.seq] at hlt
          exact .sent hrun ⟨hon, hlt⟩ (fun hc => absurd hlt (Nat.not_lt.mpr hc.2)) hwait
        next hlt =>
          rw [hkept.seqIdx, hkept.seq] at hlt
          exact .committed hrun (fun hs => hlt hs.2) ⟨hon, Nat.not_lt.mp hlt⟩ hwait
  next hseq =>
    rw [hkept.seqActive] at hseq
    obtain ⟨hs, hc⟩ := hstopped fun hg => hseq hg.1
    exact .idle (fun ha => hseq ha.1) hs hc

/-- The fields of the ack wait, the sequence, the mode and the verification's time after a tick: c is the slot before it, d after it
(42_controller.md R159, R160, R165). -/
structure SequenceFields (aborts sends commits waits : Prop) (now : Time) (c d : Controller) : Prop where
  ackPending : d.ackPending = true ↔ sends ∨ (waits ∧ ¬ aborts)
  sent : sends → d.ackSentAt = now ∧ d.seqIdx = c.seqIdx + 1
  notSent : ¬ sends → d.ackSentAt = c.ackSentAt ∧ d.seqIdx = c.seqIdx
  seqActive : d.seqActive = true ↔ c.seqActive = true ∧ ¬ aborts ∧ ¬ commits
  seq : d.seq = c.seq
  target : d.target = c.target
  modeAborted : aborts → d.mode = .undefined
  modeCommitted : commits → d.mode = c.target
  modeKept : ¬ aborts → ¬ commits → d.mode = c.mode
  verifyFromSet : commits → d.verifyFrom = now
  verifyFromKept : ¬ commits → d.verifyFrom = c.verifyFrom

theorem SequenceOutcome.fields {aborts sends commits waits : Prop} {b d : Controller}
    (h : SequenceOutcome aborts sends commits waits now b d) (hkept : ReadKept c b) (hack : ¬ aborts → (b.ackPending = true ↔ waits)) :
    SequenceFields aborts sends commits waits now c d := by
  obtain ⟨hactive, hseq, hidx, hmode, htarget, hsentAt, -, hfrom, -⟩ := hkept
  cases h with
  | aborted ha hs hc => constructor <;> simp [ha, hs, hc, hseq, hidx, htarget, hsentAt, hfrom]
  | sent ha hs hc hw => constructor <;> simp [ha, hs, hc, hseq, hidx, hmode, htarget, hfrom, hactive]
  | committed ha hs hc hw => constructor <;> simp [ha, hs, hc, hw, hack ha, hseq, hidx, htarget, hsentAt]
  | idle ha hs hc => constructor <;> simp [ha, hs, hc, hack ha, hseq, hidx, hmode, htarget, hsentAt, hfrom, hactive]

theorem SequenceOutcome.verifyPending {aborts sends commits waits : Prop} {b d : Controller}
    (h : SequenceOutcome aborts sends commits waits now b d) (hkept : ReadKept c b) :
    d.verifyPending = true ↔ commits ∨ c.verifyPending = true := by
  rw [← hkept.verifyPending]
  cases h with
  | aborted ha hs hc => simp [hc]
  | sent ha hs hc hw => simp [hc]
  | committed ha hs hc hw => simp [hc]
  | idle ha hs hc => simp [hc]

/-- The slot after SequenceStep: what the verification re-query and the identity poll find. -/
abbrev slotAfterSequence (cfg : Config) (now : Time) (r : ExchangeResult) (c : Controller) : Controller :=
  sequenceAfter now (slotAfterRead cfg now r c)

theorem slotAfterSequence_fields :
    SequenceFields (Aborts cfg now r c) (SendsNext cfg now r c) (Commits cfg now r c) (AckWaits r c) now c
      (slotAfterSequence cfg now r c) :=
  sequenceAfter_outcome.fields (slotAfterRead_kept cfg now r c) slotAfterRead_ackPending

theorem slotAfterSequence_verifyPending :
    (slotAfterSequence cfg now r c).verifyPending = true ↔ Commits cfg now r c ∨ c.verifyPending = true :=
  sequenceAfter_outcome.verifyPending (slotAfterRead_kept cfg now r c)

/-! ### The verification re-query and the identity poll -/

theorem verifyDue_iff : verifyDue cfg now (slotAfterSequence cfg now r c) = true ↔ Verifies cfg now r c := by
  have hfields := slotAfterSequence_fields (cfg := cfg) (now := now) (r := r) (c := c)
  unfold verifyDue
  rw [Bool.and_eq_true, atLeast_iff, slotAfterSequence_verifyPending]
  by_cases hc : Commits cfg now r c
  · rw [hfields.verifyFromSet hc, BitVec.sub_self]
    exact ⟨fun ⟨_, hdelay⟩ => .inl ⟨hc, Nat.le_zero.mp hdelay⟩,
      fun h => ⟨.inl hc, Nat.le_zero.mpr (h.resolve_right fun h => h.1 hc).2⟩⟩
  · rw [hfields.verifyFromKept hc, or_iff_right hc]
    exact ⟨fun h => .inr ⟨hc, h⟩, fun h => (h.resolve_left fun h => hc h.1).2⟩

/-- What the identity poll finds of its own fields: the query's flag as Identity leaves it, and its times as they were. -/
theorem slotAfterSequence_identity :
    let d := verifyAfter cfg now (slotAfterSequence cfg now r c)
    (d.idInFlight = true ↔ Flies cfg now r c) ∧ d.idSentAt = c.idSentAt ∧ d.polled = c.polled ∧ d.lastPollAt = c.lastPollAt := by
  obtain ⟨-, -, -, -, -, -, -, -, hsent, hpolled, hlast⟩ := slotAfterRead_kept cfg now r c
  dsimp only
  rw [verifyAfter_spec, slotAfterSequence, sequenceAfter_spec]
  exact ⟨slotAfterRead_inFlight, hsent, hpolled, hlast⟩

theorem pollDue_iff : pollDue cfg now (verifyAfter cfg now (slotAfterSequence cfg now r c)) = true ↔ QueryDue cfg now r c := by
  obtain ⟨hflag, -, hpolled, hlast⟩ := slotAfterSequence_identity (cfg := cfg) (now := now) (r := r) (c := c)
  have hactive : (verifyAfter cfg now (slotAfterSequence cfg now r c)).seqActive = true ↔
      c.seqActive = true ∧ ¬ Aborts cfg now r c ∧ ¬ Commits cfg now r c := by
    rw [verifyAfter_spec]; exact slotAfterSequence_fields.seqActive
  have hidle : (verifyAfter cfg now (slotAfterSequence cfg now r c)).seqActive = false ↔
      c.seqActive = false ∨ Aborts cfg now r c ∨ Commits cfg now r c := by
    rw [← Bool.not_eq_true, hactive, not_and_or, not_and_or, not_not, not_not, Bool.not_eq_true]
  have hlanded : (verifyAfter cfg now (slotAfterSequence cfg now r c)).idInFlight = false ↔ ¬ Flies cfg now r c := by
    rw [← Bool.not_eq_true, hflag]
  unfold pollDue
  simp only [Bool.and_eq_true, Bool.or_eq_true, Bool.not_eq_true', atLeast_iff, hpolled, hlast]
  rw [hidle, hlanded, and_assoc]

/-! ### The control fields after a tick -/

theorem saturatingInc_toNat (n : BitVec 8) : (saturatingInc n).toNat = min 255 (n.toNat + 1) := by
  have := n.isLt
  unfold saturatingInc
  split
  next h => obtain rfl : n = 255#8 := by simpa using h
            rfl
  next h =>
    have hne : n ≠ 255#8 := by simpa using h
    bv_omega

theorem slotAfterTick_nak : (slotAfterTick cfg now r c).nak = (slotAfterRead cfg now r c).nak := by
  unfold slotAfterTick; rw [pollAfter_spec, verifyAfter_spec, sequenceAfter_spec]

theorem slotAfterTick_fields :
    SequenceFields (Aborts cfg now r c) (SendsNext cfg now r c) (Commits cfg now r c) (AckWaits r c) now c (slotAfterTick cfg now r c) := by
  have h := slotAfterSequence_fields (cfg := cfg) (now := now) (r := r) (c := c)
  unfold slotAfterTick
  rw [pollAfter_spec, verifyAfter_spec]
  exact ⟨h.ackPending, h.sent, h.notSent, h.seqActive, h.seq, h.target, h.modeAborted, h.modeCommitted, h.modeKept, h.verifyFromSet,
    h.verifyFromKept⟩

theorem slotAfterTick_verifyPending : (slotAfterTick cfg now r c).verifyPending = true ↔
    (Commits cfg now r c ∨ c.verifyPending = true) ∧ ¬ Verifies cfg now r c := by
  unfold slotAfterTick
  rw [pollAfter_spec, ← verifyDue_iff, ← slotAfterSequence_verifyPending]
  show (verifyAfter cfg now (slotAfterSequence cfg now r c)).verifyPending = true ↔ _
  unfold verifyAfter
  split
  next h => simp [h]
  next h => simp [h]

/-- The identity query's fields after a tick (42_controller.md R161, R163, R164, R167). -/
theorem slotAfterTick_identity :
    ((slotAfterTick cfg now r c).idInFlight = true ↔ Flies cfg now r c ∨ QueryDue cfg now r c)
      ∧ (QueryDue cfg now r c → (slotAfterTick cfg now r c).idSentAt = now ∧ (slotAfterTick cfg now r c).polled = true
          ∧ (slotAfterTick cfg now r c).lastPollAt = now)
      ∧ (¬ QueryDue cfg now r c → (slotAfterTick cfg now r c).idSentAt = c.idSentAt ∧ (slotAfterTick cfg now r c).polled = c.polled
          ∧ (slotAfterTick cfg now r c).lastPollAt = c.lastPollAt) := by
  obtain ⟨hflag, htimes⟩ := slotAfterSequence_identity (cfg := cfg) (now := now) (r := r) (c := c)
  unfold slotAfterTick pollAfter
  by_cases hdue : QueryDue cfg now r c
  · rw [if_pos (pollDue_iff.mpr hdue)]
    exact ⟨iff_of_true rfl (.inr hdue), fun _ => ⟨rfl, rfl, rfl⟩, fun h => absurd hdue h⟩
  · rw [if_neg fun h => hdue (pollDue_iff.mp h)]
    exact ⟨hflag.trans (or_iff_left hdue).symm, fun h => absurd h hdue, fun _ => htimes⟩

end

/-! ### The commands of a tick -/

section
variable {cfg : Config} {now : Time} {r : ExchangeResult} {c : Controller}

/-- SequenceStep looks at the sequence's next command exactly if the sequence goes on (42_controller.md R165). -/
theorem goesOn_iff : ((slotAfterRead cfg now r c).seqActive = true ∧ (slotAfterRead cfg now r c).nak = 0
    ∧ (slotAfterRead cfg now r c).ackPending = false) ↔ GoesOn cfg now r c := by
  rw [(slotAfterRead_kept cfg now r c).seqActive]
  refine and_congr_right fun hseq => ?_
  have hnak := slotAfterRead_nak_ne_zero (cfg := cfg) (now := now) (r := r) hseq
  rw [← not_iff_not.mpr hnak, not_not]
  refine and_congr_right fun hzero => ?_
  rw [← Bool.not_eq_true, slotAfterRead_ackPending (mt hnak.mpr (not_not.mpr hzero))]

theorem sequenceCommand_of_sends (h : SendsNext cfg now r c) :
    sequenceCommand (slotAfterRead cfg now r c) = (c.seq[c.seqIdx]?).toList := by
  have hkept := slotAfterRead_kept cfg now r c
  rw [sequenceCommand, if_pos (goesOn_iff.mpr h.1), hkept.seq, hkept.seqIdx]

theorem sequenceCommand_of_not_sends (h : ¬ SendsNext cfg now r c) : sequenceCommand (slotAfterRead cfg now r c) = [] := by
  have hkept := slotAfterRead_kept cfg now r c
  unfold sequenceCommand
  split
  next hon =>
    have hend : c.seq.length ≤ c.seqIdx := Nat.not_lt.mp fun hlt => h ⟨goesOn_iff.mp hon, hlt⟩
    rw [hkept.seq, hkept.seqIdx, List.getElem?_eq_none hend]
    rfl
  next => rfl

/-- The commands a tick has to send: the sequence command, the follow-up queries, the verification re-query and the identity query
(42_controller.md R156). -/
theorem tickCommands_eq : tickCommands cfg now r c =
    sequenceCommand (slotAfterRead cfg now r c)
      ++ (if digestFollowUp cfg now r (firstTick now c) = true then [query cfg.catalog.freqQuery, query cfg.catalog.modeQuery] else [])
      ++ (if verifyDue cfg now (slotAfterSequence cfg now r c) = true then [query cfg.catalog.modeQuery] else [])
      ++ (if pollDue cfg now (verifyAfter cfg now (slotAfterSequence cfg now r c)) = true then [query (modelOf cfg c).idQuery] else []) := rfl

end

/-- Settles O47, from the control fields of the slot after a tick and the four parts of its commands. -/
theorem tickControlFields : Obligations.TickControlFields := by
  intro s k now hlive c idQuery
  obtain ⟨r, u, t, hexec, htick⟩ := exec_tick hlive now
  refine ⟨r, u, t, htick.read, hexec, ?_⟩
  obtain ⟨sent, hsub, htx, hall⟩ := htick.sent
  rw [htick.slot]
  intro d waits timedOut nakked aborts goesOn sends commits verifies reply flies due
  obtain ⟨-, hnak, hnakKept⟩ := slotAfterRead_ack (cfg := s.cfg) (now := now) (r := r) (c := c)
  obtain ⟨hflag, hset, hkept⟩ := slotAfterTick_identity (cfg := s.cfg) (now := now) (r := r) (c := c)
  have h : SequenceFields aborts sends commits waits now c d := slotAfterTick_fields
  have hd : d.nak = (slotAfterRead s.cfg now r c).nak := slotAfterTick_nak
  refine ⟨fun hn => ?_, fun hn => hd.trans (hnakKept hn), h.ackPending, h.sent, h.notSent, h.seqActive, h.seq, h.target, h.modeAborted,
    h.modeCommitted, h.modeKept, slotAfterTick_verifyPending, h.verifyFromSet, h.verifyFromKept, hflag, hset, hkept, _, _, _, _, sent,
    sequenceCommand_of_sends, sequenceCommand_of_not_sends, fun hr => if_pos (digestFollowUp_iff.mpr hr),
    fun hr => if_neg (mt digestFollowUp_iff.mp hr), fun hv => if_pos (verifyDue_iff.mpr hv), fun hv => if_neg (mt verifyDue_iff.mp hv),
    fun hq => if_pos (pollDue_iff.mpr hq), fun hq => if_neg (mt pollDue_iff.mp hq), htx, hsub, hall⟩
  rw [hd, hnak hn, saturatingInc_toNat]

/-- A NOT_OK leaves a tick with no command but the queries that are due (42_controller.md R176). -/
theorem tickCommands_of_nakked {cfg : Config} {now : Time} {r : ExchangeResult} {c : Controller} (hseq : c.seqActive = true)
    (hr : r.status = .notOk) :
    (tickCommands cfg now r c).Sublist [query cfg.catalog.modeQuery, query (modelOf cfg c).idQuery] := by
  have hstopped : ¬ SendsNext cfg now r c := fun hs => hs.1.2.1 ⟨hseq, .inl ⟨hseq, .inl hr⟩⟩
  have hnoReply : ¬ digestFollowUp cfg now r (firstTick now c) = true := fun hf => by
    cases hr.symm.trans (digestFollowUp_iff.mp hf).1.1
  have honly : ∀ (p : Prop) [Decidable p] (q : Command), (if p then [q] else []).Sublist [q] := fun p _ q => by
    split
    · exact .refl _
    · exact List.nil_sublist _
  rw [tickCommands_eq, sequenceCommand_of_not_sends hstopped, if_neg hnoReply]
  exact (honly _ _).append (honly _ _)

/-- Settles O50: a NOT_OK while a sequence runs aborts it, whatever its step. -/
theorem nakAbortsSequence : Obligations.NakAbortsSequence := by
  intro s k now r u hlive hseq hread hr
  obtain ⟨r', u', t, hexec, htick⟩ := exec_tick hlive now
  obtain ⟨rfl, rfl⟩ : r' = r ∧ u' = u := by simpa [hread] using htick.read.symm
  have haborts : Aborts s.cfg now r' (s.ctl k.toNat) := ⟨hseq, .inl ⟨hseq, .inl hr⟩⟩
  have hstopped : ¬ SendsNext s.cfg now r' (s.ctl k.toNat) := fun hs => hs.1.2.1 haborts
  have h := slotAfterTick_fields (cfg := s.cfg) (now := now) (r := r') (c := s.ctl k.toNat)
  obtain ⟨sent, hsub, htx, -⟩ := htick.sent
  refine ⟨_, hexec, ?_, ?_, ?_, ?_, sent, hsub.trans (tickCommands_of_nakked hseq hr), htx⟩ <;> rw [htick.slot]
  · exact h.modeAborted haborts
  · exact Bool.eq_false_iff.mpr fun hrun => (h.seqActive.mp hrun).2.1 haborts
  · exact Bool.eq_false_iff.mpr fun hwait => (h.ackPending.mp hwait).elim hstopped fun hw => hw.2 haborts
  · exact (h.notSent hstopped).2

/-! ### A run of ticks on a quiet bus -/

/-- Slot k is live and nothing will come for it: no byte waits or is to come, the line has no echo, and no message of the slot's address is
buffered (42_controller.md R184). -/
structure SilentSlot (k : Byte) (s : State) : Prop where
  live : SlotLive k s
  stream : stream s = []
  loopback : s.loopback = false
  unbuffered : ∀ e ∈ s.pend, e.src ≠ (s.ctl k.toNat).addr

/-- The slot after a tick that reads no message. -/
def slotAfterSilentTick (cfg : Config) (now : Time) (c : Controller) : Controller := slotAfterTick cfg now (noMessage cfg) c

/-- The slot after a run of ticks that read no message. -/
def slotAfterSilentTicks (cfg : Config) (times : List Time) (c : Controller) : Controller :=
  times.foldl (fun c now => slotAfterSilentTick cfg now c) c

/-- A tick of a silent slot reads no message, and leaves the slot silent. -/
theorem SilentSlot.tick {k : Byte} {s : State} (h : SilentSlot k s) (now : Time) :
    ∃ t, exec (.tick k now) s = .next t ∧ t.ctl k.toNat = slotAfterSilentTick s.cfg now (s.ctl k.toNat) ∧ t.cfg = s.cfg ∧ SilentSlot k t := by
  obtain ⟨r, u, t, hexec, htick⟩ := exec_tick h.live now
  have hfind : pendFind (s.ctl k.toNat).addr (s.modCtl k.toNat (firstTick now)) = none := pendFind_eq_none h.unbuffered
  obtain ⟨u', hread, hmoved, hempty⟩ := readFor_quiet (a := (s.ctl k.toNat).addr) (s := s.modCtl k.toNat (firstTick now)) h.stream hfind
  obtain ⟨rfl, rfl⟩ : noMessage s.cfg = r ∧ u' = u := by simpa [hread] using htick.read
  obtain ⟨-, hstream, hpend, -⟩ := htick.writes.silent hempty (hmoved.loopback.trans h.loopback)
  have hkeeps : TickKeeps (s.ctl k.toNat) (t.ctl k.toNat) := htick.slot ▸ slotAfterTick_keeps ..
  refine ⟨_, hexec, htick.slot, htick.moved.cfg, ⟨?_, ?_⟩, hstream, htick.moved.loopback.trans h.loopback, fun e he => ?_⟩
  · exact htick.moved.cfg ▸ h.live.1
  · exact hkeeps.live.trans h.live.2
  · have hmem : e ∈ s.pend := by rw [← show t.pend = s.pend from hpend.trans hmoved.pend]; exact he
    exact hkeeps.addr ▸ h.unbuffered e hmem

/-- A run of ticks of a silent slot does to it what `slotAfterSilentTicks` says. -/
theorem SilentSlot.tickRun {k : Byte} {s : State} (h : SilentSlot k s) (times : List Time) :
    ∃ t, tickRun k times s = some t ∧ t.ctl k.toNat = slotAfterSilentTicks s.cfg times (s.ctl k.toNat) := by
  induction times generalizing s with
  | nil => exact ⟨s, rfl, rfl⟩
  | cons now rest ih =>
    obtain ⟨t, hexec, hslot, hcfg, hsilent⟩ := h.tick now
    obtain ⟨t', hrun, hslot'⟩ := ih hsilent
    refine ⟨t', by simp only [Machine.tickRun, hexec, hrun], ?_⟩
    rw [hslot', hslot, hcfg]; rfl

/-- A property of the slot that every tick of a silent run keeps holds after the run. -/
theorem slotAfterSilentTicks_induction {cfg : Config} {P : Controller → Prop} {times : List Time} {c : Controller}
    (hstep : ∀ now ∈ times, ∀ d, P d → P (slotAfterSilentTick cfg now d)) (hc : P c) : P (slotAfterSilentTicks cfg times c) := by
  induction times generalizing c with
  | nil => exact hc
  | cons now rest ih =>
    exact ih (fun x hx => hstep x (List.mem_cons_of_mem _ hx)) (hstep now List.mem_cons_self c hc)

/-! ### The power state of a silent slot -/

theorem noMessage_status (cfg : Config) : (noMessage cfg).status = .noMessage := rfl

/-- With no message read, only an identity timeout changes the power state (42_controller.md R164). -/
theorem slotAfterSilentTick_power (cfg : Config) (now : Time) (c : Controller) :
    (slotAfterSilentTick cfg now c).power =
      if c.idInFlight = true ∧ cfg.idWaitMs ≤ (now - c.idSentAt).toNat then
        if (now - c.lastPowerOnAt.getD now).toNat < (modelOf cfg c).bootWindow then .offTransitioning else .off
      else c.power := by
  simp [slotAfterSilentTick, slotAfterTick_power_eq, noMessage_status]

/-- The slot remembers t0 as its power-on time, and its model's boot window is w long: what no tick changes. -/
def Booted (cfg : Config) (t0 : Time) (w : Nat) (c : Controller) : Prop :=
  c.lastPowerOnAt = some t0 ∧ (modelOf cfg c).bootWindow = w

theorem booted_first_tick {cfg : Config} {c : Controller} (t0 : Time) (h : c.lastPowerOnAt = none) :
    Booted cfg t0 (modelOf cfg c).bootWindow (slotAfterSilentTick cfg t0 c) :=
  ⟨by simp [slotAfterSilentTick, slotAfterTick_lastPowerOnAt_eq, h], by rw [slotAfterSilentTick, slotAfterTick_modelOf]⟩

theorem Booted.tick {cfg : Config} {t0 : Time} {w : Nat} {c : Controller} (h : Booted cfg t0 w c) (now : Time) :
    Booted cfg t0 w (slotAfterSilentTick cfg now c) := by
  obtain ⟨hstart, hwindow⟩ := h
  exact ⟨by simp [slotAfterSilentTick, slotAfterTick_lastPowerOnAt_eq, hstart], by rw [slotAfterSilentTick, slotAfterTick_modelOf, hwindow]⟩

/-- The power state after a silent tick: an identity timeout inside the boot window is OffTransitioning, one outside it Off, and any other
tick leaves it (42_controller.md R164). -/
theorem Booted.power {cfg : Config} {t0 : Time} {w : Nat} {c : Controller} (h : Booted cfg t0 w c) (now : Time) :
    (slotAfterSilentTick cfg now c).power =
      if c.idInFlight = true ∧ cfg.idWaitMs ≤ (now - c.idSentAt).toNat then
        if (now - t0).toNat < w then .offTransitioning else .off
      else c.power := by
  obtain ⟨hstart, hwindow⟩ := h
  rw [slotAfterSilentTick_power, hstart, hwindow]; rfl

/-- The power state is Unknown or OffTransitioning: what it is from creation until the boot window ends, if nothing answers. -/
def NotYetOff (c : Controller) : Prop := c.power = .unknown ∨ c.power = .offTransitioning

/-- Inside the window no silent tick makes the power state Off. -/
theorem Booted.notYetOff {cfg : Config} {t0 now : Time} {w : Nat} {c : Controller} (h : Booted cfg t0 w c) (hin : (now - t0).toNat < w)
    (hpower : NotYetOff c) : NotYetOff (slotAfterSilentTick cfg now c) := by
  unfold NotYetOff
  rw [h.power now, if_pos hin]
  split
  · exact .inr rfl
  · exact hpower

/-- Outside the window no silent tick makes the power state anything but Off. -/
theorem Booted.off {cfg : Config} {t0 now : Time} {w : Nat} {c : Controller} (h : Booted cfg t0 w c) (hout : w ≤ (now - t0).toNat)
    (hpower : c.power = .off) : (slotAfterSilentTick cfg now c).power = .off := by
  rw [h.power now, if_neg (Nat.not_lt.mpr hout)]
  split
  · rfl
  · exact hpower

/-! ### The identity query of a silent slot -/

theorem slotAfterSilentTick_seqActive {cfg : Config} {now : Time} {c : Controller} (hseq : c.seqActive = false) :
    (slotAfterSilentTick cfg now c).seqActive = false := by
  rw [← Bool.not_eq_true, slotAfterSilentTick, slotAfterTick_fields.seqActive, hseq]
  exact fun h => Bool.false_ne_true h.1

/-- With no message read, only the end of its wait takes a query out of flight (42_controller.md R164). -/
theorem flies_noMessage_iff (cfg : Config) (now : Time) (c : Controller) :
    Flies cfg now (noMessage cfg) c ↔ c.idInFlight = true ∧ (now - c.idSentAt).toNat < cfg.idWaitMs := by
  simp [Flies, noMessage_status]

/-- With no sequence running, the next query is due once none is in flight and the interval is over (42_controller.md R167). -/
theorem queryDue_iff_of_idle {cfg : Config} {now : Time} {r : ExchangeResult} {c : Controller} (hseq : c.seqActive = false) :
    QueryDue cfg now r c ↔ ¬ Flies cfg now r c ∧ (c.polled = false ∨ cfg.idIntervalMs ≤ (now - c.lastPollAt).toNat) :=
  and_iff_right (.inl hseq)

/-- The time x ms after t0 (00_scope.md R17). -/
def timeAt (t0 : Time) (x : Nat) : Time := t0 + BitVec.ofNat 32 x

theorem timeAt_zero (t0 : Time) : timeAt t0 0 = t0 := BitVec.add_zero t0

theorem timeAt_sub_timeAt {p x : Nat} (t0 : Time) (hp : p ≤ x) (hx : x < 2 ^ 32) : (timeAt t0 x - timeAt t0 p).toNat = x - p := by
  unfold timeAt; bv_omega

theorem timeAt_sub_start {x : Nat} (t0 : Time) (hx : x < 2 ^ 32) : (timeAt t0 x - t0).toNat = x := by
  simpa [timeAt_zero] using timeAt_sub_timeAt t0 (Nat.zero_le x) hx

/-- No sequence runs, and the slot's last identity query was sent p ms after t0. -/
structure QueriedAt (t0 : Time) (p : Nat) (c : Controller) : Prop where
  idle : c.seqActive = false
  polled : c.polled = true
  sentAt : c.idSentAt = timeAt t0 p
  pollAt : c.lastPollAt = timeAt t0 p

/-- A tick at which the query is due sends it. -/
theorem queriedAt_of_due {cfg : Config} {t0 : Time} {x : Nat} {c : Controller} (hidle : c.seqActive = false)
    (hdue : QueryDue cfg (timeAt t0 x) (noMessage cfg) c) :
    QueriedAt t0 x (slotAfterSilentTick cfg (timeAt t0 x) c) ∧ (slotAfterSilentTick cfg (timeAt t0 x) c).idInFlight = true := by
  obtain ⟨hflag, hset, -⟩ := slotAfterTick_identity (cfg := cfg) (now := timeAt t0 x) (r := noMessage cfg) (c := c)
  obtain ⟨hsent, hpolled, hlast⟩ := hset hdue
  exact ⟨⟨slotAfterSilentTick_seqActive hidle, hpolled, hsent, hlast⟩, hflag.mpr (.inr hdue)⟩

/-- A tick at which no query is due keeps the last one's time. -/
theorem QueriedAt.of_not_due {cfg : Config} {t0 now : Time} {p : Nat} {c : Controller} (h : QueriedAt t0 p c)
    (hdue : ¬ QueryDue cfg now (noMessage cfg) c) : QueriedAt t0 p (slotAfterSilentTick cfg now c)
      ∧ ((slotAfterSilentTick cfg now c).idInFlight = true ↔ Flies cfg now (noMessage cfg) c) := by
  obtain ⟨hflag, -, hkeep⟩ := slotAfterTick_identity (cfg := cfg) (now := now) (r := noMessage cfg) (c := c)
  obtain ⟨hsent, hpolled, hlast⟩ := hkeep hdue
  exact ⟨⟨slotAfterSilentTick_seqActive h.idle, hpolled.trans h.polled, hsent.trans h.sentAt, hlast.trans h.pollAt⟩,
    hflag.trans (or_iff_left hdue)⟩

/-! ### The way to Off -/

/-- Where a slot that nothing answers stands at a tick x ms after t0, w being the length of its boot window: it is Off outside the window;
or a query is in flight, sent at the latest one interval and one wait after the window's end; or the last query timed out inside the window and
the interval is not over. -/
inductive OnTheWayOff (cfg : Config) (t0 : Time) (w x : Nat) (c : Controller) : Prop
  | off (hpower : c.power = .off) (hout : w ≤ x)
  | asked (p : Nat) (hq : QueriedAt t0 p c) (hpx : p ≤ x) (hflag : c.idInFlight = true) (hx : x < p + cfg.idWaitMs)
      (hp : p < w + cfg.idIntervalMs + cfg.idWaitMs)
  | between (p : Nat) (hq : QueriedAt t0 p c) (hpx : p ≤ x) (hflag : c.idInFlight = false) (hx : x < p + cfg.idIntervalMs) (hp : p < w)

/-- With no query in flight and the last one sent inside the window, a tick sends the next one if it is due, or waits for it. -/
theorem onTheWayOff_of_landed {cfg : Config} {t0 : Time} {w p y : Nat} {c : Controller} (hq : QueriedAt t0 p c) (hpy : p ≤ y)
    (hlast : y < 2 ^ 32) (hwait : 0 < cfg.idWaitMs) (hflies : ¬ Flies cfg (timeAt t0 y) (noMessage cfg) c) (hp : p < w)
    (hy : cfg.idIntervalMs ≤ y - p → y < w + cfg.idIntervalMs + cfg.idWaitMs) :
    OnTheWayOff cfg t0 w y (slotAfterSilentTick cfg (timeAt t0 y) c) := by
  have hdue : QueryDue cfg (timeAt t0 y) (noMessage cfg) c ↔ cfg.idIntervalMs ≤ y - p := by
    rw [queryDue_iff_of_idle hq.idle, hq.polled, hq.pollAt, timeAt_sub_timeAt t0 hpy hlast]
    simp [hflies]
  by_cases hover : cfg.idIntervalMs ≤ y - p
  · obtain ⟨hq', hflag⟩ := queriedAt_of_due hq.idle (hdue.mpr hover)
    exact .asked y hq' le_rfl hflag (by omega) (hy hover)
  · obtain ⟨hq', hflag⟩ := hq.of_not_due (mt hdue.mp hover)
    exact .between p hq' hpy (by rw [← Bool.not_eq_true, hflag]; exact hflies) (by omega) hp

/-- A tick less than one wait after the one before keeps the slot on its way. -/
theorem OnTheWayOff.tick {cfg : Config} {t0 : Time} {w x y : Nat} {c : Controller} (h : OnTheWayOff cfg t0 w x c) (hboot : Booted cfg t0 w c)
    (hxy : x ≤ y) (hstep : y < x + cfg.idWaitMs) (hlast : y < 2 ^ 32) :
    OnTheWayOff cfg t0 w y (slotAfterSilentTick cfg (timeAt t0 y) c) := by
  have hwait : 0 < cfg.idWaitMs := by omega
  have hstart := timeAt_sub_start t0 hlast
  cases h with
  | off hpower hout => exact .off (hboot.off (by omega) hpower) (by omega)
  | asked p hq hpx hflag hx hp =>
    have helapsed : (timeAt t0 y - c.idSentAt).toNat = y - p := by rw [hq.sentAt, timeAt_sub_timeAt t0 (hpx.trans hxy) hlast]
    have hflies : Flies cfg (timeAt t0 y) (noMessage cfg) c ↔ y - p < cfg.idWaitMs := by
      rw [flies_noMessage_iff, helapsed]; exact and_iff_right hflag
    by_cases hover : y - p < cfg.idWaitMs
    · obtain ⟨hq', hflag'⟩ := hq.of_not_due fun hdue => hdue.2.1 (hflies.mpr hover)
      exact .asked p hq' (hpx.trans hxy) (hflag'.mpr (hflies.mpr hover)) (by omega) hp
    · by_cases hin : y < w
      · exact onTheWayOff_of_landed hq (hpx.trans hxy) hlast hwait (mt hflies.mp hover) (by omega) (by omega)
      · refine .off ?_ (Nat.not_lt.mp hin)
        rw [hboot.power, if_pos ⟨hflag, by omega⟩, if_neg (by omega)]
  | between p hq hpx hflag hx hp =>
    exact onTheWayOff_of_landed hq (hpx.trans hxy) hlast hwait (fun hf => Bool.false_ne_true (hflag.symm.trans hf.1)) hp (by omega)

/-- An interval and two waits after the end of the window, nothing but Off is left. -/
theorem OnTheWayOff.power_eq_off {cfg : Config} {t0 : Time} {w x : Nat} {c : Controller} (h : OnTheWayOff cfg t0 w x c)
    (hx : w + cfg.idIntervalMs + 2 * cfg.idWaitMs ≤ x) : c.power = .off := by
  cases h with
  | off hpower => exact hpower
  | asked => omega
  | between => omega

/-- The first tick after a slot's creation sends the first query (42_controller.md R157, R167). -/
theorem onTheWayOff_first_tick {cfg : Config} {c : Controller} (t0 : Time) {w : Nat} (hflag : c.idInFlight = false) (hpolled : c.polled = false)
    (hidle : c.seqActive = false) (hwait : 0 < cfg.idWaitMs) : OnTheWayOff cfg t0 w 0 (slotAfterSilentTick cfg (timeAt t0 0) c) := by
  obtain ⟨hq, hflag'⟩ := queriedAt_of_due (cfg := cfg) (t0 := t0) (x := 0) hidle
    ((queryDue_iff_of_idle hidle).mpr ⟨fun hf => Bool.false_ne_true (hflag.symm.trans hf.1), .inl hpolled⟩)
  exact .asked 0 hq le_rfl hflag' (by omega) (by omega)

/-- Each time is at most the last one of a chain that does not fall. -/
theorem le_last_of_isChain {d x last : Nat} {later : List Nat}
    (h : (x :: later ++ [last]).IsChain fun before after => before ≤ after ∧ after < before + d) : x ≤ last := by
  have hmono : (x :: later ++ [last]).Pairwise (· ≤ ·) := (h.imp fun _ _ hab => hab.1).pairwise
  exact (List.pairwise_cons.mp hmono).1 last (by simp)

/-- A chain of at least two times, each less than d after the one before, leaves room between them. -/
theorem pos_of_isChain {d x last : Nat} {later : List Nat}
    (h : (x :: later ++ [last]).IsChain fun before after => before ≤ after ∧ after < before + d) : 0 < d := by
  obtain ⟨y, rest, hlist⟩ := List.exists_cons_of_ne_nil (List.concat_ne_nil last later)
  rw [List.cons_append, hlist] at h
  obtain ⟨⟨hle, hlt⟩, -⟩ := List.isChain_cons_cons.mp h
  omega

/-- A run of ticks, each less than one wait after the one before, keeps the slot on its way. -/
theorem OnTheWayOff.ticks {cfg : Config} {t0 : Time} {w x last : Nat} {later : List Nat} {c : Controller} (h : OnTheWayOff cfg t0 w x c)
    (hboot : Booted cfg t0 w c)
    (hsteps : (x :: later ++ [last]).IsChain fun before after => before ≤ after ∧ after < before + cfg.idWaitMs) (hlast : last < 2 ^ 32) :
    OnTheWayOff cfg t0 w last (slotAfterSilentTicks cfg ((later ++ [last]).map (timeAt t0)) c) := by
  induction later generalizing x c with
  | nil =>
    obtain ⟨hxy, hstep⟩ := List.isChain_pair.mp hsteps
    exact h.tick hboot hxy hstep hlast
  | cons y rest ih =>
    obtain ⟨⟨hxy, hstep⟩, hrest⟩ := List.isChain_cons_cons.mp hsteps
    exact ih (h.tick hboot hxy hstep ((le_last_of_isChain hrest).trans_lt hlast)) (hboot.tick _) hrest

/-- Settles O51. On a quiet bus the slot is silent, so a run of ticks is a fold over the slot alone: (a) and (c) are invariants of that fold,
(b) is one tick of it, and (d) follows the identity query until it times out outside the window. -/
theorem bootWindowOnQuietBus : Obligations.BootWindowOnQuietBus := by
  intro s k hlive hquiet hrx hpend c window
  have hsilent : SilentSlot k s := ⟨hlive, stream_eq_nil hrx hquiet.1, hquiet.2, hpend⟩
  refine ⟨fun t0 later hpower hfresh hflag hin => ?_, fun t0 now hstart hflag hover => ?_, fun t0 later hstart hpower hout => ?_,
    fun t0 later last hpower hfresh hflag hpolled hidle hsteps hlong hlast => ?_⟩
  · obtain ⟨t, hrun, hslot⟩ := hsilent.tickRun (t0 :: later)
    refine ⟨t, hrun, ?_⟩
    have hfirst : NotYetOff (slotAfterSilentTick s.cfg t0 c) := by
      refine .inl ?_
      rw [slotAfterSilentTick_power, hflag, if_neg (by simp), hpower]
    rw [hslot]
    exact (slotAfterSilentTicks_induction (P := fun d => Booted s.cfg t0 window d ∧ NotYetOff d)
      (fun now hnow d hd => ⟨hd.1.tick now, hd.1.notYetOff (hin now hnow) hd.2⟩) ⟨booted_first_tick t0 hfresh, hfirst⟩).2
  · obtain ⟨t, hrun, hslot⟩ := hsilent.tickRun [now]
    have hboot : Booted s.cfg t0 window c := ⟨hstart, rfl⟩
    refine ⟨t, hrun, ?_⟩
    rw [hslot]
    exact (hboot.power now).trans (if_pos ⟨hflag, hover⟩)
  · obtain ⟨t, hrun, hslot⟩ := hsilent.tickRun later
    refine ⟨t, hrun, ?_⟩
    rw [hslot]
    exact (slotAfterSilentTicks_induction (P := fun d => Booted s.cfg t0 window d ∧ d.power = .off)
      (fun now hnow d hd => ⟨hd.1.tick now, hd.1.off (hout now hnow) hd.2⟩) ⟨⟨hstart, rfl⟩, hpower⟩).2
  · obtain ⟨t, hrun, hslot⟩ := hsilent.tickRun ((0 :: later ++ [last]).map (timeAt t0))
    refine ⟨t, hrun, ?_⟩
    have hwait := pos_of_isChain hsteps
    have hboot : Booted s.cfg t0 window (slotAfterSilentTick s.cfg (timeAt t0 0) c) := by
      rw [timeAt_zero]; exact booted_first_tick t0 hfresh
    rw [hslot]
    exact ((onTheWayOff_first_tick t0 hflag hpolled hidle hwait).ticks hboot hsteps hlast).power_eq_off hlong

end Sys2Proof.Machine

/-! Reset, of the block and of one controller slot, and the hazard of a Fast write's echo (70_reset_and_hazards.md R223 to R225, R239). -/

namespace Sys2Proof.Machine

/-! ### The echo of a Fast write -/

/-- The receive state machine never completes a frame whose destination is neither `ADDR_ALL` nor `ADDR_MASTER`: the destination takes it
back to Idle (40_receive.md R109), and no START follows. -/
theorem fsmRun_other_destination {cfg : Config} {dst : Byte} {behind : List Byte} (hdst : dst ≠ 0xFE#8) (hall : dst ≠ cfg.addrAll)
    (hmaster : dst ≠ cfg.addrMaster) (hstart : 0xFE#8 ∉ behind) : fsmRun cfg ([0xFE, 0xFE, dst] ++ behind) = (.idle, []) := by
  have hheader : fsmFrom cfg (.idle, []) [0xFE, 0xFE, dst] = (.idle, []) := by
    simp [rxStep_idle, rxStep_sync, rxStep_collect, hdst, hall, hmaster]
  rw [fsmRun, fsmFrom_append, hheader]
  exact fsmRun_of_no_start cfg hstart

/-- READ_RAW with nothing to come behind bytes that complete no frame discards them, and answers `NOMSG` after a full window
(40_receive.md R105). -/
theorem exec_readRaw_noFrame {s : State} (hna : NothingArrives s) (hnone : (fsmRun s.cfg s.rx).1 ≠ .stop) :
    ∃ u : State, exec .readRaw s = .next (u.respond (encodeResult ⟨.noMessage, s.cfg.addrNone, [], [], 0⟩))
      ∧ u.rx = [] ∧ u.polls = s.polls + s.cfg.readPollLimit := by
  obtain ⟨r, u, p, hexec, -, hstream, -, -, hend⟩ := readRawRunsTheMachine s
  rw [stream, hna, List.append_nil] at hstream
  rcases hend with ⟨-, -, -, -, hstop, -⟩ | ⟨-, rfl, hrx, hpolls⟩
  · exact absurd hstop (fsmRun_ne_stop_of_isPrefix hnone ⟨stream u, hstream.symm⟩)
  · exact ⟨u, hexec, hrx, hpolls⟩

/-- The echo of a frame to a radio completes no frame (70_reset_and_hazards.md R239). -/
theorem fsmRun_frame_to_radio {cfg : Config} {a : Byte} {cmd data : List Byte} (haccepted : WriteAccepted cfg a cmd data)
    (hcfg : cfg.wellFormed = true) (hall : a ≠ cfg.addrAll) (hmaster : a ≠ cfg.addrMaster) :
    (fsmRun cfg (frame cfg a cmd data)).1 ≠ .stop := by
  obtain ⟨hvalid, hframing, -⟩ := haccepted
  obtain ⟨-, -, -, -, -, hstart, -⟩ := (wireValid_iff _ _ _).mp hvalid
  have hsrc := ((isFraming_eq_false _).mp (wellFormed_addresses hcfg).2).1
  have hbehind : 0xFE#8 ∉ cfg.addrMaster :: (cmd ++ data) ++ [0xFD#8] := by
    simpa [hsrc.symm] using hstart
  have hrun := fsmRun_other_destination ((isFraming_eq_false a).mp hframing).1 hall hmaster hbehind
  have hframe : frame cfg a cmd data = [0xFE, 0xFE, a] ++ (cfg.addrMaster :: (cmd ++ data) ++ [0xFD#8]) := by
    simp [frame, rawFrame, startByte, stopByte]
  rw [hframe, hrun]
  simp

/-- READ_RAW delivers a waiting frame of this block's own to an accepted destination as one from `ADDR_MASTER`
(70_reset_and_hazards.md R239). -/
theorem exec_readRaw_own_frame {s : State} {a : Byte} {cmd data : List Byte} (haccepted : WriteAccepted s.cfg a cmd data)
    (hcfg : s.cfg.wellFormed = true) (hdst : a = s.cfg.addrAll ∨ a = s.cfg.addrMaster) (hna : NothingArrives s)
    (hrx : s.rx = frame s.cfg a cmd data) :
    ∃ (r : ExchangeResult) (u : State), exec .readRaw s = .next (u.respond (encodeResult r)) ∧ r.src = s.cfg.addrMaster ∧ r.cmd = cmd
      ∧ r.data = data ∧ u.rx = [] ∧ u.polls = s.polls := by
  obtain ⟨hlength, hcmd, hok, hnok, hdata, hstart, hstop⟩ := (wireValid_iff _ _ _).mp haccepted.1
  obtain ⟨hsrc, hsrc'⟩ := (isFraming_eq_false _).mp (wellFormed_addresses hcfg).2
  obtain ⟨r, u, hexec, hr, hrcmd, hrdata, -, -, -, hpolls, hstream⟩ := wireRoundTrip s a s.cfg.addrMaster cmd data [] hcfg hlength hcmd hok
    hnok hdata hstart hstop hdst hsrc hsrc' (by rw [hrx, List.append_nil]; rfl)
  exact ⟨r, u, hexec, hr, hrcmd, hrdata, (rx_nil_of_stream (hstream.trans hna)).1, hpolls⟩

/-- With the pending buffer full and nothing to come, a write over waiting bytes answers BUS_BUSY, leaves them there and transmits nothing
(41_bus_ops.md R142). -/
theorem exec_writeOp_full {mode : WriteMode} {a : Byte} {cmd data : List Byte} {s : State} (haccepted : WriteAccepted s.cfg a cmd data)
    (hfull : s.pend.length = s.cfg.pendingCap) (hna : NothingArrives s) (hrx : s.rx ≠ []) :
    ∃ u : State, exec (writeOp mode a cmd data) s = .next (u.respond (encodeResult ⟨.busBusy, s.cfg.addrNone, cmd, [], 0⟩))
      ∧ u.rx = s.rx ∧ u.tx = s.tx := by
  have hsame : (busAct (busAct s)).rx = s.rx := (busAct_rx_quiet (nothingArrives_busAct hna)).trans (busAct_rx_quiet hna)
  obtain ⟨hexec, htx⟩ := (writeBusBusy mode a cmd data s haccepted).1 _ (drain_full hfull) (by rwa [hsame])
  exact ⟨_, hexec, hsame, htx⟩

/-- Settles O31: the Fast write leaves its frame in `RX` with nothing behind it, and each case is what an operation does with such a
frame. -/
theorem fastEchoHazard : Obligations.FastEchoHazard := by
  intro a cmd data s haccepted hcfg hrx ⟨hquiet, hecho⟩
  obtain ⟨t, hexec, hmoved, hpend, -, -, htrx, hna⟩ := fastWriteOnQuietBus a cmd data s haccepted hrx hquiet
  replace htrx : t.rx = frame s.cfg a cmd data := htrx.trans (if_pos hecho)
  have hwaits : frame s.cfg a cmd data ≠ [] := by simp [frame, rawFrame]
  rw [← hmoved.cfg] at haccepted hcfg htrx hexec hwaits ⊢
  refine ⟨_, hexec, htrx, fun hall hmaster => ?_, fun hdst => ?_, fun hfull mode a' cmd' data' haccepted' => ?_⟩
  · exact exec_readRaw_noFrame hna (htrx ▸ fsmRun_frame_to_radio haccepted hcfg hall hmaster)
  · exact exec_readRaw_own_frame haccepted hcfg hdst hna htrx
  · exact exec_writeOp_full haccepted' (hpend ▸ hfull) hna (htrx ▸ hwaits)

/-! ### The creation of a controller -/

/-- The operands that pass the checks of CTRL_CREATE (42_controller.md R153). -/
theorem createRefusal_of_accepted {k a md : Byte} {s : State} (hindex : k.toNat < s.cfg.maxControllers)
    (hlive : (s.ctl k.toNat).live = false) (hmodel : md.toNat < s.cfg.models.length) (hframing : isFraming a = false)
    (hreserved : isReservedAddress s.cfg a = false) : createRefusal k a md s = none := by
  refine firstReason_eq_none_iff.mpr ?_
  simp [controllerAddressChecks, indexOutOfRange, hindex, hlive, hmodel, hframing, hreserved]

/-- Settles O36: the slot is written and the address registered, neither of which the other touches. -/
theorem controllerCreation : Obligations.ControllerCreation := by
  intro s k a md hindex hslots hlive hmodel hframing hreserved
  have hk : k.toNat < s.ctrl.length := hslots ▸ hindex
  have hnone : a ≠ s.cfg.addrNone := by rintro rfl; simp [isReservedAddress] at hreserved
  refine ⟨registerAddress a (s.setCtl k.toNat (createdController a md.toNat)), ?_, ?_, ?_, fun j hj => ?_, ?_, fun hroom => ?_⟩
  · exact congrArg (unlessRefused · s _) (createRefusal_of_accepted hindex hlive hmodel hframing hreserved)
  · rw [registerAddress_ctl, State.ctl_setCtl_self s _ _ hk]; rfl
  · rw [registerAddress_ctrl]; rfl
  · rw [registerAddress_ctl, State.ctl_setCtl_other s _ j _ hj]
  · simp
  · exact regKnown_registerAddress_self hnone hroom

/-! ### Block reset -/

/-- Every slot reads as a blank one after block reset (10_state.md R55). -/
theorem ctl_resetWith (cfg : Config) (rx : List Byte) (k : Nat) : (State.resetWith cfg rx).ctl k = Controller.blank := by
  rw [State.ctl, List.getD_eq_getElem?_getD]
  exact List.getElem?_getD_replicate_default_eq _ cfg.maxControllers k

theorem regOk_resetWith (cfg : Config) (rx : List Byte) : RegOk (State.resetWith cfg rx) :=
  ⟨List.length_replicate, by simp [State.resetWith]⟩

theorem pendOk_resetWith (cfg : Config) (rx : List Byte) : PendOk (State.resetWith cfg rx) := ⟨Nat.zero_le _, nofun⟩

theorem ctrlOk_resetWith (cfg : Config) (rx : List Byte) : CtrlOk (State.resetWith cfg rx) := by
  refine (ctrlOk_iff _).mpr ⟨List.length_replicate, fun j hlive => ?_⟩
  rw [ctl_resetWith] at hlive
  exact absurd hlive Bool.false_ne_true

/-- Settles O53: each part of the invariant holds at reset, and the other clauses read the fields off. -/
theorem resetState : Obligations.ResetState := by
  refine ⟨fun cfg rx => ⟨⟨regOk_resetWith cfg rx, pendOk_resetWith cfg rx, ctrlOk_resetWith cfg rx⟩, rfl, rfl, List.length_replicate,
    fun k => ?_, rfl, rfl, rfl⟩, rfl, by decide⟩
  rw [ctl_resetWith]; rfl

end Sys2Proof.Machine
